-- ==== Sys2Proof/Word.lean ====
section
/-! DEFINITION. The two word types of the block (spec 00_scope.md R10): `Byte` and `Word`, plain bit vectors. -/

namespace Sys2Proof

/-- `Byte`: an 8-bit unsigned value (R10). -/
abbrev Byte := BitVec 8

/-- `Word32`: a 32-bit unsigned value; every operation on it wraps modulo 2^32 (R10). -/
abbrev Word := BitVec 32

end Sys2Proof
end

