-- ==== Sys2Proof/Config.lean ====
section
/-! DEFINITION. The configuration record `Cfg` (spec 00_scope.md R8) and the values no rule fixes, as constants without a body.
The default configuration `cfg0` and the well-formedness check of R9 stand in Machine/AddressMap.lean. -/

namespace Sys2Proof

/-- One flash sector: `SECTOR_BASE(s)` and `SECTOR_SIZE(s)`, in bytes (R8). -/
structure Sector where
  base : Word
  size : Nat
  deriving DecidableEq, Repr, Inhabited

/-- `PROGRAM_OVERWRITE`: what programming a word that is not erased leaves (R8, R238). -/
inductive Overwrite
  /-- `AND`: the old word and the new one, bit by bit. -/
  | and
  /-- `ANY`: an unspecified word. -/
  | any
  deriving DecidableEq, Repr, Inhabited

/-- `SEND_FAIL_POLICY`: what a failed `Send` does to the command (R8, R307). -/
inductive SendFailPolicy
  /-- `IGNORE`: the handler goes on (R162). -/
  | ignore
  /-- `ABORT`: the cycle ends with TRANSPORT_FAILURE at the first failed `Send` (R307). -/
  | abort
  deriving DecidableEq, Repr, Inhabited

/-- `CRC_INPUT_LANE`: where an input byte is XORed into the checksum register (R8, R139). -/
inductive CrcLane
  /-- `HIGH`: into bits 31..24, the source's own statement. -/
  | high
  /-- `LOW`: into bits 7..0, for cross-checks only. -/
  | low
  deriving DecidableEq, Repr, Inhabited

/-- `Cfg` (R8): every parameter of the block, each under the spec's own name. `NUM_SECTORS` is `sectors.length`. -/
structure Cfg where
  rxCap            : Nat
  rxSentinel       : Byte
  ramBase          : Word
  ramEnd           : Word
  flashBase        : Word
  flashEnd         : Word
  sectors          : List Sector
  appSector        : Nat
  appBase          : Word
  key1             : Word
  key2             : Word
  opcGetVersion    : Byte
  opcGetHelp       : Byte
  opcGetCid        : Byte
  opcGetRdp        : Byte
  opcJumpApp       : Byte
  opcJumpAddr      : Byte
  opcErase         : Byte
  opcWrite         : Byte
  opcRead          : Byte
  helpList         : List Byte
  vendorId         : Byte
  verMajor         : Byte
  verMinor         : Byte
  verPatch         : Byte
  /-- A 12-bit identifier in a 16-bit container; R9 (7) bounds it. -/
  chipId           : BitVec 16
  rdpByte          : Byte
  wrpProtected     : List Nat
  programOverwrite : Overwrite
  sendFailPolicy   : SendFailPolicy
  crcInputLane     : CrcLane
  deriving DecidableEq, Repr, Inhabited

/-- `NUM_SECTORS` (R8). -/
abbrev Cfg.numSectors (c : Cfg) : Nat := c.sectors.length

/-- The host's choice for one `Recv` (R13, R17). -/
inductive RecvDraw
  /-- The transport does not fail this `Recv`: it delivers once its bytes are pending. -/
  | deliver
  /-- The transport fails it, consuming at most `k` of the pending bytes. -/
  | fail (k : Nat)
  deriving DecidableEq, Repr, Inhabited

/-- The host's choice for one `Send` (R14, R17). -/
inductive SendDraw
  | success
  /-- The send fails; the host received the first `k` bytes at most. -/
  | failure (k : Nat)
  deriving DecidableEq, Repr, Inhabited

/-! ## Free values

Each constant below has no body, so nothing can be proved of its value. It is applied to the counter `env.drawn` of the
state (for RAM: to the count of power cycles and the address), so that every draw is a value of its own (R17). -/

/-- FREE VALUE: the success of a `Send` for which the state lists no choice of the host's (R14). -/
opaque Config.freeSend : Nat → SendDraw

/-- FREE VALUE: a memory word that a rule calls unspecified (R238, R330). -/
opaque Config.freeWord : Nat → Word

/-- FREE VALUE: the bytes of READ's debug note (R280, D27). -/
opaque Config.freeNote : Nat → List Byte

/-- FREE VALUE: what a RAM byte that nothing has written since power-on holds (R38): power cycle, then address. -/
opaque Config.freeRamByte : Nat → Nat → Byte

end Sys2Proof
end

