-- ==== Sys2Proof/Machine/AddressMap.lean ====
section
/-! DEFINITION. The default configuration `CFG0` (spec 00_scope.md R8), the configuration check of R9, and the Address
Validator (20_memory.md R71, R72), with the sector that holds an address and the FMC's registers in the address map (R85). -/

namespace Sys2Proof.Machine

/-- `CFG0` (R8, R116). Every value but GET_VERSION's opcode is the spec's own choice or general knowledge. -/
def cfg0 : Cfg where
  rxCap            := 100
  rxSentinel       := 0x00#8
  ramBase          := 0x20000000#32
  ramEnd           := 0x20020000#32
  flashBase        := 0x08000000#32
  flashEnd         := 0x08080000#32
  sectors          := [⟨0x08000000#32, 0x4000⟩, ⟨0x08004000#32, 0x4000⟩, ⟨0x08008000#32, 0x4000⟩, ⟨0x0800C000#32, 0x4000⟩,
                       ⟨0x08010000#32, 0x10000⟩, ⟨0x08020000#32, 0x20000⟩, ⟨0x08040000#32, 0x20000⟩, ⟨0x08060000#32, 0x20000⟩]
  appSector        := 2
  appBase          := 0x08008000#32
  key1             := 0x45670123#32
  key2             := 0xCDEF89AB#32
  opcGetVersion    := 0x10#8
  opcGetHelp       := 0x11#8
  opcGetCid        := 0x12#8
  opcGetRdp        := 0x13#8
  opcJumpApp       := 0x14#8
  opcJumpAddr      := 0x15#8
  opcErase         := 0x16#8
  opcWrite         := 0x17#8
  opcRead          := 0x18#8
  helpList         := [0x10#8, 0x11#8, 0x12#8, 0x13#8, 0x14#8, 0x15#8, 0x16#8, 0x17#8, 0x18#8]
  vendorId         := 0x01#8
  verMajor         := 0x02#8
  verMinor         := 0x03#8
  verPatch         := 0x04#8
  chipId           := 0x431#16
  rdpByte          := 0xAA#8
  wrpProtected     := []
  programOverwrite := .and
  sendFailPolicy   := .ignore
  crcInputLane     := .high

/-- The three answers of the Address Validator (R71). -/
inductive Region
  | ramValid
  | flashValid
  | invalid
  deriving DecidableEq, Repr, Inhabited

/-- An address lies in the half-open RAM window (R71). -/
def inRam (cfg : Cfg) (a : Nat) : Bool := decide (cfg.ramBase.toNat ≤ a) && decide (a < cfg.ramEnd.toNat)

/-- An address lies in the half-open flash window (R71). -/
def inFlash (cfg : Cfg) (a : Nat) : Bool := decide (cfg.flashBase.toNat ≤ a) && decide (a < cfg.flashEnd.toNat)

/-- `Classify(a)` (R71). -/
def classify (cfg : Cfg) (a : Word) : Region :=
  if inRam cfg a.toNat then .ramValid else if inFlash cfg a.toNat then .flashValid else .invalid

/-- `Aligned(a)`: bits 1..0 are 0 (R72). -/
def aligned (a : Word) : Bool := a.extractLsb' 0 2 == 0#2

/-- The sector that holds an address, by number: `NUM_SECTORS` when none does (R228). -/
def sectorOf (cfg : Cfg) (a : Word) : Nat :=
  cfg.sectors.findIdx fun x => decide (x.base.toNat ≤ a.toNat) && decide (a.toNat < x.base.toNat + x.size)

/-- The three registers of the FMC that the model has (10_state.md R43; 00_scope.md R16). -/
inductive FmcReg
  | keyr
  | sr
  | cr
  deriving DecidableEq, Repr, Inhabited

/-- The base address of the FMC's register block (R43). -/
abbrev fmcBase : Word := 0x40023C00#32

/-- The offset of a register in the block: KEYR +0x04, SR +0x0C, CR +0x10 (R42, R43, R45, R46). -/
def regOffset : FmcReg → Word
  | .keyr => 0x04#32
  | .sr   => 0x0C#32
  | .cr   => 0x10#32

/-- The address of a register (R43, R85). -/
def regAddr (r : FmcReg) : Word := fmcBase + regOffset r

/-- R43: the register addresses lie outside both memory windows, so that no host command reaches them (R73). -/
def registersOutside (cfg : Cfg) : Bool :=
  (classify cfg (regAddr .keyr) == .invalid) && (classify cfg (regAddr .sr) == .invalid) && (classify cfg (regAddr .cr) == .invalid)

/-- The sectors tile `[lo, hi)` in increasing order with no gap, each size a multiple of 4 (R9 (4)). A sector of size 0 is accepted, and
then shares its base with the next one: the spec does not say (DESIGN CHOICE, log 33). -/
def tiles (hi : Nat) : Nat → List Sector → Bool
  | lo, [] => lo == hi
  | lo, x :: xs => (x.base.toNat == lo) && (x.size % 4 == 0) && tiles hi (lo + x.size) xs

/-- The opcode map as a list (R116). -/
def opcodes (cfg : Cfg) : List Byte :=
  [cfg.opcGetVersion, cfg.opcGetHelp, cfg.opcGetCid, cfg.opcGetRdp, cfg.opcJumpApp, cfg.opcJumpAddr, cfg.opcErase, cfg.opcWrite,
   cfg.opcRead]

/-- R9 (2): two windows, neither empty, that do not overlap. -/
def windowsWf (cfg : Cfg) : Bool :=
  decide (cfg.ramBase.toNat < cfg.ramEnd.toNat) && decide (cfg.flashBase.toNat < cfg.flashEnd.toNat) &&
  (decide (cfg.ramEnd.toNat ≤ cfg.flashBase.toNat) || decide (cfg.flashEnd.toNat ≤ cfg.ramBase.toNat))

/-- R9 (3): the four window bounds are multiples of 4. -/
def boundsWf (cfg : Cfg) : Bool :=
  aligned cfg.ramBase && aligned cfg.ramEnd && aligned cfg.flashBase && aligned cfg.flashEnd

/-- R9 (8): `APP_BASE` and `APP_BASE + 4` lie inside one window, and `APP_BASE` is a multiple of 4. -/
def appBaseWf (cfg : Cfg) : Bool :=
  aligned cfg.appBase && (classify cfg cfg.appBase != .invalid) &&
  (classify cfg (cfg.appBase + 4#32) == classify cfg cfg.appBase)

/-- R9: the configuration is well-formed. `APP_SECTOR < NUM_SECTORS` is not required. R9's list does not name R43's statement that the
FMC's registers lie outside both windows; the model asks for it too (DEDUCED, log 34). -/
def cfgWf (cfg : Cfg) : Bool :=
  decide (10 ≤ cfg.rxCap) &&                                                          -- (1)
  windowsWf cfg &&                                                                    -- (2)
  boundsWf cfg &&                                                                     -- (3)
  tiles cfg.flashEnd.toNat cfg.flashBase.toNat cfg.sectors &&                         -- (4)
  decide (opcodes cfg).Nodup && (cfg.opcGetVersion == 0x10#8) &&                      -- (5)
  decide (cfg.helpList.length ≤ 255) &&                                               -- (6)
  decide (cfg.chipId.toNat < 0x1000) &&                                               -- (7)
  appBaseWf cfg &&                                                                    -- (8)
  decide (cfg.numSectors ≤ 16) &&                                                     -- (9)
  registersOutside cfg                                                                -- R43

end Sys2Proof.Machine
end

