-- ==== Sys2Proof/Machine/Operands.lean ====
section
/-! DEFINITION. Byte order and operand assembly (spec 00_scope.md R12; 20_memory.md R78 to R80; 30_encoding.md R105 to R111):
how bytes of the wire and of the receive buffer become words, and back. -/

namespace Sys2Proof.Machine

/-- `be32(b0, b1, b2, b3)`: the first byte is the most significant (R12). -/
def be32 (b0 b1 b2 b3 : Byte) : Word :=
  (b0.setWidth 32 <<< 24) ||| (b1.setWidth 32 <<< 16) ||| (b2.setWidth 32 <<< 8) ||| b3.setWidth 32

/-- `le32(b0, b1, b2, b3)`: the first byte is the least significant (R12). -/
def le32 (b0 b1 b2 b3 : Byte) : Word :=
  b0.setWidth 32 ||| (b1.setWidth 32 <<< 8) ||| (b2.setWidth 32 <<< 16) ||| (b3.setWidth 32 <<< 24)

/-- Byte `k` of a word, byte 0 being bits 7..0. -/
def byteOf (w : Word) (k : Nat) : Byte := w.extractLsb' (8 * k) 8

/-- `bytes_be(w)` (R12). -/
def bytesBE (w : Word) : List Byte := [byteOf w 3, byteOf w 2, byteOf w 1, byteOf w 0]

/-- `bswap32(w)` (R12). -/
def bswap32 (w : Word) : Word := le32 (byteOf w 3) (byteOf w 2) (byteOf w 1) (byteOf w 0)

/-- The byte at offset `k` of a receive buffer. Every offset a command reads lies below `RX_CAP` (R106); past the end the
sentinel stands, as in a cleared buffer. -/
def bufByte (cfg : Cfg) (buf : List Byte) (k : Nat) : Byte := buf.getD k cfg.rxSentinel

/-- The word whose four bytes stand at offsets `k .. k+3` of the buffer, most significant first (R109, R110). -/
def bufWord (cfg : Cfg) (buf : List Byte) (k : Nat) : Word :=
  be32 (bufByte cfg buf k) (bufByte cfg buf (k + 1)) (bufByte cfg buf (k + 2)) (bufByte cfg buf (k + 3))

/-- The address operand of WRITE, READ and JUMP_ADDR (R109). -/
def addrOperand (cfg : Cfg) (buf : List Byte) : Word := bufWord cfg buf 2

/-- The word count of READ (R111). -/
def countOperand (cfg : Cfg) (buf : List Byte) : Byte := bufByte cfg buf 6

/-- `dlen`: the number of data bytes of a WRITE packet of length `n`; subtraction stops at 0, so it is 0 for `n < 9` (R108). -/
def dataLength (n : Nat) : Nat := n - 9

/-- The data bytes of WRITE: `buf[6 .. 6 + dlen − 1]` (R108). -/
def dataOperand (cfg : Cfg) (n : Nat) (buf : List Byte) : List Byte :=
  (List.range (dataLength n)).map fun j => bufByte cfg buf (6 + j)

/-- The data words of WRITE: one per whole group of four data bytes; the last one to three bytes are dropped (R110, R274). -/
def dataWords : List Byte → List Word
  | b0 :: b1 :: b2 :: b3 :: rest => be32 b0 b1 b2 b3 :: dataWords rest
  | _ => []

end Sys2Proof.Machine
end

