-- ==== Sys2Proof/Machine/Checksum.lean ====
section
/-! DEFINITION. The Checksum Engine (spec 40_checksum.md R130 to R139). -/

namespace Sys2Proof.Machine

/-- The polynomial of R131. -/
abbrev crcPoly : Word := 0x04C11DB7#32

/-- The seed of R131. -/
abbrev crcSeed : Word := 0xFFFFFFFF#32

/-- `n` rounds of R131: shift left by one, and XOR the polynomial when bit 31 was 1. -/
def crcRounds : Nat → Word → Word
  | 0, r => r
  | n + 1, r =>
    match r.msb with
    | true  => crcRounds n ((r <<< 1) ^^^ crcPoly)
    | false => crcRounds n (r <<< 1)

/-- Where an input byte enters the register: the high byte (R131), or the low byte with the lane `LOW` (R139). -/
def crcInput (lane : CrcLane) (r : Word) (b : Byte) : Word :=
  match lane with
  | .high => r ^^^ (b.setWidth 32 <<< 24)
  | .low  => r ^^^ b.setWidth 32

/-- One input byte: XOR it in, then 32 rounds (R131). -/
def crcByte (lane : CrcLane) (r : Word) (b : Byte) : Word := crcRounds 32 (crcInput lane r b)

/-- `Checksum(bs)`: the register after every byte, before any byte swap (R131). -/
def checksum (lane : CrcLane) (bs : List Byte) : Word := bs.foldl (crcByte lane) crcSeed

/-- The source's own contract `checksum_src`: the byte-swapped value (R132). -/
def checksumSrc (lane : CrcLane) (bs : List Byte) : Word := bswap32 (checksum lane bs)

/-- The bytes a packet's checksum covers: `buf[0 .. N−4]`, that is `N − 3` bytes from offset 0 (R103, R134). -/
def coveredBytes (cfg : Cfg) (n : Nat) (buf : List Byte) : List Byte :=
  (List.range (n - 3)).map fun k => bufByte cfg buf k

/-- The received checksum `be32(buf[N−3], buf[N−2], buf[N−1], buf[N])` (R103). -/
def receivedChecksum (cfg : Cfg) (n : Nat) (buf : List Byte) : Word := bufWord cfg buf (n - 3)

/-- The checksum the engine computes for the packet in `buf` with length `n` (R134). -/
def packetChecksum (cfg : Cfg) (n : Nat) (buf : List Byte) : Word :=
  checksum cfg.crcInputLane (coveredBytes cfg n buf)

end Sys2Proof.Machine
end

