-- ==== Sys2Proof/Syntax.lean ====
section
/-! DEFINITION. The nine commands of the block (spec 30_encoding.md R104, R116), one constructor per row of
spec/opcode_table.json, with the operands R109 to R111 assemble. -/

namespace Sys2Proof

/-- A command with its operands (R2: the block's "instructions" are host commands). -/
inductive Instr
  /-- GET_VERSION (R180). -/
  | getVersion
  /-- GET_HELP (R182). -/
  | getHelp
  /-- GET_CID (R184). -/
  | getCid
  /-- GET_RDP (R186). -/
  | getRdp
  /-- JUMP_APP (R200). -/
  | jumpApp
  /-- JUMP_ADDR `addr` (R205). -/
  | jumpAddr (addr : Word)
  /-- ERASE (R268). -/
  | erase
  /-- WRITE `addr`, with its `dlen` data bytes (R270, R108). -/
  | write (addr : Word) (data : List Byte)
  /-- READ `addr`, `count` words (R278). -/
  | read (addr : Word) (count : Byte)
  deriving DecidableEq, Repr, Inhabited

end Sys2Proof
end

