-- ==== Sys2Proof/WellFormed.lean ====
section
/-! DEFINITION. Which commands a host can frame: the packet must fit the one-byte length field and the receive buffer
(spec 30_encoding.md R100, R102). -/

namespace Sys2Proof

/-- The length byte `N` of the nominal packet of a command: opcode, payload and checksum (R104). -/
def Instr.nominalN : Instr → Nat
  | .getVersion   => 5
  | .getHelp      => 5
  | .getCid       => 5
  | .getRdp       => 5
  | .jumpApp      => 5
  | .jumpAddr _   => 9
  | .erase        => 5
  | .write _ data => 9 + data.length
  | .read _ _     => 10

/-- A command is well-formed for a configuration when its nominal packet has a legal length: `N` fits its byte (R100), and
`N ≤ RX_CAP − 1` (R102). -/
def Instr.wf (cfg : Cfg) (i : Instr) : Bool :=
  decide (i.nominalN ≤ 255) && decide (i.nominalN + 1 ≤ cfg.rxCap)

end Sys2Proof
end

