-- ==== Sys2Proof/Decode.lean ====
section
/-! DEFINITION. The decoder, total on any bytes and rejecting by name, and the encoder (spec 30_encoding.md R100 to R120;
41_framer_dispatch.md R152, R153, R156, R157). The checksum of a packet is no part of decoding: every handler checks it (R158). -/

namespace Sys2Proof

open Sys2Proof.Machine

/-- Why a packet is no command. -/
inductive Reject
  /-- Fewer bytes than the length byte announces: reception still waits (R13). -/
  | truncated
  /-- `N > RX_CAP − 1`: a protocol violation (R152). -/
  | oversize (n : Byte)
  /-- `N < 5`: a protocol violation (R153). -/
  | undersize (n : Byte)
  /-- The opcode matches no `OPC_*` value (R117, R157). -/
  | unrecognizedOpcode (op : Byte)
  deriving DecidableEq, Repr, Inhabited

/-- The command an opcode byte selects, with its operands from the fixed offsets of R104 (R105, R114, R116). -/
def decodeOpcode (cfg : Cfg) (n : Byte) (buf : List Byte) (op : Byte) : Except Reject Instr :=
  if op = cfg.opcGetVersion then .ok .getVersion
  else if op = cfg.opcGetHelp then .ok .getHelp
  else if op = cfg.opcGetCid then .ok .getCid
  else if op = cfg.opcGetRdp then .ok .getRdp
  else if op = cfg.opcJumpApp then .ok .jumpApp
  else if op = cfg.opcJumpAddr then .ok (.jumpAddr (addrOperand cfg buf))
  else if op = cfg.opcErase then .ok .erase
  else if op = cfg.opcWrite then .ok (.write (addrOperand cfg buf) (dataOperand cfg n.toNat buf))
  else if op = cfg.opcRead then .ok (.read (addrOperand cfg buf) (countOperand cfg buf))
  else .error (.unrecognizedOpcode op)

/-- Decode the packet of length `n` that stands in a receive buffer (R156). -/
def decodeBuf (cfg : Cfg) (n : Byte) (buf : List Byte) : Except Reject Instr :=
  if cfg.rxCap ≤ n.toNat then .error (.oversize n)
  else if n.toNat < 5 then .error (.undersize n)
  else decodeOpcode cfg n buf (bufByte cfg buf 1)

/-- The receive buffer after a clear and the reception of the length byte and `bs` (R150, R151, R154). -/
def receivedBuf (cfg : Cfg) (n : Byte) (bs : List Byte) : List Byte :=
  n :: bs ++ List.replicate (cfg.rxCap - 1 - bs.length) cfg.rxSentinel

/-- Decode the first packet of a byte stream: the length byte alone says how many bytes follow (R101). -/
def decode (cfg : Cfg) : List Byte → Except Reject Instr
  | [] => .error .truncated
  | n :: rest =>
    if cfg.rxCap ≤ n.toNat then .error (.oversize n)
    else if rest.length < n.toNat then .error .truncated
    else decodeBuf cfg n (receivedBuf cfg n (rest.take n.toNat))

/-- The opcode byte of a command (R116). -/
def opcodeOf (cfg : Cfg) : Instr → Byte
  | .getVersion => cfg.opcGetVersion
  | .getHelp    => cfg.opcGetHelp
  | .getCid     => cfg.opcGetCid
  | .getRdp     => cfg.opcGetRdp
  | .jumpApp    => cfg.opcJumpApp
  | .jumpAddr _ => cfg.opcJumpAddr
  | .erase      => cfg.opcErase
  | .write _ _  => cfg.opcWrite
  | .read _ _   => cfg.opcRead

/-- The payload of a command's nominal packet (R104, R120). -/
def payloadOf : Instr → List Byte
  | .getVersion   => []
  | .getHelp      => []
  | .getCid       => []
  | .getRdp       => []
  | .jumpApp      => []
  | .jumpAddr a   => bytesBE a
  | .erase        => []
  | .write a data => bytesBE a ++ data
  | .read a c     => bytesBE a ++ [c]

/-- The packet of an opcode and a payload: the length byte in front, the checksum of all of it behind (R100, R120). -/
def sealPacket (cfg : Cfg) (op : Byte) (payload : List Byte) : List Byte :=
  let body := BitVec.ofNat 8 (payload.length + 5) :: op :: payload
  body ++ bytesBE (checksum cfg.crcInputLane body)

/-- The nominal packet of a command (R104, R120). -/
def encode (cfg : Cfg) (i : Instr) : List Byte := sealPacket cfg (opcodeOf cfg i) (payloadOf i)

/-- How many payload bytes the nominal packet of an opcode has, for WRITE those of no data (R104). -/
def nominalPayload (cfg : Cfg) (op : Byte) : Nat :=
  if op = cfg.opcJumpAddr then 4 else if op = cfg.opcWrite then 4 else if op = cfg.opcRead then 5 else 0

/-- The packet of a row of spec/opcode_table.json. The table numbers bits from packet byte 1 (its `match_byte`): bits 7..0 of `w` are
the opcode, bits 15..8 the first payload byte, and so on; a payload byte past `nbits` is 0. The length byte and the checksum are
those R100 asks for. -/
def tablePacket (cfg : Cfg) (nbits w : Nat) : List Byte :=
  let v := w % 2 ^ nbits
  let op := BitVec.ofNat 8 v
  let len := max (nominalPayload cfg op) (nbits / 8 - 1)
  sealPacket cfg op ((List.range len).map fun j => BitVec.ofNat 8 (v >>> (8 * (j + 1))))

/-- The instruction the decoder reads from a row's word, under `CFG0`; none where it refuses. -/
def decodeTableWord (nbits w : Nat) : Option Instr :=
  match decode cfg0 (tablePacket cfg0 nbits w) with
  | .ok i    => some i
  | .error _ => none

end Sys2Proof
end

