-- ==== Sys2Proof/Machine/State.lean ====
section
/-! DEFINITION. The state of the block as plain data (spec 10_state.md R30 to R52), the reasons a step can stop, and the state
after reset. -/

namespace Sys2Proof.Machine

/-- `phase` (R31). -/
inductive Phase
  | idle
  | lengthReceived
  | payloadReceived
  | dispatched
  | responded
  | transferred
  deriving DecidableEq, Repr, Inhabited

/-- The failure kinds of a flash sequence (R34). -/
inductive FailKind
  | unlockFailed
  | sectorOutOfRange
  | hwError
  deriving DecidableEq, Repr, Inhabited

/-- A flash-sequence status `st` (R34). The flags are bits of `SR` at their own places, within `ERRMASK` (R240). -/
inductive Status
  | ok
  | fail (kind : FailKind) (flags : Word)
  deriving DecidableEq, Repr, Inhabited

/-- The position inside the running handler's pseudocode (R50): its first line, or the step at which it is held until the FMC
completes (R74, R240). A position of WRITE carries the data words still to be programmed. -/
inductive Pos
  /-- The first line of the handler. -/
  | start
  /-- The first `WaitIdle` of `EraseAppSector` (R262). -/
  | eraseIdle
  /-- The second `WaitIdle` of `EraseAppSector` (R262). -/
  | eraseDone
  /-- The first `WaitIdle` of `ProgramWord`, for the first of `ws` (R244). -/
  | programIdle (ws : List Word)
  /-- The second `WaitIdle` of `ProgramWord`, with `ws` after the word in hand (R244). -/
  | programDone (ws : List Word)
  /-- A held flash read of READ, with `left` words still to read (R74, R267). -/
  | readWord (left : Nat)
  /-- The held read of the stack-pointer word of JUMP_APP (R74, R200). -/
  | jumpMsp
  /-- The held read of the entry word of JUMP_APP (R74, R200). -/
  | jumpEntry
  deriving DecidableEq, Repr, Inhabited

/-- The datapath registers `dp` (R33). -/
structure Datapath where
  n     : Byte
  op    : Byte
  addr  : Word
  count : Byte
  dlen  : Nat
  i     : Nat
  w     : Word
  msp   : Word
  st    : Status
  deriving DecidableEq, Repr, Inhabited

/-- `periph` (R37): which of the bootloader's own peripherals are still enabled. -/
structure Periph where
  clocks    : Bool
  transport : Bool
  checksum  : Bool
  deriving DecidableEq, Repr, Inhabited

/-- `fmc.lockst` (R41). -/
inductive LockState
  | lockedK1
  | lockedK2
  | unlocked
  | lockedHard
  deriving DecidableEq, Repr, Inhabited

/-- `fmc.op`, the operation in flight (R44). -/
inductive FmcOp
  | noOp
  | erase (s : Nat)
  | program (a : Word) (v : Word)
  deriving DecidableEq, Repr, Inhabited

/-- The flash memory controller (R41 to R48). `sr` stores the flags of R45 at their places; `BSY` is computed from `op` (R230).
`cr` stores the fields of R46 at their places; `LOCK` and `STRT` are computed (R48, R231). `KEYR` holds no value (R42). -/
structure Fmc where
  lockst : LockState
  op     : FmcOp
  sr     : Word
  cr     : Word
  deriving DecidableEq, Repr, Inhabited

/-- The Transport Port (R36): `host.in` and `host.out`, oldest byte first. -/
structure HostPort where
  inp : List Byte
  out : List Byte
  deriving DecidableEq, Repr, Inhabited

/-- The units `Deinit` names (R21, R202). -/
inductive DeinitUnit
  | clocks
  | transport
  | checksum
  deriving DecidableEq, Repr, Inhabited

/-- The result of a cycle (R51). -/
inductive CycleResult
  | ok
  | notOk
  deriving DecidableEq, Repr, Inhabited

/-- `Cause` (R300). -/
inductive Cause
  | none
  | transportFailure
  | protocolViolation
  | checksumMismatch
  | unrecognizedOpcode
  | invalidAddress
  | hardwareOperationFailure (st : Status)
  deriving DecidableEq, Repr, Inhabited

/-- The event kinds (R21). -/
inductive Event
  | sent (bs : List Byte)
  | sentFailed (bs : List Byte)
  | debugOut (bs : List Byte)
  | deinit (unit : DeinitUnit)
  | transfer (msp : Option Word) (target : Word)
  | cycleEnd (result : CycleResult) (cause : Cause)
  deriving DecidableEq, Repr, Inhabited

/-- What the step relation takes besides the state and the configuration (R30): the draws of R17, as lists the step reads, oldest
first, and the count of free values already drawn. -/
structure Env where
  /-- The host's choices for the coming `Recv`s (R13); when the list is empty the host has chosen no failure. -/
  recvs       : List RecvDraw
  /-- The host's choices for the coming `Send`s (R14); past its end the choice is the free value `Config.freeSend`. -/
  sends       : List SendDraw
  /-- The completion draws of the FMC's coming operations (R237): the error flags, within `ERRMASK`; none of them means OK. When the
  list is empty the operation in flight has not completed (R236). -/
  completions : List Word
  /-- How many free values have been drawn: the model's own counter. -/
  drawn       : Nat
  deriving DecidableEq, Repr, Inhabited

/-- Memory: (address, byte) cells in the canonical form of `Memory.wf` (Machine/Memory.lean). -/
abbrev Memory := List Host.Cell

/-- The state record `S` (R30), with the configuration (R8), the draws (R17) and the model's two counters. -/
structure State where
  /-- The configuration: no step changes it (R8). -/
  cfg     : Cfg
  phase   : Phase
  pos     : Pos
  buf     : List Byte
  dp      : Datapath
  crcReg  : Word
  periph  : Periph
  mem     : Memory
  fmc     : Fmc
  host    : HostPort
  events  : List Event
  faulted : Bool
  env     : Env
  /-- How many power cycles came before: the model's own index of RAM's unspecified contents (R38). -/
  epoch   : Nat
  deriving DecidableEq, Repr, Inhabited

/-- The model faults (R309). Each carries the state at the fault, with `faulted` set (R19, R39). -/
inductive Fault
  /-- `UNMAPPED_ACCESS`. Raised by `memRead` and `memWrite` at an address outside both windows (R77). Safe: the device goes on in some
  way, and nothing can be proved past it. -/
  | unmappedAccess (s : State)
  /-- `UNDEFINED_FMC_ACCESS`. Raised by the FMC's register accesses that no sequence issues (R223, R226, R227, R228). Safe. -/
  | undefinedFmcAccess (s : State)
  /-- `FIELD_OVERFLOW`. Raised by `eraseStart` for a sector number wider than `CR.SNB` (R47). Safe. -/
  | fieldOverflow (s : State)
  /-- Raised by `step` in a state that is faulted already: no agent takes a step (R39). Safe. -/
  | halted (s : State)
  deriving DecidableEq, Repr, Inhabited

/-- Why a step has no meaning in the model. -/
inductive Refusal
  /-- An instruction without a meaning in the model. Raised by `exec`'s refused arms alone. Safe. -/
  | notModelled (mnemonic : String)
  /-- The configuration breaks R9: a model refuses it (R9, R335). Raised by `step`. Safe. -/
  | badConfiguration
  deriving DecidableEq, Repr, Inhabited

/-- The state after reset under a configuration, with the flash contents `flash` (R52; R38's `FLASH_INIT`). -/
def State.resetWith (cfg : Cfg) (flash : Memory) : State where
  cfg     := cfg
  phase   := .idle
  pos     := .start
  buf     := List.replicate cfg.rxCap 0#8
  dp      := { n := 0#8, op := 0#8, addr := 0#32, count := 0#8, dlen := 0, i := 0, w := 0#32, msp := 0#32, st := .ok }
  crcReg  := 0xFFFFFFFF#32
  periph  := { clocks := true, transport := true, checksum := true }
  mem     := flash
  fmc     := { lockst := .lockedK1, op := .noOp, sr := 0#32, cr := 0#32 }
  host    := { inp := [], out := [] }
  events  := []
  faulted := false
  env     := { recvs := [], sends := [], completions := [], drawn := 0 }
  epoch   := 0

/-- The machine right after reset under `CFG0`, with nothing listed in memory (R52). -/
def State.reset : State := State.resetWith cfg0 []

end Sys2Proof.Machine
end

