-- ==== Sys2Proof/Machine/Flags.lean ====
section
/-! DEFINITION. The fields and flags of the FMC's registers (spec 10_state.md R45 to R48; 44_flash_controller.md R229 to R232), and
the numeric codes of phases, causes and model faults (R31, R300, R310). -/

namespace Sys2Proof.Machine

/-! ### SR (R45) -/

abbrev srEop    : Word := 0x00000001#32
abbrev srOperr  : Word := 0x00000002#32
abbrev srWrperr : Word := 0x00000010#32
abbrev srPgaerr : Word := 0x00000020#32
abbrev srPgperr : Word := 0x00000040#32
abbrev srPgserr : Word := 0x00000080#32
abbrev srRderr  : Word := 0x00000100#32
abbrev srBsy    : Word := 0x00010000#32

/-- `ERRMASK = OPERR | WRPERR | PGAERR | PGPERR | PGSERR | RDERR` (R45). -/
abbrev errMask : Word := 0x000001F2#32

/-- The stored bits of `SR`: EOP and the error flags; the reserved bits read 0 (R45). -/
abbrev srStored : Word := 0x000001F3#32

/-- `SR.BSY`: 1 while an operation is in flight (R45, R230). -/
def Fmc.busy (f : Fmc) : Bool := f.op != .noOp

/-- `RegRead(SR)` (R230). -/
def Fmc.readSr (f : Fmc) : Word := (f.sr &&& srStored) ||| (if f.busy then srBsy else 0#32)

/-- `RegWrite(SR, v)`: clear EOP and the error flags whose bit is 1 in `v` (R229). -/
def Fmc.writeSr (f : Fmc) (v : Word) : Fmc := { f with sr := f.sr &&& ~~~(v &&& srStored) }

/-- Set error flags of `SR`. -/
def Fmc.raiseFlags (f : Fmc) (flags : Word) : Fmc := { f with sr := f.sr ||| flags }

/-! ### CR (R46) -/

abbrev crPg    : Word := 0x00000001#32
abbrev crSer   : Word := 0x00000002#32
abbrev crMer   : Word := 0x00000004#32
abbrev crSnb   : Word := 0x00000078#32
abbrev crPsize : Word := 0x00000300#32
abbrev crStrt  : Word := 0x00010000#32
abbrev crEopie : Word := 0x01000000#32
abbrev crErrie : Word := 0x02000000#32
abbrev crLock  : Word := 0x80000000#32

/-- The stored fields of `CR`: PG, SER, MER, SNB, PSIZE, EOPIE, ERRIE; the reserved bits read 0 (R46). -/
abbrev crStored : Word := 0x0300037F#32

/-- The field of a register under a mask is not 0. -/
def hasBits (r mask : Word) : Bool := r &&& mask != 0#32

/-- A register with the field under a mask replaced (R16). -/
def setField (r mask v : Word) : Word := (r &&& ~~~mask) ||| (v &&& mask)

/-- `CR.SNB`, bits 6..3 (R46). -/
def snbOf (r : Word) : Nat := (r.extractLsb' 3 4).toNat

/-- `CR.PSIZE`, bits 9..8 (R46). -/
def psizeOf (r : Word) : BitVec 2 := r.extractLsb' 8 2

/-- A sector number at the place of `SNB` (R46). -/
def snbField (n : Nat) : Word := BitVec.ofNat 32 n <<< 3

/-- A program size at the place of `PSIZE` (R46). -/
def psizeField (p : BitVec 2) : Word := p.setWidth 32 <<< 8

/-- `CR.LOCK` reads `lockst ≠ UNLOCKED` (R48). -/
def Fmc.locked (f : Fmc) : Bool := f.lockst != .unlocked

/-- `CR.STRT` reads 1 exactly while an erase is in flight (R231). -/
def Fmc.erasing (f : Fmc) : Bool :=
  match f.op with
  | .erase _ => true
  | .noOp => false
  | .program _ _ => false

/-- `RegRead(CR)` (R231). -/
def Fmc.readCr (f : Fmc) : Word :=
  (f.cr &&& crStored) ||| (if f.locked then crLock else 0#32) ||| (if f.erasing then crStrt else 0#32)

/-- `RegRead(KEYR)` (R42, R232). -/
def Fmc.readKeyr (_f : Fmc) : Word := 0#32

/-- The effect of writing `CR` with bit 31 set: `LOCKED_K1` from `UNLOCKED` and from `LOCKED_K2`; otherwise nothing (R224). -/
def lockEffect : LockState → LockState
  | .lockedK1   => .lockedK1
  | .lockedK2   => .lockedK1
  | .unlocked   => .lockedK1
  | .lockedHard => .lockedHard

/-! ### Codes -/

/-- The encoding of `phase` (R31). -/
def phaseCode : Phase → Nat
  | .idle => 0
  | .lengthReceived => 1
  | .payloadReceived => 2
  | .dispatched => 3
  | .responded => 4
  | .transferred => 5

/-- The cause codes (R300). -/
def causeCode : Cause → Nat
  | .none => 0
  | .transportFailure => 1
  | .protocolViolation => 2
  | .checksumMismatch => 3
  | .unrecognizedOpcode => 4
  | .invalidAddress => 5
  | .hardwareOperationFailure _ => 6

/-- The codes of the model-fault reasons (R310); a step of a faulted state has none. -/
def faultCode : Fault → Option Nat
  | .unmappedAccess _ => some 1
  | .undefinedFmcAccess _ => some 2
  | .fieldOverflow _ => some 3
  | .halted _ => none

/-- The state a fault carries. -/
def faultState : Fault → State
  | .unmappedAccess s => s
  | .undefinedFmcAccess s => s
  | .fieldOverflow s => s
  | .halted s => s

/-- The status bytes of the responses (R11, R112). -/
abbrev byteO : Byte := 0x4F#8
abbrev byteE : Byte := 0x45#8
abbrev byteX : Byte := 0x58#8
abbrev byteAck : Byte := 0xDD#8
abbrev byteNack : Byte := 0xEE#8

end Sys2Proof.Machine
end

