-- ==== Sys2Proof/Machine/Memory.lean ====
section
/-! DEFINITION. System memory (spec 10_state.md R38; 20_memory.md R74, R75, R80): cells in one canonical form, words of four bytes
placed little-endian, and the two bulk changes the FMC makes to a sector (44_flash_controller.md R238). -/

namespace Sys2Proof.Machine

/-- What an address that memory does not list holds: flash is erased, all ones (R38); RAM holds no specified value (R38). -/
def Memory.unlisted (cfg : Cfg) (a : Nat) : Option Byte := if inFlash cfg a then some 0xFF#8 else none

/-- The canonical form: addresses strictly rising, and no entry equal to what an unlisted address holds. -/
abbrev Memory.wf (cfg : Cfg) (m : Memory) : Prop :=
  m.Pairwise (fun x y => x.1 < y.1) ∧ ∀ c ∈ m, Memory.unlisted cfg c.1 ≠ some c.2

/-- The listed byte at an address. -/
def Memory.find : Memory → Nat → Option Byte
  | [], _ => none
  | c :: m, a => if c.1 = a then some c.2 else Memory.find m a

/-- The byte an address holds, none where it is unspecified. -/
def Memory.get (cfg : Cfg) (m : Memory) (a : Nat) : Option Byte :=
  match Memory.find m a with
  | some b => some b
  | none   => Memory.unlisted cfg a

/-- List a byte at an address, in place of the one listed there. -/
def Memory.insert : Memory → Nat → Byte → Memory
  | [], a, b => [(a, b)]
  | c :: m, a, b => if a < c.1 then (a, b) :: c :: m else if a = c.1 then (a, b) :: m else c :: Memory.insert m a b

/-- Drop the entries of the addresses `p` holds of. -/
def Memory.drop (m : Memory) (p : Nat → Bool) : Memory := m.filter fun c => !p c.1

/-- Store one byte, keeping the canonical form. -/
def Memory.set (cfg : Cfg) (m : Memory) (a : Nat) (b : Byte) : Memory :=
  if Memory.unlisted cfg a = some b then Memory.drop m (fun x => x == a) else Memory.insert m a b

/-- Store one word: the byte at `a + k` is bits `8k+7 .. 8k` (R80). -/
def Memory.setWord (cfg : Cfg) (m : Memory) (a : Nat) (w : Word) : Memory :=
  Memory.set cfg (Memory.set cfg (Memory.set cfg (Memory.set cfg m a (byteOf w 0)) (a + 1) (byteOf w 1)) (a + 2) (byteOf w 2))
    (a + 3) (byteOf w 3)

/-- Erase `[lo, lo + size)` of flash: every byte there holds all ones again (R238), which is what flash holds where nothing is
listed. -/
def Memory.eraseRange (m : Memory) (lo size : Nat) : Memory :=
  Memory.drop m fun a => decide (lo ≤ a) && decide (a < lo + size)

/-- Leave `n` words from `a` on unspecified, the first of them the free value of index `k` (R238). -/
def Memory.scramble (cfg : Cfg) : Nat → Nat → Nat → Memory → Memory
  | 0, _, _, m => m
  | n + 1, a, k, m => Memory.scramble cfg n (a + 4) (k + 1) (Memory.setWord cfg m a (Config.freeWord k))

/-- The byte memory holds at an address: in RAM that nothing has written, a free value (R38). -/
def State.byteAt (s : State) (a : Nat) : Byte := (Memory.get s.cfg s.mem a).getD (Config.freeRamByte s.epoch a)

/-- The word memory holds at a word address (R38, R80). -/
def State.wordAt (s : State) (a : Word) : Word :=
  le32 (s.byteAt a.toNat) (s.byteAt (a.toNat + 1)) (s.byteAt (a.toNat + 2)) (s.byteAt (a.toNat + 3))

/-- Store a word (R75, R238). -/
def State.setWordAt (s : State) (a : Word) (w : Word) : State :=
  { s with mem := Memory.setWord s.cfg s.mem a.toNat w }

end Sys2Proof.Machine
end

