-- ==== Sys2Proof/Machine/Ops.lean ====
section
/-! DEFINITION. The primitives of the pseudocode (spec 00_scope.md R13 to R21): events, `Send`, `Recv`, `Debug`; taking an exception,
which on this block is `Abort` (60_exceptions.md R311), and the return to IDLE, `Finish` (R312, R160); model faults (R19). -/

namespace Sys2Proof.Machine

/-- What a primitive of a handler does: it goes on with a value, or the step ends here (the cycle was aborted inside the primitive,
or the handler is held), or the machine faults. -/
inductive Flow (α : Type) where
  | go (a : α) (s : State)
  | stop (s : State)
  | fault (f : Fault)
  deriving DecidableEq, Repr

/-- Run `k` after `x`. -/
def Flow.bind {α β : Type} (x : Flow α) (k : α → State → Flow β) : Flow β :=
  match x with
  | .go a s  => k a s
  | .stop s  => .stop s
  | .fault f => .fault f

/-- A handler's flow as the outcome of a step. -/
def Flow.outcome (x : Flow Unit) : Host.Outcome State Fault Refusal :=
  match x with
  | .go _ s  => .next s
  | .stop s  => .next s
  | .fault f => .fault f

/-! ### Events, the end of a cycle, faults -/

/-- `Emit(e)` (R21). -/
def State.emit (s : State) (e : Event) : State := { s with events := s.events ++ [e] }

/-- `phase ← p` (R31). -/
def State.setPhase (s : State) (p : Phase) : State := { s with phase := p }

/-- The position of the running handler (R50). -/
def State.setPos (s : State) (p : Pos) : State := { s with pos := p }

/-- TAKING AN EXCEPTION: `Abort(cause)` (R18, R311). It saves nothing, records `CycleEnd(NOT_OK, cause)`, and goes to IDLE; every send,
memory write and FMC access made before it stands. -/
def State.abort (s : State) (c : Cause) : State :=
  ((s.emit (.cycleEnd .notOk c)).setPhase .idle).setPos .start

/-- The return to IDLE of a cycle that ended well: `Finish()` (R18, R160), by way of RESPONDED. There is no other return (R312). -/
def State.finish (s : State) : State :=
  ((((s.setPhase .responded).emit (.cycleEnd .ok .none))).setPhase .idle).setPos .start

/-- `Fault(reason)`: the state is marked faulted for good, and the run ends (R19, R39). -/
def State.raise (s : State) (reason : State → Fault) : Fault := reason { s with faulted := true }

/-! ### The Transport Port -/

/-- The host's choice for the next `Send`: the first listed, or else a free value (R14, R17). -/
def State.sendChoice (s : State) : SendDraw :=
  match s.env.sends with
  | []     => Config.freeSend s.env.drawn
  | d :: _ => d

/-- The draws left after that choice. -/
def State.sendDrawn (s : State) : State :=
  match s.env.sends with
  | []      => { s with env := { s.env with drawn := s.env.drawn + 1 } }
  | _ :: ds => { s with env := { s.env with sends := ds } }

/-- The bytes of `bs` the host receives (R14): all of them, or a prefix of a failed send. -/
def sentBytes (d : SendDraw) (bs : List Byte) : List Byte :=
  match d with
  | .success   => bs
  | .failure k => bs.take k

/-- The event of a send (R14, R21). -/
def sentEvent (d : SendDraw) (bs : List Byte) : Event :=
  match d with
  | .success   => .sent bs
  | .failure _ => .sentFailed bs

/-- The state after a send with the choice `d` (R14). -/
def State.recordSend (s : State) (d : SendDraw) (bs : List Byte) : State :=
  ({ s with host := { s.host with out := s.host.out ++ sentBytes d bs } } : State).emit (sentEvent d bs)

/-- `Send(bs)` (R14). Under IGNORE the handler goes on whatever the host chose (R162); under ABORT a failed send ends the cycle with
TRANSPORT_FAILURE and leaves the rest of the handler undone (R307). -/
def send (bs : List Byte) (s : State) : Flow Unit :=
  let s' := s.sendDrawn.recordSend s.sendChoice bs
  match s.cfg.sendFailPolicy with
  | .ignore => .go () s'
  | .abort  =>
    match s.sendChoice with
    | .success   => .go () s'
    | .failure _ => .stop (s'.abort .transportFailure)

/-- `Send([b])` for each byte of `bs` in order (R267). -/
def sendEach : List Byte → State → Flow Unit
  | [], s => .go () s
  | b :: bs, s => (send [b] s).bind fun _ s => sendEach bs s

/-- `SendAck(L)` is `Send([0xDD, L])` (R159). -/
def sendAck (len : Byte) (s : State) : Flow Unit := send [byteAck, len] s

/-- What a `Recv` comes to. -/
inductive Received where
  /-- It delivered these bytes. -/
  | bytes (bs : List Byte) (s : State)
  /-- The host made it fail (R13). -/
  | failed (s : State)
  /-- It holds: too few bytes are pending, and the host has not chosen failure (R13). -/
  | waiting
  deriving DecidableEq, Repr

/-- Take the first `k` pending bytes of `host.in`. -/
def State.takeInput (s : State) (k : Nat) : State := { s with host := { s.host with inp := s.host.inp.drop k } }

/-- `Recv(n)` (R13). `Recv(0)` succeeds at once and takes no draw. A failed one consumes at most `n` of the pending bytes. -/
def recv (n : Nat) (s : State) : Received :=
  if n = 0 then .bytes [] s
  else
    match s.env.recvs with
    | .fail k :: rest => .failed ({ s with env := { s.env with recvs := rest } }.takeInput (min k n))
    | ds =>
      if n ≤ s.host.inp.length then
        .bytes (s.host.inp.take n) ({ s with env := { s.env with recvs := ds.tail } }.takeInput n)
      else .waiting

/-- `Debug(bs)` with unspecified bytes: a draw (R20, R280). -/
def debugNote (s : State) : State :=
  ({ s with env := { s.env with drawn := s.env.drawn + 1 } } : State).emit (.debugOut (Config.freeNote s.env.drawn))

/-! ### The checksum prologue -/

/-- `ChecksumOK()` as a condition on the packet in `buf` (R134). -/
def State.checksumOk (s : State) : Bool :=
  packetChecksum s.cfg s.dp.n.toNat s.buf == receivedChecksum s.cfg s.dp.n.toNat s.buf

/-- The computation leaves the returned value in `crc_reg` (R133). -/
def State.ranChecksum (s : State) : State := { s with crcReg := packetChecksum s.cfg s.dp.n.toNat s.buf }

/-- The prologue of every handler (R158): on a mismatch the cycle aborts, with the NACK first where `nack` says so (R303). -/
def checksumPrologue (nack : Bool) (s : State) : Flow Unit :=
  if s.checksumOk then .go () s.ranChecksum
  else if nack then (send [byteNack] s.ranChecksum).bind fun _ s => .stop (s.abort .checksumMismatch)
  else .stop (s.ranChecksum.abort .checksumMismatch)

/-! ### Datapath registers (R33) -/

def State.setAddr (s : State) (a : Word) : State := { s with dp := { s.dp with addr := a } }
def State.setCount (s : State) (c : Byte) : State := { s with dp := { s.dp with count := c } }
def State.setDlen (s : State) (n : Nat) : State := { s with dp := { s.dp with dlen := n } }
def State.setIndex (s : State) (i : Nat) : State := { s with dp := { s.dp with i := i } }
def State.setDataWord (s : State) (w : Word) : State := { s with dp := { s.dp with w := w } }
def State.setMsp (s : State) (w : Word) : State := { s with dp := { s.dp with msp := w } }
def State.setStatus (s : State) (st : Status) : State := { s with dp := { s.dp with st := st } }
def State.setLength (s : State) (n : Byte) : State := { s with dp := { s.dp with n := n } }
def State.setOpcode (s : State) (op : Byte) : State := { s with dp := { s.dp with op := op } }
def State.setBuf (s : State) (b : List Byte) : State := { s with buf := b }
def State.setFmc (s : State) (f : Fmc) : State := { s with fmc := f }

/-- The address of word `i` of a range: `dp.addr + 4i`, modulo 2^32 (R266, R267). -/
def wordAddr (a : Word) (i : Nat) : Word := a + BitVec.ofNat 32 (4 * i)

end Sys2Proof.Machine
end

