-- ==== Sys2Proof/Machine/Info.lean ====
section
/-! DEFINITION. The information commands (spec 42_info_commands.md R180 to R187). -/

namespace Sys2Proof.Machine

/-- An information command: the checksum prologue, silent on a mismatch, then ACK and payload (R180, R182, R184, R186). -/
def infoReply (payload : List Byte) (s : State) : Flow Unit :=
  (checksumPrologue false s).bind fun _ s =>
  (sendAck (BitVec.ofNat 8 payload.length) s).bind fun _ s =>
  (send payload s).bind fun _ s => .go () s.finish

/-- The version bytes: vendor, major, minor, patch (R181). -/
def versionBytes (cfg : Cfg) : List Byte := [cfg.vendorId, cfg.verMajor, cfg.verMinor, cfg.verPatch]

/-- The chip identifier's two bytes, low byte first; the high one has bits 11..8 (R184). -/
def chipIdBytes (cfg : Cfg) : List Byte :=
  [cfg.chipId.extractLsb' 0 8, (cfg.chipId.extractLsb' 8 4).setWidth 8]

/-- GET_VERSION (R180). -/
def execGetVersion (s : State) : Host.Outcome State Fault Refusal := (infoReply (versionBytes s.cfg) s).outcome

/-- GET_HELP (R182). -/
def execGetHelp (s : State) : Host.Outcome State Fault Refusal := (infoReply s.cfg.helpList s).outcome

/-- GET_CID (R184). -/
def execGetCid (s : State) : Host.Outcome State Fault Refusal := (infoReply (chipIdBytes s.cfg) s).outcome

/-- GET_RDP (R186). -/
def execGetRdp (s : State) : Host.Outcome State Fault Refusal := (infoReply [s.cfg.rdpByte] s).outcome

end Sys2Proof.Machine
end

