-- ==== Sys2Proof/Machine/Controller.lean ====
section
/-! DEFINITION. The flash memory controller (spec 44_flash_controller.md R220 to R239): its registers, the lock state machine, bus
writes to flash, the completion step, and the memory primitives that reach it (20_memory.md R74 to R77). -/

namespace Sys2Proof.Machine

/-! ### KEYR -/

/-- `RegWrite(KEYR, v)` outside UNLOCKED: the lock state machine (R221). -/
def keyEffect (cfg : Cfg) (l : LockState) (v : Word) : LockState :=
  match l with
  | .lockedK1   => if v = cfg.key1 then .lockedK2 else .lockedHard
  | .lockedK2   => if v = cfg.key2 then .unlocked else .lockedHard
  | .lockedHard => .lockedHard
  | .unlocked   => .unlocked

/-- `RegWrite(KEYR, v)` (R221); while UNLOCKED it is a model fault (R223). -/
def writeKeyr (v : Word) (s : State) : Flow Unit :=
  match s.fmc.lockst with
  | .unlocked => .fault (s.raise .undefinedFmcAccess)
  | l         => .go () (s.setFmc { s.fmc with lockst := keyEffect s.cfg l v })

/-! ### CR -/

/-- Starting an operation by STRT = 1 (R227): SER alone of SER, PG and MER must be set. -/
def startErase (s : State) : Flow Unit :=
  let n := snbOf s.fmc.cr
  if hasBits s.fmc.cr crSer && !hasBits s.fmc.cr crPg && !hasBits s.fmc.cr crMer then
    if s.cfg.numSectors ≤ n then .fault (s.raise .undefinedFmcAccess)
    else if n ∈ s.cfg.wrpProtected then .go () (s.setFmc (s.fmc.raiseFlags srWrperr))
    else .go () (s.setFmc { s.fmc with op := .erase n })
  else .fault (s.raise .undefinedFmcAccess)

/-- The fields a `CR` write stores, and then the effect of its LOCK bit (R224, R226). -/
def storeCr (v : Word) (f : Fmc) : Fmc :=
  { f with cr := v &&& crStored, lockst := if hasBits v crLock then lockEffect f.lockst else f.lockst }

/-- The effect of the LOCK bit alone (R224, R225). -/
def lockOnly (v : Word) (f : Fmc) : Fmc :=
  { f with lockst := if hasBits v crLock then lockEffect f.lockst else f.lockst }

/-- `RegWrite(CR, v)` (R224 to R227): a model fault while BSY, the LOCK bit alone while locked, else the fields, LOCK and STRT. -/
def writeCr (v : Word) (s : State) : Flow Unit :=
  if s.fmc.busy then .fault (s.raise .undefinedFmcAccess)
  else if s.fmc.locked then .go () (s.setFmc (lockOnly v s.fmc))
  else if hasBits v crStrt then startErase (s.setFmc (storeCr v s.fmc))
  else .go () (s.setFmc (storeCr v s.fmc))

/-! ### Register accesses (R16) -/

/-- `RegRead(r)` (R230 to R232). -/
def regRead (r : FmcReg) (s : State) : Word :=
  match r with
  | .keyr => s.fmc.readKeyr
  | .sr   => s.fmc.readSr
  | .cr   => s.fmc.readCr

/-- `RegWrite(r, v)` (R221, R225, R226, R229). -/
def regWrite (r : FmcReg) (v : Word) (s : State) : Flow Unit :=
  match r with
  | .keyr => writeKeyr v s
  | .sr   => .go () (s.setFmc (s.fmc.writeSr v))
  | .cr   => writeCr v s

/-- `CR.f ← x`: a read and a write (R16), `g` replacing the fields. -/
def modifyCr (g : Word → Word) (s : State) : Flow Unit := regWrite .cr (g (regRead .cr s)) s

/-! ### The completion step (R238) -/

/-- The draws of `n` free words are taken. -/
def State.drewWords (s : State) (n : Nat) : State := { s with env := { s.env with drawn := s.env.drawn + n } }

/-- What an erase of sector `n` leaves (R238): all ones, or every word unspecified. -/
def completeErase (ok : Bool) (n : Nat) (s : State) : State :=
  match s.cfg.sectors[n]? with
  | none => s
  | some x =>
    if ok then { s with mem := Memory.eraseRange s.mem x.base.toNat x.size }
    else ({ s with mem := Memory.scramble s.cfg (x.size / 4) x.base.toNat s.env.drawn s.mem } : State).drewWords (x.size / 4)

/-- What a successful program of `v` leaves in a word that held `old` (R238, R239); `free` is the unspecified word. -/
def programmed (ow : Overwrite) (old v free : Word) : Word :=
  match ow with
  | .and => old &&& v
  | .any => if old = 0xFFFFFFFF#32 then v else free

/-- What a program of `v` at `a` leaves (R238). One free word is drawn, whether the outcome is it or not. -/
def completeProgram (ok : Bool) (a v : Word) (s : State) : State :=
  let free := Config.freeWord s.env.drawn
  (s.setWordAt a (if ok then programmed s.cfg.programOverwrite (s.wordAt a) v free else free)).drewWords 1

/-- The effect on memory of an operation with its status. -/
def completeOp (ok : Bool) (op : FmcOp) (s : State) : State :=
  match op with
  | .noOp        => s
  | .erase n     => completeErase ok n s
  | .program a v => completeProgram ok a v s

/-- `FmcComplete(status)` (R238), the FMC's own step, enabled while an operation is in flight (R220, R236): the status is OK when the drawn
flags hold none of `ERRMASK`, and else those flags (R237). -/
def fmcComplete (draw : Word) (s : State) : State :=
  let flags := draw &&& errMask
  let s' := completeOp (flags == 0#32) s.fmc.op s
  s'.setFmc { (s'.fmc.raiseFlags flags) with op := .noOp }

/-- The hold of `WaitIdle` and of a flash read (R74, R240): the FMC's completion lifts it (R236). Without a completion listed the
handler stays at the position `pos`. -/
def awaitFmc (pos : Pos) (s : State) : Flow Unit :=
  if s.fmc.busy then
    match s.env.completions with
    | []        => .stop (s.setPos pos)
    | d :: rest => .go () (fmcComplete d { s with env := { s.env with completions := rest } })
  else .go () s

/-! ### Bus accesses -/

/-- A bus write to a flash address (R228). -/
def flashWrite (a v : Word) (s : State) : Flow Unit :=
  if !hasBits s.fmc.cr crPg || s.fmc.locked || hasBits s.fmc.cr crSer then .go () (s.setFmc (s.fmc.raiseFlags srPgserr))
  else if psizeOf s.fmc.cr ≠ 0b10#2 then .go () (s.setFmc (s.fmc.raiseFlags srPgperr))
  else if s.fmc.busy then .fault (s.raise .undefinedFmcAccess)
  else if sectorOf s.cfg a ∈ s.cfg.wrpProtected then .go () (s.setFmc (s.fmc.raiseFlags srWrperr))
  else .go () (s.setFmc { s.fmc with op := .program a v })

/-- `MemWrite(a, 4, v)` (R75 to R77). -/
def memWrite (a v : Word) (s : State) : Flow Unit :=
  match classify s.cfg a with
  | .ramValid   => .go () (s.setWordAt a v)
  | .flashValid => flashWrite a v s
  | .invalid    => .fault (s.raise .unmappedAccess)

/-- `MemRead(a, 4)` (R74, R77), held at `pos` while the FMC works on flash. -/
def memRead (pos : Pos) (a : Word) (s : State) : Flow Word :=
  match classify s.cfg a with
  | .ramValid   => .go (s.wordAt a) s
  | .flashValid => (awaitFmc pos s).bind fun _ s => .go (s.wordAt a) s
  | .invalid    => .fault (s.raise .unmappedAccess)

end Sys2Proof.Machine
end

