-- ==== Sys2Proof/Machine/Programmer.lean ====
section
/-! DEFINITION. The Flash Programmer (spec 44_flash_controller.md R240 to R244; 45_memory_commands.md R260 to R267): `WaitIdle`,
`Unlock`, `Lock`, `ProgramWord`, and the three sequences. Each sequence is cut at its waits, so that a handler the FMC holds goes on
from there. -/

namespace Sys2Proof.Machine

/-- `WaitIdle()` (R240): hold until idle, then collect and clear the error flags. -/
def waitIdle (pos : Pos) (s : State) : Flow Status :=
  (awaitFmc pos s).bind fun _ s =>
    let e := regRead .sr s &&& errMask
    (regWrite .sr e s).bind fun _ s => .go (if e = 0#32 then .ok else .fail .hwError e) s

/-- `Unlock()` (R242): if already unlocked, proceed; else write the two keys and look again. -/
def unlock (s : State) : Flow Status :=
  if hasBits (regRead .cr s) crLock then
    (regWrite .keyr s.cfg.key1 s).bind fun _ s =>
    (regWrite .keyr s.cfg.key2 s).bind fun _ s =>
    if hasBits (regRead .cr s) crLock then .go (.fail .unlockFailed 0#32) s else .go .ok s
  else .go .ok s

/-- `Lock()` is `CR.LOCK ← 1` (R243). -/
def lock (s : State) : Flow Unit := modifyCr (fun r => setField r crLock crLock) s

/-! ### EraseAppSector (R262) -/

/-- From the second `WaitIdle` of `EraseAppSector` on. -/
def eraseFinish (s : State) : Flow Status :=
  (waitIdle .eraseDone s).bind fun st s =>
  (modifyCr (fun r => setField r (crSer ||| crSnb) 0#32) s).bind fun _ s =>
  (lock s).bind fun _ s => .go st s

/-- The fields of one `CR` write of `EraseAppSector`: PSIZE, SNB and SER (R262). -/
def eraseFields (n : Nat) (r : Word) : Word :=
  setField r (crPsize ||| crSnb ||| crSer) (psizeField 0b10#2 ||| snbField n ||| crSer)

/-- Select the sector and trigger the erase (R262); a sector number wider than SNB is a model fault (R47). -/
def eraseStart (s : State) : Flow Unit :=
  if 16 ≤ s.cfg.appSector then .fault (s.raise .fieldOverflow)
  else
    (modifyCr (eraseFields s.cfg.appSector) s).bind fun _ s =>
    modifyCr (fun r => setField r crStrt crStrt) s

/-- From the first `WaitIdle` of `EraseAppSector` on. -/
def eraseFromIdle (s : State) : Flow Status :=
  (waitIdle .eraseIdle s).bind fun _ s =>
  (unlock s).bind fun st s =>
  if st = .ok then (eraseStart s).bind fun _ s => eraseFinish s
  else (lock s).bind fun _ s => .go (.fail .unlockFailed 0#32) s

/-- `EraseAppSector()` (R262); the range check comes before any FMC access (R264). -/
def eraseAppSector (s : State) : Flow Status :=
  if s.cfg.numSectors ≤ s.cfg.appSector then .go (.fail .sectorOutOfRange 0#32) s else eraseFromIdle s

/-! ### ProgramRange (R244, R266) -/

/-- The fields of the first `CR` write of `ProgramWord`: PSIZE and PG (R244). -/
def programFields (r : Word) : Word := setField r (crPsize ||| crPg) (psizeField 0b10#2 ||| crPg)

/-- `ProgramWord` up to its store (R244), with the loop's `dp.i` and `dp.w` (R266); `ws` are the words after `w`. -/
def programStart (w : Word) (ws : List Word) (i : Nat) (s : State) : Flow Unit :=
  (waitIdle (.programIdle (w :: ws)) ((s.setIndex i).setDataWord w)).bind fun _ s =>
  (modifyCr programFields s).bind fun _ s =>
  memWrite (wordAddr s.dp.addr i) w s

/-- `ProgramWord` from its second `WaitIdle` on (R244). -/
def programFinish (ws : List Word) (s : State) : Flow Status :=
  (waitIdle (.programDone ws) s).bind fun st s =>
  (modifyCr (fun r => setField r crPg 0#32) s).bind fun _ s => .go st s

/-- The loop of `ProgramRange` (R266) over the words `ws`, the first of them at index `i`; it stops at the first failure. -/
def programLoop : List Word → Nat → State → Flow Status
  | [], _, s => .go .ok s
  | w :: ws, i, s =>
    (programStart w ws i s).bind fun _ s =>
    (programFinish ws s).bind fun st s =>
    if st = .ok then programLoop ws (i + 1) s else .go st s

/-- The end of `ProgramRange`: `Lock()` on every path, then the status (R266). -/
def lockAfter (st : Status) (s : State) : Flow Status := (lock s).bind fun _ s => .go st s

/-- `ProgramRange(a, dlen)` (R266) over the words of its data bytes; the address is `dp.addr`. -/
def programRange (ws : List Word) (s : State) : Flow Status :=
  (unlock s).bind fun st s =>
  if st = .ok then (programLoop ws 0 s).bind lockAfter else lockAfter st s

/-- `ProgramRange` from the second `WaitIdle` of the word at index `dp.i` on, with `ws` after it. -/
def programResume (ws : List Word) (s : State) : Flow Status :=
  ((programFinish ws s).bind fun st s' =>
    if st = .ok then programLoop ws (s.dp.i + 1) s' else .go st s').bind lockAfter

/-! ### ReadRange (R267) -/

/-- The loop of `ReadRange` (R267): `left` words still to read, the first of them at index `i`. -/
def readLoop : Nat → Nat → State → Flow Unit
  | 0, _, s => .go () s
  | left + 1, i, s =>
    (memRead (.readWord (left + 1)) (wordAddr s.dp.addr i) (s.setIndex i)).bind fun w s =>
    (sendEach (bytesBE w) (s.setDataWord w)).bind fun _ s => readLoop left (i + 1) s

end Sys2Proof.Machine
end

