-- ==== Sys2Proof/Machine/MemoryCommands.lean ====
section
/-! DEFINITION. ERASE, WRITE and READ (spec 45_memory_commands.md R268 to R282). -/

namespace Sys2Proof.Machine

/-- ERASE after its sequence (R268): nothing is sent, whatever the status. -/
def eraseTail (st : Status) (s : State) : Flow Unit :=
  let s := s.setStatus st
  if st = .ok then .go () s.finish else .go () (s.abort (.hardwareOperationFailure st))

/-- ERASE (R268). -/
def execErase (s : State) : Host.Outcome State Fault Refusal :=
  ((checksumPrologue false s).bind fun _ s =>
   (sendAck 0#8 s).bind fun _ s =>
   (eraseAppSector s).bind eraseTail).outcome

/-- An address READ and WRITE refuse: it classifies INVALID, or it is not a multiple of 4 (R72, R272, R280). -/
def badRangeAddr (cfg : Cfg) (a : Word) : Bool := (classify cfg a == .invalid) || !aligned a

/-- WRITE after its sequence (R270, R271): the status byte, and the end of the cycle. -/
def writeTail (st : Status) (s : State) : Flow Unit :=
  let s := s.setStatus st
  if st = .ok then (send [byteO] s).bind fun _ s => .go () s.finish
  else (send [byteE] s).bind fun _ s => .go () (s.abort (.hardwareOperationFailure st))

/-- WRITE `addr`, `data` (R270); a bad address is refused before the ACK (R272). -/
def execWrite (addr : Word) (data : List Byte) (s : State) : Host.Outcome State Fault Refusal :=
  ((checksumPrologue true s).bind fun _ s =>
   let s := s.setAddr addr
   if badRangeAddr s.cfg addr then (send [byteX] s).bind fun _ s => .go () (s.abort .invalidAddress)
   else
     (sendAck 1#8 s).bind fun _ s =>
     (programRange (dataWords data) (s.setDlen data.length)).bind writeTail).outcome

/-- READ `addr`, `count` (R278); a bad address is refused before the ACK, with a debug note (R280). -/
def execRead (addr : Word) (count : Byte) (s : State) : Host.Outcome State Fault Refusal :=
  ((checksumPrologue true s).bind fun _ s =>
   let s := (s.setAddr addr).setCount count
   if badRangeAddr s.cfg addr then (send [byteE] s).bind fun _ s => .go () ((debugNote s).abort .invalidAddress)
   else
     (sendAck count s).bind fun _ s =>
     (readLoop count.toNat 0 s).bind fun _ s => .go () s.finish).outcome

end Sys2Proof.Machine
end

