-- ==== Sys2Proof/Machine/Transfer.lean ====
section
/-! DEFINITION. Control transfer (spec 43_control_transfer.md R200 to R209). -/

namespace Sys2Proof.Machine

/-- `Deinitialise()`: clocks, transport, checksum unit, in this order (R202). -/
def deinitialise (s : State) : State :=
  let s := s.emit (.deinit .clocks)
  let s := { s with periph := { s.periph with clocks := false } }
  let s := s.emit (.deinit .transport)
  let s := { s with periph := { s.periph with transport := false } }
  let s := s.emit (.deinit .checksum)
  { s with periph := { s.periph with checksum := false } }

/-- `Transfer(msp, target)` (R203): one-way. -/
def transfer (msp : Option Word) (target : Word) (s : State) : State :=
  ((s.emit (.transfer msp target)).setPhase .transferred).setPos .start

/-- JUMP_APP from the read of the entry vector on (R200); the entry word is used unchanged (R201). -/
def jumpAppEntry (s : State) : Flow Unit :=
  (memRead .jumpEntry (s.cfg.appBase + 4#32) s).bind fun w s =>
  .go () (transfer (some s.dp.msp) w (deinitialise (s.setDataWord w)))

/-- JUMP_APP from the read of the stack-pointer word on (R200). -/
def jumpAppMsp (s : State) : Flow Unit :=
  (memRead .jumpMsp s.cfg.appBase s).bind fun w s => jumpAppEntry (s.setMsp w)

/-- JUMP_APP (R200). -/
def execJumpApp (s : State) : Host.Outcome State Fault Refusal :=
  ((checksumPrologue false s).bind fun _ s =>
   (sendAck 0#8 s).bind fun _ s => jumpAppMsp s).outcome

/-- JUMP_ADDR `addr` (R205): the ACK comes before the check (R207); the target is `addr | 1` (R206). -/
def execJumpAddr (addr : Word) (s : State) : Host.Outcome State Fault Refusal :=
  ((checksumPrologue false s).bind fun _ s =>
   (sendAck 0#8 s).bind fun _ s =>
   if classify s.cfg addr = .invalid then .go () ((s.setAddr addr).abort .invalidAddress)
   else .go () (transfer none (addr ||| 1#32) (s.setAddr addr))).outcome

end Sys2Proof.Machine
end

