-- ==== Sys2Proof/Machine/Dispatch.lean ====
section
/-! DEFINITION. The dispatcher's table: one handler per command (spec 41_framer_dispatch.md R156). -/

namespace Sys2Proof.Machine

/-- The handler of a command, run in phase DISPATCHED (R156). -/
def exec (i : Instr) (s : State) : Host.Outcome State Fault Refusal :=
  match i with
  | .getVersion => Sys2Proof.Machine.execGetVersion s
  | .getHelp => Sys2Proof.Machine.execGetHelp s
  | .getCid => Sys2Proof.Machine.execGetCid s
  | .getRdp => Sys2Proof.Machine.execGetRdp s
  | .jumpApp => Sys2Proof.Machine.execJumpApp s
  | .jumpAddr addr => Sys2Proof.Machine.execJumpAddr addr s
  | .erase => Sys2Proof.Machine.execErase s
  | .write addr data => Sys2Proof.Machine.execWrite addr data s
  | .read addr count => Sys2Proof.Machine.execRead addr count s

end Sys2Proof.Machine
end

