-- ==== Sys2Proof/Machine/Framer.lean ====
section
/-! DEFINITION. The Packet Framer and the running of a handler (spec 41_framer_dispatch.md R150 to R164), and what comes from outside
the block: the host's bytes (00_scope.md R7, R13) and reset (70_reset_and_hazards.md R330). -/

namespace Sys2Proof.Machine

/-- The clear of the buffer (R150). -/
def clearBuf (s : State) : State := s.setBuf (List.replicate s.cfg.rxCap s.cfg.rxSentinel)

/-- IDLE: clear, then `Recv(1)` (R150, R151). Held, it waits with the buffer cleared (R352). -/
def receiveLength (s : State) : State :=
  let s := clearBuf s
  match recv 1 s with
  | .waiting    => s
  | .failed s   => s.abort .transportFailure
  | .bytes bs s =>
    let n := bs.headD 0#8
    ((s.setBuf (n :: s.buf.drop 1)).setLength n).setPhase .lengthReceived

/-- Store the received bytes at offsets `1 .. len` (R154). -/
def storeBody (buf bs : List Byte) : List Byte := buf.take 1 ++ bs ++ buf.drop (1 + bs.length)

/-- LENGTH_RECEIVED: the body into the buffer (R154), or, for an oversize length, the discard and the abort (R152). -/
def receiveBody (s : State) : State :=
  match recv s.dp.n.toNat s with
  | .waiting    => s
  | .failed s   => s.abort .transportFailure
  | .bytes bs s =>
    if s.cfg.rxCap ≤ s.dp.n.toNat then s.abort .protocolViolation
    else (s.setBuf (storeBody s.buf bs)).setPhase .payloadReceived

/-- The dispatch of the packet in `buf` (R156): `dp.op` and the phase are set, and the handler runs. -/
def dispatched (s : State) : State := ((s.setOpcode (bufByte s.cfg s.buf 1)).setPhase .dispatched).setPos .start

/-- PAYLOAD_RECEIVED, and the first line of a handler in DISPATCHED: run the command the buffer holds; a length violation (R153) and an
unrecognised opcode (R157) abort, sending nothing. -/
def dispatchPacket (s : State) : Host.Outcome State Fault Refusal :=
  match decodeBuf s.cfg s.dp.n s.buf with
  | .ok i => exec i (dispatched s)
  | .error (.unrecognizedOpcode _) => .next ((dispatched s).abort .unrecognizedOpcode)
  | .error (.oversize _) => .next (s.abort .protocolViolation)
  | .error (.undersize _) => .next (s.abort .protocolViolation)
  | .error .truncated => .next (s.abort .protocolViolation)

/-- DISPATCHED: the handler goes on from the position at which the FMC held it (R50, R74, R240). -/
def resumeHandler (s : State) : Host.Outcome State Fault Refusal :=
  match s.pos with
  | .start          => dispatchPacket s
  | .eraseIdle      => ((eraseFromIdle s).bind eraseTail).outcome
  | .eraseDone      => ((eraseFinish s).bind eraseTail).outcome
  | .programIdle ws => (((programLoop ws s.dp.i s).bind lockAfter).bind writeTail).outcome
  | .programDone ws => ((programResume ws s).bind writeTail).outcome
  | .readWord left  => ((readLoop left s.dp.i s).bind fun _ s => .go () s.finish).outcome
  | .jumpMsp        => (jumpAppMsp s).outcome
  | .jumpEntry      => (jumpAppEntry s).outcome

/-- One step of the controller in a state that is not faulted (R164). TRANSFERRED takes no step (R203); RESPONDED passes to IDLE. -/
def cycleStep (s : State) : Host.Outcome State Fault Refusal :=
  match s.phase with
  | .idle            => .next (receiveLength s)
  | .lengthReceived  => .next (receiveBody s)
  | .payloadReceived => dispatchPacket s
  | .dispatched      => resumeHandler s
  | .responded       => .next (s.setPhase .idle)
  | .transferred     => .next s

/-- The packet `p` (length byte first) stands received in the buffer, and the next step dispatches it. -/
def placePacket (p : List Byte) (s : State) : State :=
  let n := p.headD 0#8
  (((s.setBuf (receivedBuf s.cfg n (p.drop 1))).setLength n).setPhase .payloadReceived).setPos .start

/-! ### From outside the block -/

/-- The host sends bytes (R7 (c), R36). -/
def hostSends (bs : List Byte) (s : State) : State := { s with host := { s.host with inp := s.host.inp ++ bs } }

/-- The host settles the outcome of a coming `Recv` (R13). -/
def hostChoosesRecv (d : RecvDraw) (s : State) : State := { s with env := { s.env with recvs := s.env.recvs ++ [d] } }

/-- The host settles the outcome of a coming `Send` (R14). -/
def hostChoosesSend (d : SendDraw) (s : State) : State := { s with env := { s.env with sends := s.env.sends ++ [d] } }

/-- The FMC's completion of a coming operation, with its drawn flags (R236, R237). -/
def fmcWillComplete (draw : Word) (s : State) : State :=
  { s with env := { s.env with completions := s.env.completions ++ [draw] } }

/-- What a reset leaves of the target of an operation in flight: unspecified (R330). -/
def interruptOp (s : State) : State := completeOp false s.fmc.op s

/-- Reset by a power cycle at any step (R330 to R332): the reset values, but for flash, which keeps its words, those of an operation in
flight unspecified; RAM is unspecified anew; the host keeps what it received (R331). The reset table clears `faulted` (R52; log 18). -/
def powerCycle (s : State) : State :=
  let t := interruptOp s
  { State.resetWith s.cfg (Memory.drop t.mem fun a => !inFlash s.cfg a) with
    host := { inp := [], out := s.host.out }
    env := t.env
    epoch := s.epoch + 1 }

/-- The bytes a recorded `Send` carried. -/
def sendOf : Event → Option (List Byte)
  | .sent bs => some bs
  | .sentFailed bs => some bs
  | .debugOut _ => none
  | .deinit _ => none
  | .transfer _ _ => none
  | .cycleEnd _ _ => none

/-- What the host receives of the sends in a record of events when `ds` are its choices for them (R14). -/
def wireBytes (ds : List SendDraw) (es : List Event) : List Byte := (List.zipWith sentBytes ds (es.filterMap sendOf)).flatten

/-- The state in which a step of `s` stands when power fails in the `Send` that follows the sends of the choices `ds`, `j` bytes of it
received, or before it in the wait for the completion after the first `m` listed ones. Under IGNORE the choices change no path (R162), so
the path is that of sends that succeed up to the cut, and the cut ends it as a failed send does under ABORT (R307). With fewer sends and
waits than that it is the whole step, or the state before the access that faults. -/
def stepToSend (ds : List SendDraw) (j m : Nat) (s : State) : State :=
  let choices := match s.cfg.sendFailPolicy with
    | .ignore => List.replicate ds.length .success
    | .abort  => ds
  let cut : State := { s with
    cfg := { s.cfg with sendFailPolicy := .abort }
    env := { s.env with sends := choices ++ [.failure j], completions := s.env.completions.take m } }
  let stand := fun t : State => { t with
    cfg := { t.cfg with sendFailPolicy := s.cfg.sendFailPolicy }
    host := { t.host with out := s.host.out ++ wireBytes (ds ++ [.failure j]) (t.events.drop s.events.length) }
    faulted := s.faulted
    env := { t.env with
      sends := s.env.sends.drop (ds.length + 1)
      completions := t.env.completions ++ s.env.completions.drop m } }
  match cycleStep cut with
  | .next t    => stand t
  | .fault f   => stand (faultState f)
  | .refused _ => s

/-- Nothing in flight: the moment before a held handler started its operation, when flash is as it is while the operation runs. -/
def beforeOp (s : State) : State := s.setFmc { s.fmc with op := .noOp }

/-- Reset by a power cycle inside a step (R330): at the `Send` after those of the choices `ds`, or at the wait that the first `m` listed
completions do not lift, or before the access that faults; `early` says that the operation a wait is for had not started yet. A faulted
state takes no step (R39). -/
def powerCycleInside (ds : List SendDraw) (j m : Nat) (early : Bool) (s : State) : State :=
  let t := if s.faulted then s else stepToSend ds j m s
  powerCycle (if early then beforeOp t else t)

end Sys2Proof.Machine
end

