-- ==== Sys2Proof/Machine/Step.lean ====
section
/-! DEFINITION. One step of the machine (spec 41_framer_dispatch.md R164; 10_state.md R39; 00_scope.md R9), and how the host places
one packet for the next step. -/

namespace Sys2Proof.Machine

/-- One step. A faulted state takes none (R39); a configuration that breaks R9 is refused; else the controller moves (R164). -/
def step (s : State) : Host.Outcome State Fault Refusal :=
  if s.faulted then .fault (.halted s)
  else if cfgWf s.cfg then cycleStep s
  else .refused .badConfiguration

/-- The state with the packet of an opcode-table word received, so that the next step dispatches it. -/
def State.withFetchWord (s : State) (nbits w : Nat) : State := placePacket (tablePacket s.cfg nbits w) s

end Sys2Proof.Machine
end

