-- ==== Sys2Proof/Safety.lean ====
section
/-! DEFINITION. What a good state is, in the terms the statements use: the FMC at rest between cycles (spec
44_flash_controller.md R245 to R247), the invariant of the machine, agreement of states, and the moves of a run. -/

namespace Sys2Proof.Safety

open Sys2Proof.Machine

/-- The FMC at rest, as R247 has it in IDLE and TRANSFERRED: nothing in flight, no error flag, PG, SER and SNB 0, and locked. -/
abbrev FmcAtRest (f : Fmc) : Prop :=
  f.op = .noOp ∧ f.sr &&& errMask = 0#32 ∧ f.cr &&& (crPg ||| crSer ||| crSnb) = 0#32 ∧
  (f.lockst = .lockedK1 ∨ f.lockst = .lockedHard)

/-- The FMC's reserved bits read 0, and what the block never sets stays 0: EOP, MER, EOPIE and ERRIE (R45, R46, R233). -/
abbrev FmcReservedZero (f : Fmc) : Prop :=
  f.sr &&& ~~~errMask = 0#32 ∧ f.cr &&& ~~~(crPg ||| crSer ||| crSnb ||| crPsize) = 0#32

/-- The FMC as every run finds it at the start of a cycle, but for a device whose key register was locked by a wrong write: at rest,
its unused bits 0, and the first key expected (R222, R233, R246, R247). -/
abbrev FmcReady (f : Fmc) : Prop := FmcAtRest f ∧ FmcReservedZero f ∧ f.lockst = .lockedK1

/-- The FMC after an erase or a program and the lock that follows: `CR` reads 8000_0200 and `SR` reads 0 (R244, R262). -/
abbrev fmcAfterSequence : Fmc := { lockst := .lockedK1, op := .noOp, sr := 0#32, cr := 0x00000200#32 }

/-- A completion draw that means OK (R237). -/
abbrev DrawOk (d : Word) : Prop := d &&& errMask = 0#32

/-- The commands that send a NACK on a bad checksum: WRITE and READ alone (R158, R303). -/
def nacks : Instr → Bool
  | .write _ _ => true
  | .read _ _ => true
  | .getVersion => false
  | .getHelp => false
  | .getCid => false
  | .getRdp => false
  | .jumpApp => false
  | .jumpAddr _ => false
  | .erase => false

/-- The second byte of a command's ACK (R113, R159). -/
def ackLength (cfg : Cfg) : Instr → Byte
  | .getVersion => 4#8
  | .getHelp => BitVec.ofNat 8 cfg.helpList.length
  | .getCid => 2#8
  | .getRdp => 1#8
  | .jumpApp => 0#8
  | .jumpAddr _ => 0#8
  | .erase => 0#8
  | .write _ _ => 1#8
  | .read _ count => count

/-- A command that reaches its ACK: the address check of WRITE and READ comes before it, the others have none there (R72, R207). -/
def reachesAck (cfg : Cfg) : Instr → Prop
  | .write a _ => classify cfg a ≠ .invalid ∧ a.toNat % 4 = 0
  | .read a _ => classify cfg a ≠ .invalid ∧ a.toNat % 4 = 0
  | .getVersion => True
  | .getHelp => True
  | .getCid => True
  | .getRdp => True
  | .jumpApp => True
  | .jumpAddr _ => True
  | .erase => True

/-- The wait after the start of an erase, unlocked, with PG 0: the erase of the application sector is in flight with no error flag, or
the FMC has completed it (R227, R238, R262). -/
abbrev EraseAwaited (cfg : Cfg) (f : Fmc) : Prop :=
  (f.op = .noOp ∨ f.op = .erase cfg.appSector ∧ f.sr &&& errMask = 0#32) ∧ cfg.appSector < cfg.numSectors ∧
  f.lockst = .unlocked ∧ f.cr &&& crPg = 0#32

/-- The wait after the start of a program, unlocked, with SER and SNB 0: the program of a flash word is in flight with no error flag, or
the FMC has completed it (R228, R238, R244). -/
def ProgramAwaited (cfg : Cfg) (f : Fmc) : Prop :=
  (f.op = .noOp ∨ (∃ a v, f.op = .program a v ∧ classify cfg a = .flashValid) ∧ f.sr &&& errMask = 0#32) ∧
  f.lockst = .unlocked ∧ f.cr &&& (crSer ||| crSnb) = 0#32

/-- No sector that holds the address is protected (R86, R228). -/
def Unprotected (cfg : Cfg) (a : Word) : Prop :=
  ∀ n x, cfg.sectors[n]? = some x → x.base.toNat ≤ a.toNat → a.toNat < x.base.toNat + x.size → n ∉ cfg.wrpProtected

/-- What the FMC does at each position of a handler: only the waits after an erase and after a program hold (R241, R248). -/
def HeldProperly (cfg : Cfg) (f : Fmc) : Pos → Prop
  | .start         => FmcAtRest f
  | .eraseDone     => EraseAwaited cfg f
  | .programDone _ => ProgramAwaited cfg f
  | .eraseIdle     => False
  | .programIdle _ => False
  | .readWord _    => False
  | .jumpMsp       => False
  | .jumpEntry     => False

/-- The invariant of the machine: every step keeps it. -/
structure Inv (s : State) : Prop where
  /-- The configuration meets R9. -/
  cfg_ok      : cfgWf s.cfg = true
  /-- No model fault has been raised (R39). -/
  not_faulted : s.faulted = false
  /-- Memory is in its canonical form. -/
  mem_wf      : Memory.wf s.cfg s.mem
  /-- The buffer has its capacity (R32). -/
  buf_cap     : s.buf.length = s.cfg.rxCap
  /-- The FMC's reserved and unused bits (R45, R46, R233). -/
  reserved    : FmcReservedZero s.fmc
  /-- Outside a running handler the FMC is at rest (R247); inside one it is as the position says. -/
  held        : HeldProperly s.cfg s.fmc s.pos
  /-- Only a running handler has a position past its start (R50). -/
  pos_start   : s.phase ≠ .dispatched → s.pos = .start
  /-- A packet that stands received fits the buffer (R102). -/
  fits        : s.phase = .payloadReceived → s.dp.n.toNat < s.cfg.rxCap
  /-- Only the Trampoline disables a peripheral (R37). -/
  periph_on   : s.phase ≠ .transferred → s.periph = { clocks := true, transport := true, checksum := true }

/-- Two states with the same phase, memory, FMC, port, events, peripherals and inputs: they may differ in what a cycle leaves in
`buf`, `dp` and `crc_reg` (R163). -/
abbrev SameOutside (s t : State) : Prop := { t with buf := s.buf, dp := s.dp, crcReg := s.crcReg } = s

/-- An event without its record of whether a send succeeded. -/
def asSent : Event → Event
  | .sent bs => .sent bs
  | .sentFailed bs => .sent bs
  | .debugOut bs => .debugOut bs
  | .deinit unit => .deinit unit
  | .transfer msp target => .transfer msp target
  | .cycleEnd result cause => .cycleEnd result cause

/-- Two states that differ at most in what the host received, in the choices left for the sends, and in whether an event records a send as
failed: the bytes each send carried, every other event, and their order are the same (R14, R162). -/
abbrev SameButWire (s t : State) : Prop :=
  { t with host := { t.host with out := s.host.out }, events := s.events, env := { t.env with sends := s.env.sends } } = s ∧
  t.events.map asSent = s.events.map asSent

/-- Two outcomes of one kind: next states that `R` relates, or faults with the same reason, or the same refusal. -/
def OutcomesAgree (R : State → State → Prop) :
    Host.Outcome State Fault Refusal → Host.Outcome State Fault Refusal → Prop
  | .next s, .next t => R s t
  | .fault f, .fault g => faultCode f = faultCode g
  | .refused a, .refused b => a = b
  | .next _, .fault _ => False
  | .next _, .refused _ => False
  | .fault _, .next _ => False
  | .fault _, .refused _ => False
  | .refused _, .next _ => False
  | .refused _, .fault _ => False

/-- A state in which an agent may take a step: not faulted (R39), and control not transferred (R203, R352). -/
abbrev Live (s : State) : Prop := s.faulted = false ∧ s.phase ≠ .transferred

/-- One move of a run: a step of an agent, which none takes once the run has ended (R39, R352), or a reset, which is an event outside the
block and can come in any state (R330). The agents are the controller, the FMC, with its completion step (R238) or a completion settled
beforehand, and the host (R7). A power cycle inside a step needs a state in which that step is taken. -/
inductive Move : State → State → Prop
  | step {s t : State} (hl : Live s) (h : Machine.step s = .next t) : Move s t
  | hostSends {s : State} (hl : Live s) (bs : List Byte) : Move s (hostSends bs s)
  | hostChoosesRecv {s : State} (hl : Live s) (d : RecvDraw) : Move s (hostChoosesRecv d s)
  | hostChoosesSend {s : State} (hl : Live s) (d : SendDraw) : Move s (hostChoosesSend d s)
  | fmcWillComplete {s : State} (hl : Live s) (draw : Word) : Move s (fmcWillComplete draw s)
  | fmcCompletes {s : State} (hl : Live s) (ho : s.fmc.op ≠ .noOp) (draw : Word) : Move s (fmcComplete draw s)
  | powerCycle (s : State) : Move s (powerCycle s)
  | powerCycleInside {s : State} (hl : Live s) (ds : List SendDraw) (j m : Nat) (early : Bool) :
      Move s (powerCycleInside ds j m early s)

/-- The states a run from reset reaches. -/
inductive Reachable (cfg : Cfg) (flash : Memory) : State → Prop
  | reset : Reachable cfg flash (State.resetWith cfg flash)
  | move {s t : State} (h : Reachable cfg flash s) (m : Move s t) : Reachable cfg flash t

/-- A safe run answers a next state: no fault and no refusal. -/
def StepSafe (s : State) : Prop := ∃ t, Machine.step s = .next t

end Sys2Proof.Safety
end

