-- ==== Sys2Proof/Certificates/Slice0/Obligations.lean ====
section
/-! DEFINITION. The statements for the provers, from the numbered rules of spec/.

Where a statement speaks of `env.recvs`, `env.sends` and `env.completions`, it speaks of the draws of R17 in the model's own form,
lists in State (DESIGN CHOICE, logs 4, 5 and 6). -/

open Sys2Proof Sys2Proof.Machine Sys2Proof.Safety

/-! ## Encoding (30_encoding.md) -/

/-- R104, R120: the decoder reads the nominal packet of every well-formed command back, with every operand, whatever bytes follow. -/
def Obligations.DecodeEncodeRoundTrip : Prop :=
  ∀ (cfg : Cfg) (i : Instr) (rest : List Byte), cfgWf cfg = true → i.wf cfg = true →
    decode cfg (encode cfg i ++ rest) = .ok i

/-- R120, R134: the packet an encoder builds passes the integrity check once it stands in the receive buffer. -/
def Obligations.EncodedPacketPassesTheCheck : Prop :=
  ∀ (s : State) (i : Instr), cfgWf s.cfg = true → i.wf s.cfg = true →
    (placePacket (encode s.cfg i) s).checksumOk = true

/-- The packets spec/95_test_vectors.md writes out byte by byte decode to the commands they stand for, and pass the integrity check once
they stand in the receive buffer. -/
def Obligations.WrittenOutPacketsDecode : Prop :=
  let checked := fun p : List Byte => (placePacket p State.reset).checksumOk = true
  decode cfg0 [0x05#8, 0x10#8, 0xAF#8, 0xF7#8, 0x24#8, 0xAF#8] = .ok .getVersion ∧
  decode cfg0 [0x05#8, 0x14#8, 0xD3#8, 0x02#8, 0x68#8, 0xAA#8] = .ok .jumpApp ∧
  decode cfg0 [0x09#8, 0x15#8, 0x20#8, 0x00#8, 0x01#8, 0x00#8, 0x02#8, 0x0D#8, 0x0C#8, 0xA0#8] = .ok (.jumpAddr 0x20000100#32) ∧
  decode cfg0 [0x05#8, 0x16#8, 0x6F#8, 0x18#8, 0x40#8, 0x73#8] = .ok .erase ∧
  decode cfg0 [0x0D#8, 0x17#8, 0x08#8, 0x00#8, 0x80#8, 0x00#8, 0xDE#8, 0xAD#8, 0xBE#8, 0xEF#8, 0x9F#8, 0x34#8, 0x25#8, 0x7F#8] =
    .ok (.write 0x08008000#32 [0xDE#8, 0xAD#8, 0xBE#8, 0xEF#8]) ∧
  decode cfg0 [0x0A#8, 0x18#8, 0x08#8, 0x00#8, 0x80#8, 0x00#8, 0x01#8, 0x2E#8, 0x30#8, 0xCF#8, 0x4C#8] =
    .ok (.read 0x08008000#32 0x01#8) ∧
  checked [0x05#8, 0x10#8, 0xAF#8, 0xF7#8, 0x24#8, 0xAF#8] ∧
  checked [0x05#8, 0x14#8, 0xD3#8, 0x02#8, 0x68#8, 0xAA#8] ∧
  checked [0x09#8, 0x15#8, 0x20#8, 0x00#8, 0x01#8, 0x00#8, 0x02#8, 0x0D#8, 0x0C#8, 0xA0#8] ∧
  checked [0x05#8, 0x16#8, 0x6F#8, 0x18#8, 0x40#8, 0x73#8] ∧
  checked [0x0D#8, 0x17#8, 0x08#8, 0x00#8, 0x80#8, 0x00#8, 0xDE#8, 0xAD#8, 0xBE#8, 0xEF#8, 0x9F#8, 0x34#8, 0x25#8, 0x7F#8] ∧
  checked [0x0A#8, 0x18#8, 0x08#8, 0x00#8, 0x80#8, 0x00#8, 0x01#8, 0x2E#8, 0x30#8, 0xCF#8, 0x4C#8]

/-- R114: the opcode is `buf[1]`, and it alone selects the command: for a legal length, a byte of the opcode map gives the command whose
opcode it is, whatever else the packet holds, and any other byte is unrecognised. -/
def Obligations.OpcodeByteAloneSelects : Prop :=
  ∀ (cfg : Cfg) (n : Byte) (buf : List Byte), 5 ≤ n.toNat → n.toNat < cfg.rxCap →
    (∀ i, decodeBuf cfg n buf = .ok i → opcodeOf cfg i = bufByte cfg buf 1) ∧
    (bufByte cfg buf 1 ∈ opcodes cfg → ∃ i, decodeBuf cfg n buf = .ok i) ∧
    (bufByte cfg buf 1 ∉ opcodes cfg → decodeBuf cfg n buf = .error (.unrecognizedOpcode (bufByte cfg buf 1)))

/-- R109 (and R108, R110, R111 for the data and the count): the operands of WRITE, READ and JUMP_ADDR come from fixed offsets of the
buffer, whatever the length is. -/
def Obligations.OperandsStandAtFixedOffsets : Prop :=
  ∀ (cfg : Cfg) (n : Byte) (buf : List Byte), cfgWf cfg = true → 5 ≤ n.toNat → n.toNat < cfg.rxCap →
    let b := bufByte cfg buf
    let addr : Word := (b 2).setWidth 32 <<< 24 ||| (b 3).setWidth 32 <<< 16 ||| (b 4).setWidth 32 <<< 8 ||| (b 5).setWidth 32
    (b 1 = cfg.opcJumpAddr → decodeBuf cfg n buf = .ok (.jumpAddr addr)) ∧
    (b 1 = cfg.opcRead → decodeBuf cfg n buf = .ok (.read addr (b 6))) ∧
    (b 1 = cfg.opcWrite → ∃ data : List Byte, decodeBuf cfg n buf = .ok (.write addr data) ∧
      data.length = n.toNat - 9 ∧ ∀ j, j < n.toNat - 9 → data[j]? = some (b (6 + j)))

/-! ## Checksum Engine (40_checksum.md) -/

/-- R135: the checksum is the standard 8-round CRC, with the polynomial 0x04C11DB7 and the byte in the high lane, of the bytes with three
zero bytes after each. -/
def Obligations.ChecksumIsMpeg2OfStuffedBytes : Prop :=
  let round := fun r : Word => if r.getLsbD 31 = true then (r <<< 1) ^^^ 0x04C11DB7#32 else r <<< 1
  let feed := fun (r : Word) (b : Byte) =>
    round (round (round (round (round (round (round (round (r ^^^ (b.setWidth 32 <<< 24)))))))))
  ∀ bs : List Byte, checksum .high bs = (bs.flatMap fun b => [b, 0#8, 0#8, 0#8]).foldl feed 0xFFFFFFFF#32

/-- R136: in a packet that passes the check, flipping any one bit after the length byte makes the check fail. -/
def Obligations.SingleBitErrorsAreDetected : Prop :=
  ∀ (s : State) (k j : Nat), s.checksumOk = true → 5 ≤ s.dp.n.toNat → s.dp.n.toNat < s.buf.length →
    1 ≤ k → k ≤ s.dp.n.toNat → j < 8 →
    ({ s with buf := s.buf.set k (bufByte s.cfg s.buf k ^^^ (1#8 <<< j)) } : State).checksumOk = false

/-- R303: on a bad checksum WRITE and READ send `EE` first and the seven other commands send nothing; then the cycle aborts, and
nothing else changes but `crc_reg`. -/
def Obligations.BadChecksumAborts : Prop :=
  ∀ (i : Instr) (s : State), s.checksumOk = false →
    (nacks i = false →
      exec i s = .next { s with
        phase := .idle, pos := .start, crcReg := packetChecksum s.cfg s.dp.n.toNat s.buf,
        events := s.events ++ [.cycleEnd .notOk .checksumMismatch] }) ∧
    (nacks i = true → ∀ ds, s.env.sends = .success :: ds →
      exec i s = .next { s with
        phase := .idle, pos := .start, crcReg := packetChecksum s.cfg s.dp.n.toNat s.buf,
        host := { s.host with out := s.host.out ++ [0xEE#8] },
        events := s.events ++ [.sent [0xEE#8], .cycleEnd .notOk .checksumMismatch],
        env := { s.env with sends := ds } })

/-! ## Packet Framer and Command Dispatcher (41_framer_dispatch.md) -/

/-- R156: a received packet that decodes to a command is run by the next step: `dp.op` and the phase are set, and the command's handler
runs. -/
def Obligations.StepRunsTheDecodedCommand : Prop :=
  ∀ (s : State) (i : Instr), s.faulted = false → cfgWf s.cfg = true → s.phase = .payloadReceived →
    decodeBuf s.cfg s.dp.n s.buf = .ok i →
    step s = exec i { s with
      dp := { s.dp with op := bufByte s.cfg s.buf 1 }, phase := .dispatched, pos := .start }

/-- R164: a command's packet at the front of `host.in` is received in two steps and run by the third, its bytes taken, with a checksum
that passes. The cut into these three steps is the model's (log 2). -/
def Obligations.PacketFromTheHostRuns : Prop :=
  ∀ (s : State) (i : Instr) (rest : List Byte), s.faulted = false → cfgWf s.cfg = true → i.wf s.cfg = true →
    s.phase = .idle → s.pos = .start → s.env.recvs = [] → s.host.inp = encode s.cfg i ++ rest →
    ∃ s₁ s₂, step s = .next s₁ ∧ step s₁ = .next s₂ ∧
      let n := BitVec.ofNat 8 i.nominalN
      let u : State := { s with
        phase := .dispatched, buf := receivedBuf s.cfg n ((encode s.cfg i).drop 1),
        dp := { s.dp with n := n, op := opcodeOf s.cfg i }, host := { s.host with inp := rest } }
      step s₂ = exec i u ∧ u.checksumOk = true

/-- R151: the length byte. It goes to `buf[0]` of a cleared buffer and to `dp.N`; a failed reception aborts and sends nothing. -/
def Obligations.LengthByteReception : Prop :=
  ∀ s : State, s.faulted = false → cfgWf s.cfg = true → s.phase = .idle →
    (∀ n rest, s.host.inp = n :: rest → (∀ k r, s.env.recvs ≠ .fail k :: r) →
      step s = .next { s with
        phase := .lengthReceived, buf := n :: List.replicate (s.cfg.rxCap - 1) s.cfg.rxSentinel,
        dp := { s.dp with n := n }, host := { s.host with inp := rest },
        env := { s.env with recvs := s.env.recvs.tail } }) ∧
    (∀ k r, s.env.recvs = .fail k :: r →
      step s = .next { s with
        phase := .idle, pos := .start, buf := List.replicate s.cfg.rxCap s.cfg.rxSentinel,
        host := { s.host with inp := s.host.inp.drop (min k 1) },
        events := s.events ++ [.cycleEnd .notOk .transportFailure], env := { s.env with recvs := r } })

/-- R154: the body. It goes to `buf[1 .. N]`, the rest of the buffer stays; a failed reception aborts and sends nothing. -/
def Obligations.BodyReception : Prop :=
  ∀ s : State, s.faulted = false → cfgWf s.cfg = true → s.phase = .lengthReceived → s.buf.length = s.cfg.rxCap →
    s.dp.n.toNat < s.cfg.rxCap →
    (s.dp.n.toNat ≤ s.host.inp.length → (∀ k r, s.env.recvs ≠ .fail k :: r) →
      ∃ t, step s = .next t ∧
        t = { s with
          phase := .payloadReceived, buf := t.buf, host := { s.host with inp := s.host.inp.drop s.dp.n.toNat },
          env := { s.env with recvs := if s.dp.n.toNat = 0 then s.env.recvs else s.env.recvs.tail } } ∧
        t.buf.length = s.cfg.rxCap ∧
        (∀ k, 1 ≤ k → k ≤ s.dp.n.toNat → t.buf[k]? = s.host.inp[k - 1]?) ∧
        (∀ k, k = 0 ∨ s.dp.n.toNat < k → t.buf[k]? = s.buf[k]?)) ∧
    (∀ k r, s.dp.n.toNat ≠ 0 → s.env.recvs = .fail k :: r →
      step s = .next { s with
        phase := .idle, pos := .start, host := { s.host with inp := s.host.inp.drop (min k s.dp.n.toNat) },
        events := s.events ++ [.cycleEnd .notOk .transportFailure], env := { s.env with recvs := r } })

/-- R152: an oversize body is received and discarded, `buf` as it was, and then the cycle aborts with PROTOCOL_VIOLATION; a failure of
that reception is TRANSPORT_FAILURE instead. -/
def Obligations.OversizeBodyIsDiscarded : Prop :=
  ∀ s : State, s.faulted = false → cfgWf s.cfg = true → s.phase = .lengthReceived → s.cfg.rxCap - 1 < s.dp.n.toNat →
    (s.dp.n.toNat ≤ s.host.inp.length → (∀ k r, s.env.recvs ≠ .fail k :: r) →
      step s = .next { s with
        phase := .idle, pos := .start, host := { s.host with inp := s.host.inp.drop s.dp.n.toNat },
        events := s.events ++ [.cycleEnd .notOk .protocolViolation], env := { s.env with recvs := s.env.recvs.tail } }) ∧
    (∀ k r, s.env.recvs = .fail k :: r →
      step s = .next { s with
        phase := .idle, pos := .start, host := { s.host with inp := s.host.inp.drop (min k s.dp.n.toNat) },
        events := s.events ++ [.cycleEnd .notOk .transportFailure], env := { s.env with recvs := r } })

/-- R153: a packet with `N < 5` aborts with PROTOCOL_VIOLATION, sending nothing, reading no opcode and computing no checksum. -/
def Obligations.UndersizePacketAborts : Prop :=
  ∀ s : State, s.faulted = false → cfgWf s.cfg = true → s.phase = .payloadReceived → s.dp.n.toNat < 5 →
    step s = .next { s with
      phase := .idle, pos := .start, events := s.events ++ [.cycleEnd .notOk .protocolViolation] }

/-- R157: an opcode that matches no `OPC_*` value aborts with UNRECOGNIZED_OPCODE, sending nothing and computing no checksum. -/
def Obligations.UnrecognizedOpcodeAborts : Prop :=
  ∀ s : State, s.faulted = false → cfgWf s.cfg = true → s.phase = .payloadReceived →
    5 ≤ s.dp.n.toNat → s.dp.n.toNat ≤ s.cfg.rxCap - 1 → bufByte s.cfg s.buf 1 ∉ opcodes s.cfg →
    step s = .next { s with
      phase := .idle, pos := .start, dp := { s.dp with op := bufByte s.cfg s.buf 1 },
      events := s.events ++ [.cycleEnd .notOk .unrecognizedOpcode] }

/-- R350, R352: with no byte pending and no failure chosen, IDLE holds: the cleared state steps to itself. That a hold is a step which
changes nothing is the model's choice (log 2). -/
def Obligations.IdleWithoutInputHolds : Prop :=
  ∀ s : State, s.faulted = false → cfgWf s.cfg = true → s.phase = .idle → s.host.inp = [] → s.env.recvs = [] →
    let t : State := { s with buf := List.replicate s.cfg.rxCap s.cfg.rxSentinel }
    step s = .next t ∧ step t = .next t

/-- R39, R203, R352: once the state is faulted or control has been transferred no agent takes a step, so that nothing but a power cycle
moves it on. That the controller's step is a fault in the one case and leaves the state as it is in the other is the model's choice
(logs 13 and 14), and that a power cycle ends a fault is its reading (DEDUCED, log 18). -/
def Obligations.EndedRunsTakeNoStep : Prop :=
  ∀ s : State,
    (s.faulted = true → step s = .fault (.halted s)) ∧
    (s.faulted = false → cfgWf s.cfg = true → s.phase = .transferred → step s = .next s) ∧
    (s.faulted = true ∨ s.phase = .transferred → ∀ t, Move s t → t = powerCycle s)

/-- R163: the protocol keeps no state across cycles. Two machines in IDLE that differ only in what earlier cycles left in `buf`, `dp` and
`crc_reg` go on alike for ever: after any number of steps they agree on everything else. -/
def Obligations.CyclesKeepNoProtocolState : Prop :=
  ∀ (s t : State) (k : Nat), s.phase = .idle → SameOutside s t →
    OutcomesAgree SameOutside (Sys2Proof.core.run k s) (Sys2Proof.core.run k t)

/-- R162: under IGNORE the host's choices for the sends change no path: with other choices (as many as before) a command ends in the
same state, but for what the host received and the choices left; it leaves the same events in the same order, the cycle's end with its
result and cause among them, but for whether a send is recorded as failed. -/
def Obligations.FailedSendsChangeNoPath : Prop :=
  ∀ (i : Instr) (s : State) (ds : List SendDraw), s.cfg.sendFailPolicy = .ignore → ds.length = s.env.sends.length →
    OutcomesAgree SameButWire (exec i s) (exec i { s with env := { s.env with sends := ds } })

/-- R307: under ABORT a failed `Send` ends the cycle with TRANSPORT_FAILURE and leaves the rest of the handler undone, shown for the first
`Send` of every command's good path, its ACK: the host holds a prefix of it (R14), and memory and the FMC are as before. -/
def Obligations.FailedSendUnderAbortEndsTheCycle : Prop :=
  ∀ (i : Instr) (s : State) (k : Nat) (ds : List SendDraw), s.cfg.sendFailPolicy = .abort → s.checksumOk = true →
    reachesAck s.cfg i → s.env.sends = .failure k :: ds →
    let ack := [0xDD#8, ackLength s.cfg i]
    ∃ t, exec i s = .next t ∧ t = { s with
      phase := .idle, pos := .start, crcReg := packetChecksum s.cfg s.dp.n.toNat s.buf,
      dp := { s.dp with addr := t.dp.addr, count := t.dp.count }, host := { s.host with out := s.host.out ++ ack.take k },
      events := s.events ++ [.sentFailed ack, .cycleEnd .notOk .transportFailure], env := { s.env with sends := ds } }

/-! ## Information commands (42_info_commands.md) -/

/-- R180, R181: GET_VERSION answers `DD 04` and the four version bytes, vendor first. -/
def Obligations.GetVersionReplies : Prop :=
  ∀ (s : State) (ds : List SendDraw), s.checksumOk = true → s.env.sends = .success :: .success :: ds →
    exec .getVersion s = .next { s with
      phase := .idle, pos := .start, crcReg := packetChecksum s.cfg s.dp.n.toNat s.buf,
      host := { s.host with
        out := s.host.out ++ [0xDD#8, 0x04#8, s.cfg.vendorId, s.cfg.verMajor, s.cfg.verMinor, s.cfg.verPatch] },
      events := s.events ++ [.sent [0xDD#8, 0x04#8],
        .sent [s.cfg.vendorId, s.cfg.verMajor, s.cfg.verMinor, s.cfg.verPatch], .cycleEnd .ok .none],
      env := { s.env with sends := ds } }

/-- R182: GET_HELP answers `DD`, the list's length, and the list. -/
def Obligations.GetHelpReplies : Prop :=
  ∀ (s : State) (ds : List SendDraw), s.checksumOk = true → s.env.sends = .success :: .success :: ds →
    exec .getHelp s = .next { s with
      phase := .idle, pos := .start, crcReg := packetChecksum s.cfg s.dp.n.toNat s.buf,
      host := { s.host with
        out := s.host.out ++ 0xDD#8 :: BitVec.ofNat 8 s.cfg.helpList.length :: s.cfg.helpList },
      events := s.events ++ [.sent [0xDD#8, BitVec.ofNat 8 s.cfg.helpList.length], .sent s.cfg.helpList, .cycleEnd .ok .none],
      env := { s.env with sends := ds } }

/-- R184: GET_CID answers `DD 02` and the chip identifier, low byte first; the high byte's bits 7..4 are 0. -/
def Obligations.GetCidReplies : Prop :=
  ∀ (s : State) (ds : List SendDraw), s.checksumOk = true → s.env.sends = .success :: .success :: ds →
    ∃ hi : Byte, hi.toNat = s.cfg.chipId.toNat / 256 % 16 ∧
    exec .getCid s = .next { s with
      phase := .idle, pos := .start, crcReg := packetChecksum s.cfg s.dp.n.toNat s.buf,
      host := { s.host with out := s.host.out ++ [0xDD#8, 0x02#8, BitVec.ofNat 8 s.cfg.chipId.toNat, hi] },
      events := s.events ++ [.sent [0xDD#8, 0x02#8], .sent [BitVec.ofNat 8 s.cfg.chipId.toNat, hi], .cycleEnd .ok .none],
      env := { s.env with sends := ds } }

/-- R186: GET_RDP answers `DD 01` and the protection byte, raw. -/
def Obligations.GetRdpReplies : Prop :=
  ∀ (s : State) (ds : List SendDraw), s.checksumOk = true → s.env.sends = .success :: .success :: ds →
    exec .getRdp s = .next { s with
      phase := .idle, pos := .start, crcReg := packetChecksum s.cfg s.dp.n.toNat s.buf,
      host := { s.host with out := s.host.out ++ [0xDD#8, 0x01#8, s.cfg.rdpByte] },
      events := s.events ++ [.sent [0xDD#8, 0x01#8], .sent [s.cfg.rdpByte], .cycleEnd .ok .none],
      env := { s.env with sends := ds } }

/-! ## Control transfer (43_control_transfer.md) -/

/-- R200, R202, R203: JUMP_APP acknowledges, reads the two words at `APP_BASE`, switches the three peripherals off in their order, and
hands both words over unchanged. -/
def Obligations.JumpAppTransfers : Prop :=
  ∀ (s : State) (ds : List SendDraw), cfgWf s.cfg = true → s.checksumOk = true → s.fmc.op = .noOp →
    s.env.sends = .success :: ds →
    exec .jumpApp s = .next { s with
      phase := .transferred, pos := .start, crcReg := packetChecksum s.cfg s.dp.n.toNat s.buf,
      dp := { s.dp with msp := s.wordAt s.cfg.appBase, w := s.wordAt (s.cfg.appBase + 4#32) },
      periph := { clocks := false, transport := false, checksum := false },
      host := { s.host with out := s.host.out ++ [0xDD#8, 0x00#8] },
      events := s.events ++ [.sent [0xDD#8, 0x00#8], .deinit .clocks, .deinit .transport, .deinit .checksum,
        .transfer (some (s.wordAt s.cfg.appBase)) (s.wordAt (s.cfg.appBase + 4#32))],
      env := { s.env with sends := ds } }

/-- R205, R206: JUMP_ADDR acknowledges first; an address in a window, aligned or not, becomes a transfer to `addr | 1` without a stack
pointer; any other aborts with INVALID_ADDRESS and sends nothing more. No peripheral is switched off. -/
def Obligations.JumpAddrTransfersOrAborts : Prop :=
  ∀ (s : State) (addr : Word) (ds : List SendDraw), s.checksumOk = true → s.env.sends = .success :: ds →
    let acked : State := { s with
      crcReg := packetChecksum s.cfg s.dp.n.toNat s.buf, dp := { s.dp with addr := addr }, pos := .start,
      host := { s.host with out := s.host.out ++ [0xDD#8, 0x00#8] }, env := { s.env with sends := ds } }
    (classify s.cfg addr ≠ .invalid → exec (.jumpAddr addr) s = .next { acked with
      phase := .transferred, events := s.events ++ [.sent [0xDD#8, 0x00#8], .transfer none (addr ||| 1#32)] }) ∧
    (classify s.cfg addr = .invalid → exec (.jumpAddr addr) s = .next { acked with
      phase := .idle, events := s.events ++ [.sent [0xDD#8, 0x00#8], .cycleEnd .notOk .invalidAddress] })

/-! ## Memory (20_memory.md) -/

/-- R71: the Address Validator: two half-open windows, compared as unsigned values. -/
def Obligations.ClassifyIsTheTwoWindows : Prop :=
  ∀ (cfg : Cfg) (a : Word), cfgWf cfg = true →
    (classify cfg a = .ramValid ↔ cfg.ramBase.toNat ≤ a.toNat ∧ a.toNat < cfg.ramEnd.toNat) ∧
    (classify cfg a = .flashValid ↔ cfg.flashBase.toNat ≤ a.toNat ∧ a.toNat < cfg.flashEnd.toNat) ∧
    (classify cfg a = .invalid ↔ ¬ (cfg.ramBase.toNat ≤ a.toNat ∧ a.toNat < cfg.ramEnd.toNat) ∧
      ¬ (cfg.flashBase.toNat ≤ a.toNat ∧ a.toNat < cfg.flashEnd.toNat))

/-- R75: a RAM store, at a multiple of 4 as R15 requires, changes the word it names, at once, and nothing else: no other byte, and nothing
of the FMC. -/
def Obligations.RamStoreIsImmediate : Prop :=
  ∀ (s : State) (a v : Word), a.toNat % 4 = 0 → classify s.cfg a = .ramValid →
    ∃ t, memWrite a v s = .go () t ∧ t = { s with mem := t.mem } ∧ t.wordAt a = v ∧
      ∀ x : Nat, x < a.toNat ∨ a.toNat + 4 ≤ x → t.byteAt x = s.byteAt x

/-- R77: an access outside both windows is the model fault UNMAPPED_ACCESS, with the state marked faulted. -/
def Obligations.UnmappedAccessFaults : Prop :=
  ∀ (s : State) (pos : Pos) (a v : Word), classify s.cfg a = .invalid →
    memRead pos a s = .fault (.unmappedAccess { s with faulted := true }) ∧
    memWrite a v s = .fault (.unmappedAccess { s with faulted := true })

/-- R285: a READ, WRITE or JUMP_ADDR whose address fails its check leaves memory and the FMC unchanged. -/
def Obligations.InvalidAddressTouchesNoHardware : Prop :=
  ∀ (i : Instr) (s t : State),
    (∃ a, i = .jumpAddr a ∧ classify s.cfg a = .invalid) ∨
    (∃ a, ((∃ c, i = .read a c) ∨ ∃ d, i = .write a d) ∧ (classify s.cfg a = .invalid ∨ a.toNat % 4 ≠ 0)) →
    exec i s = .next t → t.mem = s.mem ∧ t.fmc = s.fmc

/-! ## Flash memory controller (44_flash_controller.md) -/

/-- R221, R223: the lock state machine, row by row, and the fault of a key write while unlocked. -/
def Obligations.KeyWritesMoveTheLock : Prop :=
  ∀ (s : State) (v : Word),
    let moved := fun l : LockState => (Flow.go () { s with fmc := { s.fmc with lockst := l } } : Flow Unit)
    (s.fmc.lockst = .lockedK1 → v = s.cfg.key1 → writeKeyr v s = moved .lockedK2) ∧
    (s.fmc.lockst = .lockedK1 → v ≠ s.cfg.key1 → writeKeyr v s = moved .lockedHard) ∧
    (s.fmc.lockst = .lockedK2 → v = s.cfg.key2 → writeKeyr v s = moved .unlocked) ∧
    (s.fmc.lockst = .lockedK2 → v ≠ s.cfg.key2 → writeKeyr v s = moved .lockedHard) ∧
    (s.fmc.lockst = .lockedHard → writeKeyr v s = moved .lockedHard) ∧
    (s.fmc.lockst = .unlocked → writeKeyr v s = .fault (.undefinedFmcAccess { s with faulted := true }))

/-- R224, R225: a `CR` write while locked (and idle) has the effect of its LOCK bit alone, which moves LOCKED_K2 to LOCKED_K1. -/
def Obligations.CrWriteWhileLocked : Prop :=
  ∀ (s : State) (v : Word), s.fmc.op = .noOp → s.fmc.lockst ≠ .unlocked →
    writeCr v s = .go () { s with fmc := { s.fmc with
      lockst := if v.getLsbD 31 = true ∧ s.fmc.lockst = .lockedK2 then .lockedK1 else s.fmc.lockst } }

/-- R226, R231: while unlocked and idle a `CR` write without STRT is read back in every field that is read/write, with LOCK as the
lock then is; a write while BSY is a model fault, while locked too (the model's choice between R225 and R226, log 19). -/
def Obligations.CrWriteWhileUnlocked : Prop :=
  ∀ (s : State) (v : Word),
    (s.fmc.op = .noOp → s.fmc.lockst = .unlocked → v.getLsbD 16 = false →
      ∃ f : Fmc, writeCr v s = .go () { s with fmc := f } ∧
        f.op = .noOp ∧ f.sr = s.fmc.sr ∧
        f.lockst = (if v.getLsbD 31 = true then .lockedK1 else .unlocked) ∧
        f.readCr = v &&& 0x8300037F#32) ∧
    (s.fmc.op ≠ .noOp → writeCr v s = .fault (.undefinedFmcAccess { s with faulted := true }))

/-- R227: STRT with SER alone set starts the erase of sector SNB, flags a protected sector, or faults for a sector that does not exist; with
any other of SER, PG and MER it faults. That a write with bits 16 and 31 both 1 does this and locks as well is the model's reading
(DEDUCED, log 32). -/
def Obligations.StrtStartsTheErase : Prop :=
  ∀ (s : State) (v : Word), s.fmc.op = .noOp → s.fmc.lockst = .unlocked → v.getLsbD 16 = true →
    let n := v.toNat / 8 % 16
    let f : Fmc := { s.fmc with
      cr := v &&& 0x0300037F#32, lockst := if v.getLsbD 31 = true then .lockedK1 else .unlocked }
    let erases := v.getLsbD 1 = true ∧ v.getLsbD 0 = false ∧ v.getLsbD 2 = false
    (erases → n < s.cfg.numSectors → n ∉ s.cfg.wrpProtected →
      writeCr v s = .go () { s with fmc := { f with op := .erase n } }) ∧
    (erases → n < s.cfg.numSectors → n ∈ s.cfg.wrpProtected →
      writeCr v s = .go () { s with fmc := { f with sr := s.fmc.sr ||| 0x10#32 } }) ∧
    (¬ erases ∨ s.cfg.numSectors ≤ n →
      writeCr v s = .fault (.undefinedFmcAccess { s with fmc := f, faulted := true }))

/-- R228: a bus write to a flash address, a multiple of 4 as R15 requires, row by row, in the order of the rows. The last two rows go by the sector that holds the address:
there is one, and it is the only one (R9, R85). -/
def Obligations.FlashBusWrite : Prop :=
  ∀ (s : State) (a v : Word), cfgWf s.cfg = true → a.toNat % 4 = 0 → classify s.cfg a = .flashValid →
    let holds := fun (n : Nat) (x : Sector) =>
      s.cfg.sectors[n]? = some x ∧ x.base.toNat ≤ a.toNat ∧ a.toNat < x.base.toNat + x.size
    let barred := s.fmc.cr.getLsbD 0 = false ∨ s.fmc.lockst ≠ .unlocked ∨ s.fmc.cr.getLsbD 1 = true
    let wide := s.fmc.cr.toNat / 256 % 4 = 2
    (barred → memWrite a v s = .go () { s with fmc := { s.fmc with sr := s.fmc.sr ||| 0x80#32 } }) ∧
    (¬ barred → ¬ wide → memWrite a v s = .go () { s with fmc := { s.fmc with sr := s.fmc.sr ||| 0x40#32 } }) ∧
    (¬ barred → wide → s.fmc.op ≠ .noOp → memWrite a v s = .fault (.undefinedFmcAccess { s with faulted := true })) ∧
    (∃ n x, holds n x ∧ ∀ m y, holds m y → m = n) ∧
    (∀ n x, ¬ barred → wide → s.fmc.op = .noOp → holds n x → n ∈ s.cfg.wrpProtected →
      memWrite a v s = .go () { s with fmc := { s.fmc with sr := s.fmc.sr ||| 0x10#32 } }) ∧
    (∀ n x, ¬ barred → wide → s.fmc.op = .noOp → holds n x → n ∉ s.cfg.wrpProtected →
      memWrite a v s = .go () { s with fmc := { s.fmc with op := .program a v } })

/-- R229, R230: writing `SR` clears EOP and the error flags written as 1 and nothing else; BSY reads as before. -/
def Obligations.SrWriteClearsWhatIsWrittenOne : Prop :=
  ∀ (f : Fmc) (v : Word) (k : Nat), k < 32 →
    (f.writeSr v).readSr.getLsbD k =
      (f.readSr.getLsbD k && !((k == 0 || k == 1 || k == 4 || k == 5 || k == 6 || k == 7 || k == 8) && v.getLsbD k)) ∧
    (f.writeSr v).readSr.getLsbD 16 = f.busy

/-- R238: a completed erase leaves every byte of the sector all ones when the status is OK; whatever the status, it touches nothing
outside the sector, it adds the drawn error flags to `SR`, and nothing is in flight any more. -/
def Obligations.CompletedErase : Prop :=
  ∀ (s : State) (d : Word) (n : Nat) (x : Sector), cfgWf s.cfg = true → s.fmc.op = .erase n → s.cfg.sectors[n]? = some x →
    let t := fmcComplete d s
    (DrawOk d → ∀ a : Nat, x.base.toNat ≤ a → a < x.base.toNat + x.size → t.byteAt a = 0xFF#8) ∧
    (∀ a : Nat, a < x.base.toNat ∨ x.base.toNat + x.size ≤ a → t.byteAt a = s.byteAt a) ∧
    t.fmc = { s.fmc with op := .noOp, sr := s.fmc.sr ||| (d &&& 0x1F2#32) }

/-- R238, R239: a completed program leaves the AND of the old word and the new one under `AND`, the new word on an erased one under
either parameter; whatever the status, it touches no other byte, adds the drawn flags, and nothing is in flight any more. -/
def Obligations.CompletedProgram : Prop :=
  ∀ (s : State) (d a v : Word), s.fmc.op = .program a v →
    let t := fmcComplete d s
    (DrawOk d → s.cfg.programOverwrite = .and → t.wordAt a = s.wordAt a &&& v) ∧
    (DrawOk d → s.wordAt a = 0xFFFFFFFF#32 → t.wordAt a = v) ∧
    (∀ x : Nat, x < a.toNat ∨ a.toNat + 4 ≤ x → t.byteAt x = s.byteAt x) ∧
    t.fmc = { s.fmc with op := .noOp, sr := s.fmc.sr ||| (d &&& 0x1F2#32) }

/-- R240: `WaitIdle` on an idle FMC returns its error flags and clears exactly them; on a busy one without a completion it holds. -/
def Obligations.WaitIdleCollectsAndClears : Prop :=
  ∀ (s : State) (pos : Pos),
    (s.fmc.op = .noOp →
      ∃ t, waitIdle pos s =
          .go (if s.fmc.sr &&& 0x1F2#32 = 0#32 then .ok else .fail .hwError (s.fmc.sr &&& 0x1F2#32)) t ∧
        t = { s with fmc := { s.fmc with sr := s.fmc.sr &&& ~~~0x1F2#32 } }) ∧
    (s.fmc.op ≠ .noOp → s.env.completions = [] → waitIdle pos s = .stop { s with pos := pos })

/-- R242, R222: `Unlock` succeeds from LOCKED_K1 and where it is unlocked already; in LOCKED_HARD it fails and nothing changes. -/
def Obligations.UnlockSucceedsOrFails : Prop :=
  ∀ s : State,
    (s.fmc.lockst = .lockedK1 → unlock s = .go .ok { s with fmc := { s.fmc with lockst := .unlocked } }) ∧
    (s.fmc.lockst = .unlocked → unlock s = .go .ok s) ∧
    (s.fmc.lockst = .lockedHard → unlock s = .go (.fail .unlockFailed 0#32) s)

/-! ## ERASE (45_memory_commands.md) -/

/-- R262, R263, R268: ERASE whose operation completes with OK answers `DD 00` and ends OK; every byte of the application sector is all
ones, every other byte is as before, and the FMC is locked again. -/
def Obligations.EraseClearsTheSector : Prop :=
  ∀ (s : State) (x : Sector) (d : Word) (ds : List SendDraw) (cs : List Word), cfgWf s.cfg = true → s.checksumOk = true →
    FmcReady s.fmc → s.cfg.sectors[s.cfg.appSector]? = some x → s.cfg.appSector ∉ s.cfg.wrpProtected →
    s.env.sends = .success :: ds → s.env.completions = d :: cs → DrawOk d →
    ∃ t, exec .erase s = .next t ∧
      (∀ a : Nat, x.base.toNat ≤ a → a < x.base.toNat + x.size → t.byteAt a = 0xFF#8) ∧
      (∀ a : Nat, a < x.base.toNat ∨ x.base.toNat + x.size ≤ a → t.byteAt a = s.byteAt a) ∧
      t = { s with
        phase := .idle, pos := .start, crcReg := packetChecksum s.cfg s.dp.n.toNat s.buf, dp := { s.dp with st := .ok },
        mem := t.mem, fmc := fmcAfterSequence, host := { s.host with out := s.host.out ++ [0xDD#8, 0x00#8] },
        events := s.events ++ [.sent [0xDD#8, 0x00#8], .cycleEnd .ok .none],
        env := { s.env with sends := ds, completions := cs } }

/-- R263, R264: the three ways ERASE fails without starting: no such sector (the FMC is not touched), an FMC in LOCKED_HARD, a protected
sector. Memory is unchanged; the answer is `DD 00` all the same. -/
def Obligations.EraseFailsBeforeStarting : Prop :=
  ∀ (s : State) (ds : List SendDraw), cfgWf s.cfg = true → s.checksumOk = true → s.env.sends = .success :: ds →
    let failed := fun (st : Status) (f : Fmc) => (Host.Outcome.next { s with
      phase := .idle, pos := .start, crcReg := packetChecksum s.cfg s.dp.n.toNat s.buf, dp := { s.dp with st := st }, fmc := f,
      host := { s.host with out := s.host.out ++ [0xDD#8, 0x00#8] },
      events := s.events ++ [.sent [0xDD#8, 0x00#8], .cycleEnd .notOk (.hardwareOperationFailure st)],
      env := { s.env with sends := ds } } : Host.Outcome State Fault Refusal)
    (s.cfg.numSectors ≤ s.cfg.appSector → exec .erase s = failed (.fail .sectorOutOfRange 0#32) s.fmc) ∧
    (s.cfg.appSector < s.cfg.numSectors → FmcAtRest s.fmc → s.fmc.lockst = .lockedHard →
      exec .erase s = failed (.fail .unlockFailed 0#32) s.fmc) ∧
    (s.cfg.appSector < s.cfg.numSectors → FmcReady s.fmc → s.cfg.appSector ∈ s.cfg.wrpProtected →
      exec .erase s = failed (.fail .hwError 0x10#32) fmcAfterSequence)

/-- R263, R268: an erase that completes with error flags ends NOT_OK with exactly those flags, sends nothing after its ACK, leaves every
byte outside the sector as before, and leaves the FMC locked with no flag set. -/
def Obligations.EraseFailsAtCompletion : Prop :=
  ∀ (s : State) (x : Sector) (d : Word) (ds : List SendDraw) (cs : List Word), cfgWf s.cfg = true → s.checksumOk = true →
    FmcReady s.fmc → s.cfg.sectors[s.cfg.appSector]? = some x → s.cfg.appSector ∉ s.cfg.wrpProtected →
    s.env.sends = .success :: ds → s.env.completions = d :: cs → ¬ DrawOk d →
    ∃ t, exec .erase s = .next t ∧
      (∀ a : Nat, a < x.base.toNat ∨ x.base.toNat + x.size ≤ a → t.byteAt a = s.byteAt a) ∧
      t = { s with
        phase := .idle, pos := .start, crcReg := packetChecksum s.cfg s.dp.n.toNat s.buf,
        dp := { s.dp with st := .fail .hwError (d &&& 0x1F2#32) },
        mem := t.mem, fmc := fmcAfterSequence, host := { s.host with out := s.host.out ++ [0xDD#8, 0x00#8] },
        events := s.events ++ [.sent [0xDD#8, 0x00#8],
          .cycleEnd .notOk (.hardwareOperationFailure (.fail .hwError (d &&& 0x1F2#32)))],
        env := { s.env with sends := ds, completions := cs, drawn := t.env.drawn } }

/-- R236, R240, R244, R266, in the model's own cut of a handler into steps (log 2): without a completion ERASE holds with the erase in flight,
and WRITE with the program of its word `k` in flight once the `k` words before it have completed with OK, for as long as none comes. When
it comes, as a listed completion or as the FMC's own step, the held handler ends as it would have ended without the hold. -/
def Obligations.HeldHandlersGoOnWhereTheyStopped : Prop :=
  ∀ (s : State) (d : Word) (ds : List SendDraw), cfgWf s.cfg = true → s.faulted = false → s.phase = .dispatched →
    s.checksumOk = true → FmcReady s.fmc → s.env.sends = .success :: ds →
    (s.cfg.appSector < s.cfg.numSectors → s.cfg.appSector ∉ s.cfg.wrpProtected → s.env.completions = [] →
      ∃ t, exec .erase s = .next t ∧ t.fmc.op = .erase s.cfg.appSector ∧ t.mem = s.mem ∧ step t = .next t ∧
        ∃ u, exec .erase (fmcWillComplete d s) = .next u ∧ step (fmcWillComplete d t) = .next u ∧
          step (fmcComplete d t) = .next u) ∧
    (∀ (a : Word) (data : List Byte) (oks : List Word), a.toNat % 4 = 0 → classify s.cfg a = .flashValid →
      a.toNat + 4 * (data.length / 4) ≤ s.cfg.flashEnd.toNat →
      (∀ i, i < data.length / 4 → Unprotected s.cfg (wordAddr a i)) →
      s.env.completions = oks → oks.length < data.length / 4 → (∀ e ∈ oks, DrawOk e) →
      ∃ t w, exec (.write a data) s = .next t ∧ (dataWords data)[oks.length]? = some w ∧
        t.fmc.op = .program (wordAddr a oks.length) w ∧ step t = .next t ∧
        ∃ u, exec (.write a data) (fmcWillComplete d s) = .next u ∧ step (fmcWillComplete d t) = .next u ∧
          step (fmcComplete d t) = .next u)

/-- R284: two ERASEs in a row under a healthy FMC both end OK and leave the sector all ones. -/
def Obligations.EraseTwiceLeavesTheSectorErased : Prop :=
  ∀ (s : State) (x : Sector) (d₁ d₂ : Word) (ds : List SendDraw) (cs : List Word), cfgWf s.cfg = true → s.checksumOk = true →
    FmcReady s.fmc → s.cfg.sectors[s.cfg.appSector]? = some x → s.cfg.appSector ∉ s.cfg.wrpProtected →
    s.env.sends = .success :: .success :: ds → s.env.completions = d₁ :: d₂ :: cs → DrawOk d₁ → DrawOk d₂ →
    ∃ t u, exec .erase s = .next t ∧ exec .erase t = .next u ∧
      (∀ a : Nat, x.base.toNat ≤ a → a < x.base.toNat + x.size → t.byteAt a = 0xFF#8 ∧ u.byteAt a = 0xFF#8) ∧
      t.events = s.events ++ [.sent [0xDD#8, 0x00#8], .cycleEnd .ok .none] ∧
      u.events = t.events ++ [.sent [0xDD#8, 0x00#8], .cycleEnd .ok .none]

/-! ## WRITE (45_memory_commands.md) -/

/-- R272: an address that classifies INVALID or is no multiple of 4 makes WRITE send `X` alone and abort: no ACK, no FMC access, no memory
write. -/
def Obligations.WriteRefusesABadAddress : Prop :=
  ∀ (s : State) (a : Word) (data : List Byte) (ds : List SendDraw), s.checksumOk = true → s.env.sends = .success :: ds →
    classify s.cfg a = .invalid ∨ a.toNat % 4 ≠ 0 →
    exec (.write a data) s = .next { s with
      phase := .idle, pos := .start, crcReg := packetChecksum s.cfg s.dp.n.toNat s.buf, dp := { s.dp with addr := a },
      host := { s.host with out := s.host.out ++ [0x58#8] },
      events := s.events ++ [.sent [0x58#8], .cycleEnd .notOk .invalidAddress], env := { s.env with sends := ds } }

/-- R270, R274, R277: a WRITE to RAM stores its words, one per whole group of four data bytes, at `addr + 4i`, answers `DD 01 4F`, changes no
other byte, and leaves the FMC ready again. -/
def Obligations.WriteToRamStoresTheWords : Prop :=
  ∀ (s : State) (a : Word) (data : List Byte) (ds : List SendDraw), cfgWf s.cfg = true → s.checksumOk = true →
    FmcReady s.fmc → a.toNat % 4 = 0 → classify s.cfg a = .ramValid →
    a.toNat + 4 * (data.length / 4) ≤ s.cfg.ramEnd.toNat →
    s.env.sends = .success :: .success :: ds →
    ∃ t, exec (.write a data) s = .next t ∧
      (∀ i w, (dataWords data)[i]? = some w → t.wordAt (wordAddr a i) = w) ∧
      (∀ x : Nat, x < a.toNat ∨ a.toNat + 4 * (data.length / 4) ≤ x → t.byteAt x = s.byteAt x) ∧
      FmcReady t.fmc ∧
      t = { s with
        phase := .idle, pos := .start, crcReg := packetChecksum s.cfg s.dp.n.toNat s.buf,
        dp := { s.dp with addr := a, dlen := data.length, i := t.dp.i, w := t.dp.w, st := .ok },
        mem := t.mem, fmc := t.fmc, host := { s.host with out := s.host.out ++ [0xDD#8, 0x01#8, 0x4F#8] },
        events := s.events ++ [.sent [0xDD#8, 0x01#8], .sent [0x4F#8], .cycleEnd .ok .none],
        env := { s.env with sends := ds } }

/-- R238, R266, R270: a WRITE to flash whose operations all complete with OK programs its words at `addr + 4i`: the AND with the old word
under `AND`, the word itself on an erased one; it answers `DD 01 4F`, changes no other byte, and leaves the FMC ready again. -/
def Obligations.WriteToFlashProgramsTheWords : Prop :=
  ∀ (s : State) (a : Word) (data : List Byte) (ds : List SendDraw) (oks cs : List Word), cfgWf s.cfg = true →
    s.checksumOk = true → FmcReady s.fmc → a.toNat % 4 = 0 → classify s.cfg a = .flashValid →
    a.toNat + 4 * (data.length / 4) ≤ s.cfg.flashEnd.toNat →
    (∀ i, i < data.length / 4 → Unprotected s.cfg (wordAddr a i)) →
    s.env.sends = .success :: .success :: ds → s.env.completions = oks ++ cs → oks.length = data.length / 4 →
    (∀ d ∈ oks, DrawOk d) →
    ∃ t, exec (.write a data) s = .next t ∧
      (∀ i w, (dataWords data)[i]? = some w →
        (s.cfg.programOverwrite = .and → t.wordAt (wordAddr a i) = s.wordAt (wordAddr a i) &&& w) ∧
        (s.wordAt (wordAddr a i) = 0xFFFFFFFF#32 → t.wordAt (wordAddr a i) = w)) ∧
      (∀ x : Nat, x < a.toNat ∨ a.toNat + 4 * (data.length / 4) ≤ x → t.byteAt x = s.byteAt x) ∧
      FmcReady t.fmc ∧
      t = { s with
        phase := .idle, pos := .start, crcReg := packetChecksum s.cfg s.dp.n.toNat s.buf,
        dp := { s.dp with addr := a, dlen := data.length, i := t.dp.i, w := t.dp.w, st := .ok },
        mem := t.mem, fmc := t.fmc, host := { s.host with out := s.host.out ++ [0xDD#8, 0x01#8, 0x4F#8] },
        events := s.events ++ [.sent [0xDD#8, 0x01#8], .sent [0x4F#8], .cycleEnd .ok .none],
        env := { s.env with sends := ds, completions := cs, drawn := t.env.drawn } }

/-- R275 (with R228 and R237 for what fails): when the operation of word `j` completes with error flags, or word `j` lies in a protected
sector, WRITE stops there: the words before it are programmed, no byte past it is touched (none of the word itself, where it is protected),
the FMC is ready again, and the answer is `DD 01 45`. -/
def Obligations.WriteStopsAtTheFirstFailure : Prop :=
  ∀ (s : State) (a : Word) (data : List Byte) (ds : List SendDraw) (oks cs : List Word), cfgWf s.cfg = true →
    s.checksumOk = true → FmcReady s.fmc → a.toNat % 4 = 0 → classify s.cfg a = .flashValid →
    a.toNat + 4 * (data.length / 4) ≤ s.cfg.flashEnd.toNat → oks.length < data.length / 4 →
    (∀ i, i < oks.length → Unprotected s.cfg (wordAddr a i)) →
    s.env.sends = .success :: .success :: ds → (∀ d ∈ oks, DrawOk d) →
    let stops := fun (flags : Word) (touched : Nat) =>
      ∃ t, exec (.write a data) s = .next t ∧
        (∀ i w, i < oks.length → (dataWords data)[i]? = some w →
          (s.cfg.programOverwrite = .and → t.wordAt (wordAddr a i) = s.wordAt (wordAddr a i) &&& w) ∧
          (s.wordAt (wordAddr a i) = 0xFFFFFFFF#32 → t.wordAt (wordAddr a i) = w)) ∧
        (∀ x : Nat, x < a.toNat ∨ a.toNat + 4 * touched ≤ x → t.byteAt x = s.byteAt x) ∧
        FmcReady t.fmc ∧
        t = { s with
          phase := .idle, pos := .start, crcReg := packetChecksum s.cfg s.dp.n.toNat s.buf,
          dp := { s.dp with addr := a, dlen := data.length, i := t.dp.i, w := t.dp.w, st := .fail .hwError flags },
          mem := t.mem, fmc := t.fmc, host := { s.host with out := s.host.out ++ [0xDD#8, 0x01#8, 0x45#8] },
          events := s.events ++ [.sent [0xDD#8, 0x01#8], .sent [0x45#8],
            .cycleEnd .notOk (.hardwareOperationFailure (.fail .hwError flags))],
          env := { s.env with sends := ds, completions := cs, drawn := t.env.drawn } }
    (∀ f, Unprotected s.cfg (wordAddr a oks.length) → s.env.completions = oks ++ f :: cs → ¬ DrawOk f →
      stops (f &&& 0x1F2#32) (oks.length + 1)) ∧
    (∀ n x, s.cfg.sectors[n]? = some x → x.base.toNat ≤ a.toNat + 4 * oks.length →
      a.toNat + 4 * oks.length < x.base.toNat + x.size → n ∈ s.cfg.wrpProtected → s.env.completions = oks ++ cs →
      stops 0x10#32 oks.length)

/-- R276: with the FMC in LOCKED_HARD a WRITE programs nothing and answers `DD 01 45`. -/
def Obligations.WriteWithoutUnlockProgramsNothing : Prop :=
  ∀ (s : State) (a : Word) (data : List Byte) (ds : List SendDraw), s.checksumOk = true → s.fmc.op = .noOp →
    s.fmc.lockst = .lockedHard → a.toNat % 4 = 0 → classify s.cfg a ≠ .invalid → s.env.sends = .success :: .success :: ds →
    exec (.write a data) s = .next { s with
      phase := .idle, pos := .start, crcReg := packetChecksum s.cfg s.dp.n.toNat s.buf,
      dp := { s.dp with addr := a, dlen := data.length, st := .fail .unlockFailed 0#32 },
      host := { s.host with out := s.host.out ++ [0xDD#8, 0x01#8, 0x45#8] },
      events := s.events ++ [.sent [0xDD#8, 0x01#8], .sent [0x45#8],
        .cycleEnd .notOk (.hardwareOperationFailure (.fail .unlockFailed 0#32))],
      env := { s.env with sends := ds } }

/-- R73, R77, R266: only the start address is checked: a WRITE to RAM that runs past the end of RAM, where no flash follows, stores the words
before the end and then faults with UNMAPPED_ACCESS, `DD 01` being sent. -/
def Obligations.WritePastTheEndOfRamFaults : Prop :=
  ∀ (s : State) (a : Word) (data : List Byte) (ds : List SendDraw), cfgWf s.cfg = true → s.checksumOk = true →
    FmcReady s.fmc → a.toNat % 4 = 0 → classify s.cfg a = .ramValid → s.cfg.ramEnd.toNat < a.toNat + 4 * (data.length / 4) →
    classify s.cfg s.cfg.ramEnd = .invalid → s.env.sends = .success :: ds →
    ∃ t : State, exec (.write a data) s = .fault (.unmappedAccess t) ∧ t.faulted = true ∧
      t.host.out = s.host.out ++ [0xDD#8, 0x01#8] ∧
      (∀ i w, (dataWords data)[i]? = some w → a.toNat + 4 * i < s.cfg.ramEnd.toNat → t.wordAt (wordAddr a i) = w)

/-! ## READ (45_memory_commands.md) -/

/-- R278, R279, R282: a READ whose words lie in the windows answers `DD count` and then the words, each most significant byte first, one byte a
`Send`; it changes no memory and nothing of the FMC. -/
def Obligations.ReadSendsTheWords : Prop :=
  ∀ (s : State) (a : Word) (count : Byte) (ds : List SendDraw), s.checksumOk = true → s.fmc.op = .noOp →
    a.toNat % 4 = 0 → classify s.cfg a ≠ .invalid → (∀ i, i < count.toNat → classify s.cfg (wordAddr a i) ≠ .invalid) →
    s.env.sends = List.replicate (1 + 4 * count.toNat) .success ++ ds →
    let bytes := (List.range count.toNat).flatMap fun i => bytesBE (s.wordAt (wordAddr a i))
    ∃ t, exec (.read a count) s = .next t ∧
      t = { s with
        phase := .idle, pos := .start, crcReg := packetChecksum s.cfg s.dp.n.toNat s.buf,
        dp := { s.dp with addr := a, count := count, i := t.dp.i, w := t.dp.w },
        host := { s.host with out := s.host.out ++ [0xDD#8, count] ++ bytes },
        events := s.events ++ [.sent [0xDD#8, count]] ++ (bytes.map fun b => .sent [b]) ++ [.cycleEnd .ok .none],
        env := { s.env with sends := ds } }

/-- R280: an address that classifies INVALID or is no multiple of 4 makes READ send `E` alone, emit one debug note of some bytes, and abort; it
reads no memory. -/
def Obligations.ReadRefusesABadAddress : Prop :=
  ∀ (s : State) (a : Word) (count : Byte) (ds : List SendDraw), s.checksumOk = true → s.env.sends = .success :: ds →
    classify s.cfg a = .invalid ∨ a.toNat % 4 ≠ 0 →
    ∃ (note : List Byte) (k : Nat), exec (.read a count) s = .next { s with
      phase := .idle, pos := .start, crcReg := packetChecksum s.cfg s.dp.n.toNat s.buf,
      dp := { s.dp with addr := a, count := count }, host := { s.host with out := s.host.out ++ [0x45#8] },
      events := s.events ++ [.sent [0x45#8], .debugOut note, .cycleEnd .notOk .invalidAddress],
      env := { s.env with sends := ds, drawn := k } }

/-- R73, R77, R267: a READ whose word `j` is the first outside both windows faults with UNMAPPED_ACCESS after the words before it are
sent. -/
def Obligations.ReadPastTheWindowsFaults : Prop :=
  ∀ (s : State) (a : Word) (count : Byte) (ds : List SendDraw) (j : Nat), s.checksumOk = true → s.fmc.op = .noOp →
    a.toNat % 4 = 0 → j < count.toNat → 0 < j → (∀ i, i < j → classify s.cfg (wordAddr a i) ≠ .invalid) →
    classify s.cfg (wordAddr a j) = .invalid → s.env.sends = List.replicate (1 + 4 * j) .success ++ ds →
    ∃ t : State, exec (.read a count) s = .fault (.unmappedAccess t) ∧ t.faulted = true ∧ t.mem = s.mem ∧
      t.host.out = s.host.out ++ [0xDD#8, count] ++ (List.range j).flatMap fun i => bytesBE (s.wordAt (wordAddr a i))

/-- R283: the round trip. A WRITE of whole words into RAM, or into erased flash whose operations all complete with OK, and then a READ of as many
words, at any later time with no write between, answers `DD`, the word count, and exactly the bytes written. -/
def Obligations.WriteThenReadReturnsTheBytes : Prop :=
  ∀ (s : State) (a : Word) (data : List Byte) (ds : List SendDraw) (oks cs : List Word), cfgWf s.cfg = true →
    s.checksumOk = true → FmcReady s.fmc → a.toNat % 4 = 0 → data.length % 4 = 0 → data.length / 4 ≤ 255 →
    (classify s.cfg a = .ramValid ∧ a.toNat + data.length ≤ s.cfg.ramEnd.toNat ∧ oks = []) ∨
      (classify s.cfg a = .flashValid ∧ a.toNat + data.length ≤ s.cfg.flashEnd.toNat ∧ oks.length = data.length / 4 ∧
        (∀ d ∈ oks, DrawOk d) ∧
        ∀ i, i < data.length / 4 →
          s.wordAt (wordAddr a i) = 0xFFFFFFFF#32 ∧ Unprotected s.cfg (wordAddr a i)) →
    s.env.sends = .success :: .success :: ds → s.env.completions = oks ++ cs →
    ∃ t, exec (.write a data) s = .next t ∧
      ∀ (u : State) (es : List SendDraw), u.cfg = t.cfg → u.mem = t.mem → u.epoch = t.epoch → u.fmc.op = .noOp →
        u.checksumOk = true → u.env.sends = List.replicate (1 + data.length) .success ++ es →
        ∃ v, exec (.read a (BitVec.ofNat 8 (data.length / 4))) u = .next v ∧
          v.host.out = u.host.out ++ [0xDD#8, BitVec.ofNat 8 (data.length / 4)] ++ data

/-! ## Reset and the invariant (70_reset_and_hazards.md, 44_flash_controller.md R245 to R247) -/

/-- R330 to R332: a power cycle at any step: IDLE, the FMC in LOCKED_K1 with nothing in flight and `SR` 0 and `CR` reading 8000_0000, no input,
the peripherals on; flash keeps every byte that was no target of an operation in flight; the host keeps what it received.
That a faulted state is faulted no more is the reset table's row (R52), read before R39 (DEDUCED, log 18). -/
def Obligations.PowerCycleResetsAllButFlash : Prop :=
  ∀ s : State, cfgWf s.cfg = true →
    let t := powerCycle s
    t.phase = .idle ∧ t.faulted = false ∧ t.events = [] ∧ t.host.inp = [] ∧ t.host.out = s.host.out ∧
    t.periph = { clocks := true, transport := true, checksum := true } ∧
    t.fmc.lockst = .lockedK1 ∧ t.fmc.op = .noOp ∧ t.fmc.readSr = 0#32 ∧ t.fmc.readCr = 0x80000000#32 ∧
    (∀ a : Nat, inFlash s.cfg a = true → s.fmc.op = .noOp → t.byteAt a = s.byteAt a) ∧
    (∀ a : Nat, inFlash s.cfg a = true → ∀ b v, s.fmc.op = .program b v → a < b.toNat ∨ b.toNat + 4 ≤ a →
      t.byteAt a = s.byteAt a) ∧
    (∀ a : Nat, inFlash s.cfg a = true → ∀ n x, s.fmc.op = .erase n → s.cfg.sectors[n]? = some x →
      a < x.base.toNat ∨ x.base.toNat + x.size ≤ a → t.byteAt a = s.byteAt a)

/-- R52: what reset leaves, for the values the rules give, `FLASH_INIT` in flash among them, and that the invariant holds there, whatever the
flash contents. -/
def Obligations.InvariantHoldsAtReset : Prop :=
  ∀ (cfg : Cfg) (flash : Memory), cfgWf cfg = true → Memory.wf cfg flash →
    let s := State.resetWith cfg flash
    Inv s ∧ s.mem = flash ∧ s.phase = .idle ∧ s.crcReg = 0xFFFFFFFF#32 ∧ s.host = { inp := [], out := [] } ∧ s.events = [] ∧
    s.faulted = false ∧ s.fmc.lockst = .lockedK1 ∧ s.fmc.op = .noOp ∧ s.fmc.readSr = 0#32 ∧ s.fmc.readCr = 0x80000000#32

/-- R245, R246, R247, R313: every step keeps the invariant: in particular the FMC is locked and at rest whenever no handler runs, memory stays
in its canonical form, and no handler is ever held but in the waits after an erase or a program. -/
def Obligations.EveryStepKeepsTheInvariant : Prop :=
  ∀ s t : State, Inv s → step s = .next t → Inv t

/-- R238, R330, R353: so does every other move: the host's bytes and choices, the FMC's own completion of the operation in flight, and a power
cycle, at any step or inside one (where inside is the model's cut of a step at its sends and waits, log 2). -/
def Obligations.EveryMoveKeepsTheInvariant : Prop :=
  ∀ s t : State, Inv s → Move s t → Inv t

/-- R309: from a state that meets the invariant, a step of the block stops only with UNMAPPED_ACCESS, and only inside a READ or a WRITE; no
FMC access is undefined, no field overflows, and nothing is refused. -/
def Obligations.OnlyReadAndWriteCanFault : Prop :=
  ∀ s : State, Inv s →
    (∃ t, step s = .next t) ∨
    ((∃ u, step s = .fault (.unmappedAccess u)) ∧
      (s.phase = .payloadReceived ∨ s.phase = .dispatched) ∧
      ((∃ a d, decodeBuf s.cfg s.dp.n s.buf = .ok (.write a d)) ∨ (∃ a c, decodeBuf s.cfg s.dp.n s.buf = .ok (.read a c)) ∨
        ∃ ws, s.pos = .programDone ws))
end

