-- ==== Sys2Proof/Laws/AddressMap.lean ====
section
/-! SUPPORT. The configuration check by its parts (spec 00_scope.md R9), the windows (20_memory.md R71), the sectors (R85), and the word
addresses of a range (45_memory_commands.md R266). -/

namespace Sys2Proof.Machine

variable {cfg : Cfg}

/-! ### R9 by its parts -/

theorem cfgWf_parts (h : cfgWf cfg = true) :
    10 ≤ cfg.rxCap ∧ windowsWf cfg = true ∧ boundsWf cfg = true ∧
    tiles cfg.flashEnd.toNat cfg.flashBase.toNat cfg.sectors = true ∧ (opcodes cfg).Nodup ∧ appBaseWf cfg = true ∧
    cfg.numSectors ≤ 16 ∧ registersOutside cfg = true := by
  simp only [cfgWf, Bool.and_eq_true, decide_eq_true_eq] at h
  tauto

theorem cfgWf_cap (h : cfgWf cfg = true) : 10 ≤ cfg.rxCap := (cfgWf_parts h).1

theorem cfgWf_sectors (h : cfgWf cfg = true) : cfg.numSectors ≤ 16 := (cfgWf_parts h).2.2.2.2.2.2.1

/-- No register of the FMC lies in a window (R43, R73). -/
theorem regAddr_invalid (h : cfgWf cfg = true) (r : FmcReg) : classify cfg (regAddr r) = .invalid := by
  have hr := (cfgWf_parts h).2.2.2.2.2.2.2
  simp only [registersOutside, Bool.and_eq_true, beq_iff_eq] at hr
  cases r
  · exact hr.1.1
  · exact hr.1.2
  · exact hr.2

/-- The windows do not overlap (R9 (2)). -/
theorem not_inRam_of_inFlash (h : cfgWf cfg = true) {a : Nat} (ha : inFlash cfg a = true) : inRam cfg a = false := by
  have hw := (cfgWf_parts h).2.1
  simp only [windowsWf, Bool.and_eq_true, Bool.or_eq_true, decide_eq_true_eq] at hw
  simp only [inFlash, inRam, Bool.and_eq_true, decide_eq_true_eq] at ha ⊢
  simp only [Bool.and_eq_false_iff, decide_eq_false_iff_not]
  omega

/-! ### The Address Validator -/

theorem classify_ram {a : Word} (h : cfg.ramBase.toNat ≤ a.toNat) (h' : a.toNat < cfg.ramEnd.toNat) :
    classify cfg a = .ramValid := by
  unfold classify; rw [if_pos (by simp [inRam, h, h'])]

theorem ram_of_classify {a : Word} (h : classify cfg a = .ramValid) :
    cfg.ramBase.toNat ≤ a.toNat ∧ a.toNat < cfg.ramEnd.toNat := by
  unfold classify at h
  split at h
  · next h' => simpa [inRam] using h'
  · split at h <;> cases h

theorem classify_flash (hw : cfgWf cfg = true) {a : Word} (h : cfg.flashBase.toNat ≤ a.toNat)
    (h' : a.toNat < cfg.flashEnd.toNat) : classify cfg a = .flashValid := by
  have hf : inFlash cfg a.toNat = true := by simp [inFlash, h, h']
  unfold classify
  rw [if_neg (by rw [not_inRam_of_inFlash hw hf]; decide), if_pos hf]

theorem flash_of_classify {a : Word} (h : classify cfg a = .flashValid) :
    cfg.flashBase.toNat ≤ a.toNat ∧ a.toNat < cfg.flashEnd.toNat := by
  unfold classify at h
  split at h
  · cases h
  · split at h
    · next h' => simpa [inFlash] using h'
    · cases h

/-- `Aligned` as a remainder (R72). -/
theorem aligned_iff {a : Word} : aligned a = true ↔ a.toNat % 4 = 0 := by
  unfold aligned
  rw [beq_iff_eq, ← BitVec.toNat_inj]
  simp [BitVec.extractLsb'_toNat]

/-! ### Word addresses -/

theorem wordAddr_toNat {a : Word} {i : Nat} (h : a.toNat + 4 * i < 2 ^ 32) : (wordAddr a i).toNat = a.toNat + 4 * i := by
  unfold wordAddr
  rw [BitVec.toNat_add, BitVec.toNat_ofNat, Nat.add_mod_mod, Nat.mod_eq_of_lt h]

@[simp] theorem wordAddr_zero (a : Word) : wordAddr a 0 = a := by simp [wordAddr]

/-! ### Sectors -/

theorem tiles_sector {hi : Nat} : ∀ {lo : Nat} {xs : List Sector} {n : Nat} {x : Sector}, tiles hi lo xs = true →
    xs[n]? = some x → lo ≤ x.base.toNat ∧ x.base.toNat + x.size ≤ hi ∧ x.size % 4 = 0
  | _, [], _, _, _, h => by simp at h
  | lo, y :: ys, n, x, ht, h => by
    simp only [tiles, Bool.and_eq_true, beq_iff_eq] at ht
    obtain ⟨⟨h1, h2⟩, h3⟩ := ht
    have hle : ∀ {lo : Nat} {zs : List Sector}, tiles hi lo zs = true → lo ≤ hi := by
      intro lo zs
      induction zs generalizing lo with
      | nil => intro h; simp [tiles] at h; omega
      | cons z zs ih =>
        intro h
        simp only [tiles, Bool.and_eq_true, beq_iff_eq] at h
        have := ih h.2
        omega
    cases n with
    | zero =>
      simp at h; subst h
      have := hle h3
      omega
    | succ n =>
      have := tiles_sector h3 (by simpa using h)
      omega

/-- A sector lies in the flash window (R9 (4)). -/
theorem sector_inFlash (hw : cfgWf cfg = true) {n : Nat} {x : Sector} (h : cfg.sectors[n]? = some x) {a : Nat}
    (h1 : x.base.toNat ≤ a) (h2 : a < x.base.toNat + x.size) : inFlash cfg a = true := by
  have := tiles_sector (cfgWf_parts hw).2.2.2.1 h
  simp only [inFlash, Bool.and_eq_true, decide_eq_true_eq]
  omega

/-- A tiling leaves no address of its range out (R9 (4)). -/
theorem tiles_covers {hi : Nat} : ∀ {lo : Nat} {xs : List Sector} {a : Nat}, tiles hi lo xs = true → lo ≤ a → a < hi →
    ∃ (n : Nat) (x : Sector), xs[n]? = some x ∧ x.base.toNat ≤ a ∧ a < x.base.toNat + x.size
  | lo, [], a, ht, h1, h2 => by simp [tiles] at ht; omega
  | lo, y :: ys, a, ht, h1, h2 => by
    simp only [tiles, Bool.and_eq_true, beq_iff_eq] at ht
    obtain ⟨⟨hb, -⟩, h3⟩ := ht
    by_cases hlt : a < lo + y.size
    · exact ⟨0, y, rfl, by omega, by omega⟩
    · obtain ⟨n, x, hx, hxa, hxb⟩ := tiles_covers h3 (by omega) h2
      exact ⟨n + 1, x, hx, hxa, hxb⟩

/-- Every flash address lies in a sector (R9 (4), R85). -/
theorem exists_sector (hw : cfgWf cfg = true) {a : Word} (ha : classify cfg a = .flashValid) :
    ∃ (n : Nat) (x : Sector), cfg.sectors[n]? = some x ∧ x.base.toNat ≤ a.toNat ∧ a.toNat < x.base.toNat + x.size :=
  tiles_covers (cfgWf_parts hw).2.2.2.1 (flash_of_classify ha).1 (flash_of_classify ha).2

theorem tiles_findIdx {hi : Nat} : ∀ {lo : Nat} {xs : List Sector} {n : Nat} {x : Sector} {a : Nat}, tiles hi lo xs = true →
    xs[n]? = some x → x.base.toNat ≤ a → a < x.base.toNat + x.size →
    xs.findIdx (fun y => decide (y.base.toNat ≤ a) && decide (a < y.base.toNat + y.size)) = n
  | _, [], _, _, _, _, h, _, _ => by simp at h
  | lo, y :: ys, n, x, a, ht, h, h1, h2 => by
    simp only [tiles, Bool.and_eq_true, beq_iff_eq] at ht
    rw [List.findIdx_cons]
    cases n with
    | zero =>
      simp only [List.getElem?_cons_zero, Option.some.injEq] at h
      subst h
      simp [h1, h2]
    | succ n =>
      have h' : ys[n]? = some x := by simpa using h
      have hlo := (tiles_sector ht.2 h').1
      have : ¬ a < y.base.toNat + y.size := by rw [ht.1.1]; omega
      simp [this, tiles_findIdx ht.2 h' h1 h2]

/-- `sectorOf` names the sector that holds the address (R228). -/
theorem sectorOf_eq (hw : cfgWf cfg = true) {a : Word} {n : Nat} {x : Sector} (h : cfg.sectors[n]? = some x)
    (h1 : x.base.toNat ≤ a.toNat) (h2 : a.toNat < x.base.toNat + x.size) : sectorOf cfg a = n :=
  tiles_findIdx (cfgWf_parts hw).2.2.2.1 h h1 h2

end Sys2Proof.Machine
end

