-- ==== Sys2Proof/Laws/Bytes.lean ====
section
/-! SUPPORT. Byte order (spec 00_scope.md R12; 20_memory.md R78, R79): a word and its four bytes are the same data in either order; and
the checksum's rounds as one function iterated (40_checksum.md R131). -/

namespace Sys2Proof.Machine

section ByteOrder

variable (w : Word) (b0 b1 b2 b3 : Byte)

theorem le32_byteOf : le32 (byteOf w 0) (byteOf w 1) (byteOf w 2) (byteOf w 3) = w := by
  apply BitVec.eq_of_getLsbD_eq
  intro i hi
  interval_cases i <;> simp [le32, byteOf]

theorem be32_byteOf : be32 (byteOf w 3) (byteOf w 2) (byteOf w 1) (byteOf w 0) = w := by
  apply BitVec.eq_of_getLsbD_eq
  intro i hi
  interval_cases i <;> simp [be32, byteOf]

theorem byteOf_be32_zero : byteOf (be32 b0 b1 b2 b3) 0 = b3 := by
  apply BitVec.eq_of_getLsbD_eq
  intro i hi
  interval_cases i <;> simp [be32, byteOf]

theorem byteOf_be32_one : byteOf (be32 b0 b1 b2 b3) 1 = b2 := by
  apply BitVec.eq_of_getLsbD_eq
  intro i hi
  interval_cases i <;> simp [be32, byteOf]

theorem byteOf_be32_two : byteOf (be32 b0 b1 b2 b3) 2 = b1 := by
  apply BitVec.eq_of_getLsbD_eq
  intro i hi
  interval_cases i <;> simp [be32, byteOf]

theorem byteOf_be32_three : byteOf (be32 b0 b1 b2 b3) 3 = b0 := by
  apply BitVec.eq_of_getLsbD_eq
  intro i hi
  interval_cases i <;> simp [be32, byteOf]

/-- `bytes_be` undoes `be32` (R12). -/
theorem bytesBE_be32 : bytesBE (be32 b0 b1 b2 b3) = [b0, b1, b2, b3] := by
  simp [bytesBE, byteOf_be32_zero, byteOf_be32_one, byteOf_be32_two, byteOf_be32_three]

/-- Equal words have equal bytes, each in its place. -/
theorem be32_inj {a b c d a' b' c' d' : Byte} (h : be32 a b c d = be32 a' b' c' d') : a = a' ∧ b = b' ∧ c = c' ∧ d = d' := by
  have := congrArg bytesBE h
  rw [bytesBE_be32, bytesBE_be32] at this
  simpa using this

@[simp] theorem bytesBE_length : (bytesBE w).length = 4 := rfl

/-- The identity `be32(b0, b1, b2, b3) = bswap32(le32(b0, b1, b2, b3))` of R12. -/
theorem be32_eq_bswap32_le32 : be32 b0 b1 b2 b3 = bswap32 (le32 b0 b1 b2 b3) := by
  apply BitVec.eq_of_getLsbD_eq
  intro i hi
  interval_cases i <;> simp [be32, le32, bswap32, byteOf]

end ByteOrder

/-! ### The checksum's rounds -/

/-- One round of R131. -/
def crcRound (r : Word) : Word := if r.msb then (r <<< 1) ^^^ crcPoly else r <<< 1

theorem crcRounds_succ (n : Nat) (r : Word) : crcRounds (n + 1) r = crcRounds n (crcRound r) := by
  cases h : r.msb <;> simp [crcRounds, crcRound, h]

theorem crcRounds_add (m n : Nat) (r : Word) : crcRounds (m + n) r = crcRounds n (crcRounds m r) := by
  induction m generalizing r with
  | zero => simp [crcRounds]
  | succ m ih => rw [Nat.succ_add, crcRounds_succ, crcRounds_succ, ih]

@[simp] theorem checksum_nil (lane : CrcLane) : checksum lane [] = crcSeed := rfl

theorem checksum_append (lane : CrcLane) (xs ys : List Byte) :
    checksum lane (xs ++ ys) = ys.foldl (crcByte lane) (checksum lane xs) := by
  simp [checksum, List.foldl_append]

/-- The source's comparison, the byte-swapped checksum against the four bytes loaded in native order, is the comparison of R134
(R132). -/
theorem checksumSrc_eq_le32_iff (lane : CrcLane) (bs : List Byte) (b0 b1 b2 b3 : Byte) :
    checksumSrc lane bs = le32 b0 b1 b2 b3 ↔ checksum lane bs = be32 b0 b1 b2 b3 := by
  have invol : ∀ w : Word, bswap32 (bswap32 w) = w := by
    intro w
    apply BitVec.eq_of_getLsbD_eq
    intro i hi
    interval_cases i <;> simp [bswap32, le32, byteOf]
  rw [be32_eq_bswap32_le32]
  unfold checksumSrc
  constructor
  · intro h; rw [← h, invol]
  · intro h; rw [h, invol]

/-! ### Data words -/

theorem dataWords_length : ∀ bs : List Byte, (dataWords bs).length = bs.length / 4
  | [] => by simp [dataWords]
  | [_] => by simp [dataWords]
  | [_, _] => by simp [dataWords]
  | [_, _, _] => by simp [dataWords]
  | _ :: _ :: _ :: _ :: rest => by
    simp only [dataWords, List.length_cons, dataWords_length rest]
    omega

/-- The words of a whole number of groups, sent most significant byte first, are the data bytes (R79, R110). -/
theorem flatMap_bytesBE_dataWords : ∀ bs : List Byte, bs.length % 4 = 0 → (dataWords bs).flatMap bytesBE = bs
  | [], _ => rfl
  | [_], h => by simp at h
  | [_, _], h => by simp at h
  | [_, _, _], h => by simp at h
  | b0 :: b1 :: b2 :: b3 :: rest, h => by
    have h' : rest.length % 4 = 0 := by simp only [List.length_cons] at h; omega
    simp [dataWords, bytesBE_be32, flatMap_bytesBE_dataWords rest h']

end Sys2Proof.Machine
end

