-- ==== Sys2Proof/Laws/Memory.lean ====
section
/-! SUPPORT. The laws of memory (spec 20_memory.md R74, R75, R80, R83): what an address holds after each operation, and that every
operation keeps the canonical form. -/

namespace Sys2Proof.Machine

variable {cfg : Cfg}

/-! ### What an address holds -/

theorem Memory.find_insert (m : Memory) (a : Nat) (b : Byte) (x : Nat) :
    Memory.find (Memory.insert m a b) x = if x = a then some b else Memory.find m x := by
  induction m with
  | nil => simp [Memory.insert, Memory.find, eq_comm]
  | cons c m ih =>
    unfold Memory.insert
    split
    · simp [Memory.find, eq_comm]
    · split
      · by_cases hx : x = a <;> simp_all [Memory.find, eq_comm]
      · by_cases hx : x = a <;> simp_all [Memory.find, eq_comm]

theorem Memory.find_drop (m : Memory) (p : Nat → Bool) (x : Nat) :
    Memory.find (Memory.drop m p) x = if p x then none else Memory.find m x := by
  induction m with
  | nil => simp [Memory.drop, Memory.find]
  | cons c m ih =>
    unfold Memory.drop at ih ⊢
    by_cases hc : p c.1
    · by_cases hx : c.1 = x
      · subst hx; simp_all
      · simp_all [Memory.find]
    · by_cases hx : c.1 = x
      · subst hx; simp_all [Memory.find]
      · simp_all [Memory.find]

theorem Memory.get_set (m : Memory) (a : Nat) (b : Byte) (x : Nat) :
    Memory.get cfg (Memory.set cfg m a b) x = if x = a then some b else Memory.get cfg m x := by
  unfold Memory.set Memory.get
  by_cases h : Memory.unlisted cfg a = some b
  · rw [if_pos h, Memory.find_drop]
    by_cases hx : x = a
    · subst hx; simp [h]
    · simp [hx]
  · rw [if_neg h, Memory.find_insert]
    by_cases hx : x = a <;> simp [hx]

/-- A word stored at `a` puts its byte `k` at `a + k` and leaves every other address alone (R80, R84). -/
theorem Memory.get_setWord (m : Memory) (a : Nat) (w : Word) (x : Nat) :
    Memory.get cfg (Memory.setWord cfg m a w) x =
      if a ≤ x ∧ x < a + 4 then some (byteOf w (x - a)) else Memory.get cfg m x := by
  unfold Memory.setWord
  simp only [Memory.get_set]
  by_cases h3 : x = a + 3
  · subst h3; simp
  by_cases h2 : x = a + 2
  · subst h2; simp
  by_cases h1 : x = a + 1
  · subst h1; simp
  by_cases h0 : x = a
  · subst h0; simp
  rw [if_neg h3, if_neg h2, if_neg h1, if_neg h0, if_neg (by omega)]

theorem Memory.get_setWord_of_outside {m : Memory} {a : Nat} {w : Word} {x : Nat} (h : x < a ∨ a + 4 ≤ x) :
    Memory.get cfg (Memory.setWord cfg m a w) x = Memory.get cfg m x := by
  rw [Memory.get_setWord, if_neg (by omega)]

/-- An erased address holds what an unlisted one holds (R238). -/
theorem Memory.get_eraseRange (m : Memory) (lo size x : Nat) :
    Memory.get cfg (Memory.eraseRange m lo size) x =
      if lo ≤ x ∧ x < lo + size then Memory.unlisted cfg x else Memory.get cfg m x := by
  unfold Memory.eraseRange Memory.get
  rw [Memory.find_drop]
  by_cases h : lo ≤ x ∧ x < lo + size
  · simp [h]
  · rw [if_neg (by simpa using h), if_neg h]

/-- A failed operation touches no address outside its target (R238). -/
theorem Memory.get_scramble_of_outside {x : Nat} (n a k : Nat) (m : Memory) (h : x < a ∨ a + 4 * n ≤ x) :
    Memory.get cfg (Memory.scramble cfg n a k m) x = Memory.get cfg m x := by
  induction n generalizing a k m with
  | zero => rfl
  | succ n ih =>
    rw [Memory.scramble, ih _ _ _ (by omega), Memory.get_setWord_of_outside (by omega)]

/-! ### The canonical form -/

theorem Memory.mem_insert {m : Memory} {a : Nat} {b : Byte} {c : Host.Cell} (h : c ∈ Memory.insert m a b) :
    c = (a, b) ∨ c ∈ m := by
  induction m with
  | nil => simpa [Memory.insert] using h
  | cons d m ih =>
    unfold Memory.insert at h
    split at h
    · simpa using h
    · split at h
      · rcases List.mem_cons.1 h with h | h
        · exact .inl h
        · exact .inr (List.mem_cons_of_mem _ h)
      · rcases List.mem_cons.1 h with h | h
        · exact .inr (by simp [h])
        · rcases ih h with h | h
          · exact .inl h
          · exact .inr (List.mem_cons_of_mem _ h)

theorem Memory.insert_pairwise {m : Memory} (a : Nat) (b : Byte) (h : m.Pairwise fun x y => x.1 < y.1) :
    (Memory.insert m a b).Pairwise fun x y => x.1 < y.1 := by
  induction m with
  | nil => simp [Memory.insert]
  | cons c m ih =>
    rw [List.pairwise_cons] at h
    unfold Memory.insert
    split
    · next hlt =>
      refine List.pairwise_cons.2 ⟨fun d hd => ?_, List.pairwise_cons.2 h⟩
      rcases List.mem_cons.1 hd with rfl | hd
      · exact hlt
      · exact Nat.lt_trans hlt (h.1 d hd)
    · split
      · next heq => exact List.pairwise_cons.2 ⟨fun d hd => heq ▸ h.1 d hd, h.2⟩
      · refine List.pairwise_cons.2 ⟨fun d hd => ?_, ih h.2⟩
        rcases Memory.mem_insert hd with rfl | hd
        · show c.1 < a
          omega
        · exact h.1 d hd

theorem Memory.drop_wf {m : Memory} (p : Nat → Bool) (h : Memory.wf cfg m) : Memory.wf cfg (Memory.drop m p) :=
  ⟨h.1.filter _, fun c hc => h.2 c (List.mem_filter.1 hc).1⟩

theorem Memory.set_wf {m : Memory} (a : Nat) (b : Byte) (h : Memory.wf cfg m) : Memory.wf cfg (Memory.set cfg m a b) := by
  unfold Memory.set
  split
  · exact Memory.drop_wf _ h
  · next hne =>
    refine ⟨Memory.insert_pairwise a b h.1, fun c hc => ?_⟩
    rcases Memory.mem_insert hc with rfl | hc
    · exact hne
    · exact h.2 c hc

theorem Memory.setWord_wf {m : Memory} (a : Nat) (w : Word) (h : Memory.wf cfg m) :
    Memory.wf cfg (Memory.setWord cfg m a w) :=
  Memory.set_wf _ _ (Memory.set_wf _ _ (Memory.set_wf _ _ (Memory.set_wf _ _ h)))

theorem Memory.eraseRange_wf {m : Memory} (lo size : Nat) (h : Memory.wf cfg m) :
    Memory.wf cfg (Memory.eraseRange m lo size) := Memory.drop_wf _ h

theorem Memory.scramble_wf {m : Memory} (n a k : Nat) (h : Memory.wf cfg m) :
    Memory.wf cfg (Memory.scramble cfg n a k m) := by
  induction n generalizing a k m with
  | zero => exact h
  | succ n ih => exact ih _ _ (Memory.setWord_wf _ _ h)

theorem Memory.wf_nil : Memory.wf cfg [] := ⟨List.Pairwise.nil, fun _ h => nomatch h⟩

/-! ### Bytes and words of a state -/

theorem State.byteAt_setWordAt (s : State) (a w : Word) (x : Nat) :
    (s.setWordAt a w).byteAt x = if a.toNat ≤ x ∧ x < a.toNat + 4 then byteOf w (x - a.toNat) else s.byteAt x := by
  unfold State.byteAt State.setWordAt
  simp only [Memory.get_setWord]
  split <;> rfl

/-- A read of the word just stored gives it back (R74, R75, R87). -/
theorem State.wordAt_setWordAt_self (s : State) (a w : Word) : (s.setWordAt a w).wordAt a = w := by
  simp [State.wordAt, State.byteAt_setWordAt, le32_byteOf]

/-- A word four or more bytes away is not changed (R84). -/
theorem State.wordAt_setWordAt_of_apart (s : State) {a x : Word} (w : Word)
    (h : x.toNat + 4 ≤ a.toNat ∨ a.toNat + 4 ≤ x.toNat) : (s.setWordAt a w).wordAt x = s.wordAt x := by
  unfold State.wordAt
  simp only [State.byteAt_setWordAt]
  rw [if_neg (by omega), if_neg (by omega), if_neg (by omega), if_neg (by omega)]

/-- States that agree on memory, configuration and power cycles hold the same bytes. -/
theorem State.byteAt_congr {s t : State} (hc : t.cfg = s.cfg) (hm : t.mem = s.mem) (he : t.epoch = s.epoch) (x : Nat) :
    t.byteAt x = s.byteAt x := by
  unfold State.byteAt; rw [hc, hm, he]

theorem State.wordAt_congr {s t : State} (hc : t.cfg = s.cfg) (hm : t.mem = s.mem) (he : t.epoch = s.epoch) (x : Word) :
    t.wordAt x = s.wordAt x := by
  unfold State.wordAt; simp only [State.byteAt_congr hc hm he]

end Sys2Proof.Machine
end

