-- ==== Sys2Proof/Laws/State.lean ====
section
/-! SUPPORT. One lemma per field of State and per named update (Machine/Ops.lean, Machine/Memory.lean, Machine/Controller.lean,
Machine/Transfer.lean): what the field holds after it. Later proofs use these and unfold no record update. -/

namespace Sys2Proof.Machine

section Updates

variable (s : State)

@[simp] theorem State.emit_cfg (e : Event) : (s.emit e).cfg = s.cfg := rfl
@[simp] theorem State.emit_phase (e : Event) : (s.emit e).phase = s.phase := rfl
@[simp] theorem State.emit_pos (e : Event) : (s.emit e).pos = s.pos := rfl
@[simp] theorem State.emit_buf (e : Event) : (s.emit e).buf = s.buf := rfl
@[simp] theorem State.emit_dp (e : Event) : (s.emit e).dp = s.dp := rfl
@[simp] theorem State.emit_crcReg (e : Event) : (s.emit e).crcReg = s.crcReg := rfl
@[simp] theorem State.emit_periph (e : Event) : (s.emit e).periph = s.periph := rfl
@[simp] theorem State.emit_mem (e : Event) : (s.emit e).mem = s.mem := rfl
@[simp] theorem State.emit_fmc (e : Event) : (s.emit e).fmc = s.fmc := rfl
@[simp] theorem State.emit_host (e : Event) : (s.emit e).host = s.host := rfl
@[simp] theorem State.emit_events (e : Event) : (s.emit e).events = s.events ++ [e] := rfl
@[simp] theorem State.emit_faulted (e : Event) : (s.emit e).faulted = s.faulted := rfl
@[simp] theorem State.emit_env (e : Event) : (s.emit e).env = s.env := rfl
@[simp] theorem State.emit_epoch (e : Event) : (s.emit e).epoch = s.epoch := rfl

@[simp] theorem State.setPhase_cfg (p : Phase) : (s.setPhase p).cfg = s.cfg := rfl
@[simp] theorem State.setPhase_phase (p : Phase) : (s.setPhase p).phase = p := rfl
@[simp] theorem State.setPhase_pos (p : Phase) : (s.setPhase p).pos = s.pos := rfl
@[simp] theorem State.setPhase_buf (p : Phase) : (s.setPhase p).buf = s.buf := rfl
@[simp] theorem State.setPhase_dp (p : Phase) : (s.setPhase p).dp = s.dp := rfl
@[simp] theorem State.setPhase_crcReg (p : Phase) : (s.setPhase p).crcReg = s.crcReg := rfl
@[simp] theorem State.setPhase_periph (p : Phase) : (s.setPhase p).periph = s.periph := rfl
@[simp] theorem State.setPhase_mem (p : Phase) : (s.setPhase p).mem = s.mem := rfl
@[simp] theorem State.setPhase_fmc (p : Phase) : (s.setPhase p).fmc = s.fmc := rfl
@[simp] theorem State.setPhase_host (p : Phase) : (s.setPhase p).host = s.host := rfl
@[simp] theorem State.setPhase_events (p : Phase) : (s.setPhase p).events = s.events := rfl
@[simp] theorem State.setPhase_faulted (p : Phase) : (s.setPhase p).faulted = s.faulted := rfl
@[simp] theorem State.setPhase_env (p : Phase) : (s.setPhase p).env = s.env := rfl
@[simp] theorem State.setPhase_epoch (p : Phase) : (s.setPhase p).epoch = s.epoch := rfl

@[simp] theorem State.setPos_cfg (p : Pos) : (s.setPos p).cfg = s.cfg := rfl
@[simp] theorem State.setPos_phase (p : Pos) : (s.setPos p).phase = s.phase := rfl
@[simp] theorem State.setPos_pos (p : Pos) : (s.setPos p).pos = p := rfl
@[simp] theorem State.setPos_buf (p : Pos) : (s.setPos p).buf = s.buf := rfl
@[simp] theorem State.setPos_dp (p : Pos) : (s.setPos p).dp = s.dp := rfl
@[simp] theorem State.setPos_crcReg (p : Pos) : (s.setPos p).crcReg = s.crcReg := rfl
@[simp] theorem State.setPos_periph (p : Pos) : (s.setPos p).periph = s.periph := rfl
@[simp] theorem State.setPos_mem (p : Pos) : (s.setPos p).mem = s.mem := rfl
@[simp] theorem State.setPos_fmc (p : Pos) : (s.setPos p).fmc = s.fmc := rfl
@[simp] theorem State.setPos_host (p : Pos) : (s.setPos p).host = s.host := rfl
@[simp] theorem State.setPos_events (p : Pos) : (s.setPos p).events = s.events := rfl
@[simp] theorem State.setPos_faulted (p : Pos) : (s.setPos p).faulted = s.faulted := rfl
@[simp] theorem State.setPos_env (p : Pos) : (s.setPos p).env = s.env := rfl
@[simp] theorem State.setPos_epoch (p : Pos) : (s.setPos p).epoch = s.epoch := rfl

@[simp] theorem State.abort_cfg (c : Cause) : (s.abort c).cfg = s.cfg := rfl
@[simp] theorem State.abort_phase (c : Cause) : (s.abort c).phase = .idle := rfl
@[simp] theorem State.abort_pos (c : Cause) : (s.abort c).pos = .start := rfl
@[simp] theorem State.abort_buf (c : Cause) : (s.abort c).buf = s.buf := rfl
@[simp] theorem State.abort_dp (c : Cause) : (s.abort c).dp = s.dp := rfl
@[simp] theorem State.abort_crcReg (c : Cause) : (s.abort c).crcReg = s.crcReg := rfl
@[simp] theorem State.abort_periph (c : Cause) : (s.abort c).periph = s.periph := rfl
@[simp] theorem State.abort_mem (c : Cause) : (s.abort c).mem = s.mem := rfl
@[simp] theorem State.abort_fmc (c : Cause) : (s.abort c).fmc = s.fmc := rfl
@[simp] theorem State.abort_host (c : Cause) : (s.abort c).host = s.host := rfl
@[simp] theorem State.abort_events (c : Cause) : (s.abort c).events = s.events ++ [.cycleEnd .notOk c] := rfl
@[simp] theorem State.abort_faulted (c : Cause) : (s.abort c).faulted = s.faulted := rfl
@[simp] theorem State.abort_env (c : Cause) : (s.abort c).env = s.env := rfl
@[simp] theorem State.abort_epoch (c : Cause) : (s.abort c).epoch = s.epoch := rfl

@[simp] theorem State.finish_cfg : (s.finish).cfg = s.cfg := rfl
@[simp] theorem State.finish_phase : (s.finish).phase = .idle := rfl
@[simp] theorem State.finish_pos : (s.finish).pos = .start := rfl
@[simp] theorem State.finish_buf : (s.finish).buf = s.buf := rfl
@[simp] theorem State.finish_dp : (s.finish).dp = s.dp := rfl
@[simp] theorem State.finish_crcReg : (s.finish).crcReg = s.crcReg := rfl
@[simp] theorem State.finish_periph : (s.finish).periph = s.periph := rfl
@[simp] theorem State.finish_mem : (s.finish).mem = s.mem := rfl
@[simp] theorem State.finish_fmc : (s.finish).fmc = s.fmc := rfl
@[simp] theorem State.finish_host : (s.finish).host = s.host := rfl
@[simp] theorem State.finish_events : (s.finish).events = s.events ++ [.cycleEnd .ok .none] := rfl
@[simp] theorem State.finish_faulted : (s.finish).faulted = s.faulted := rfl
@[simp] theorem State.finish_env : (s.finish).env = s.env := rfl
@[simp] theorem State.finish_epoch : (s.finish).epoch = s.epoch := rfl

@[simp] theorem State.recordSend_cfg (d : SendDraw) (bs : List Byte) : (s.recordSend d bs).cfg = s.cfg := rfl
@[simp] theorem State.recordSend_phase (d : SendDraw) (bs : List Byte) : (s.recordSend d bs).phase = s.phase := rfl
@[simp] theorem State.recordSend_pos (d : SendDraw) (bs : List Byte) : (s.recordSend d bs).pos = s.pos := rfl
@[simp] theorem State.recordSend_buf (d : SendDraw) (bs : List Byte) : (s.recordSend d bs).buf = s.buf := rfl
@[simp] theorem State.recordSend_dp (d : SendDraw) (bs : List Byte) : (s.recordSend d bs).dp = s.dp := rfl
@[simp] theorem State.recordSend_crcReg (d : SendDraw) (bs : List Byte) : (s.recordSend d bs).crcReg = s.crcReg := rfl
@[simp] theorem State.recordSend_periph (d : SendDraw) (bs : List Byte) : (s.recordSend d bs).periph = s.periph := rfl
@[simp] theorem State.recordSend_mem (d : SendDraw) (bs : List Byte) : (s.recordSend d bs).mem = s.mem := rfl
@[simp] theorem State.recordSend_fmc (d : SendDraw) (bs : List Byte) : (s.recordSend d bs).fmc = s.fmc := rfl
@[simp] theorem State.recordSend_host (d : SendDraw) (bs : List Byte) : (s.recordSend d bs).host = { s.host with out := s.host.out ++ sentBytes d bs } := rfl
@[simp] theorem State.recordSend_events (d : SendDraw) (bs : List Byte) : (s.recordSend d bs).events = s.events ++ [sentEvent d bs] := rfl
@[simp] theorem State.recordSend_faulted (d : SendDraw) (bs : List Byte) : (s.recordSend d bs).faulted = s.faulted := rfl
@[simp] theorem State.recordSend_env (d : SendDraw) (bs : List Byte) : (s.recordSend d bs).env = s.env := rfl
@[simp] theorem State.recordSend_epoch (d : SendDraw) (bs : List Byte) : (s.recordSend d bs).epoch = s.epoch := rfl

@[simp] theorem State.takeInput_cfg (k : Nat) : (s.takeInput k).cfg = s.cfg := rfl
@[simp] theorem State.takeInput_phase (k : Nat) : (s.takeInput k).phase = s.phase := rfl
@[simp] theorem State.takeInput_pos (k : Nat) : (s.takeInput k).pos = s.pos := rfl
@[simp] theorem State.takeInput_buf (k : Nat) : (s.takeInput k).buf = s.buf := rfl
@[simp] theorem State.takeInput_dp (k : Nat) : (s.takeInput k).dp = s.dp := rfl
@[simp] theorem State.takeInput_crcReg (k : Nat) : (s.takeInput k).crcReg = s.crcReg := rfl
@[simp] theorem State.takeInput_periph (k : Nat) : (s.takeInput k).periph = s.periph := rfl
@[simp] theorem State.takeInput_mem (k : Nat) : (s.takeInput k).mem = s.mem := rfl
@[simp] theorem State.takeInput_fmc (k : Nat) : (s.takeInput k).fmc = s.fmc := rfl
@[simp] theorem State.takeInput_host (k : Nat) : (s.takeInput k).host = { s.host with inp := s.host.inp.drop k } := rfl
@[simp] theorem State.takeInput_events (k : Nat) : (s.takeInput k).events = s.events := rfl
@[simp] theorem State.takeInput_faulted (k : Nat) : (s.takeInput k).faulted = s.faulted := rfl
@[simp] theorem State.takeInput_env (k : Nat) : (s.takeInput k).env = s.env := rfl
@[simp] theorem State.takeInput_epoch (k : Nat) : (s.takeInput k).epoch = s.epoch := rfl

@[simp] theorem State.ranChecksum_cfg : (s.ranChecksum).cfg = s.cfg := rfl
@[simp] theorem State.ranChecksum_phase : (s.ranChecksum).phase = s.phase := rfl
@[simp] theorem State.ranChecksum_pos : (s.ranChecksum).pos = s.pos := rfl
@[simp] theorem State.ranChecksum_buf : (s.ranChecksum).buf = s.buf := rfl
@[simp] theorem State.ranChecksum_dp : (s.ranChecksum).dp = s.dp := rfl
@[simp] theorem State.ranChecksum_crcReg : (s.ranChecksum).crcReg = packetChecksum s.cfg s.dp.n.toNat s.buf := rfl
@[simp] theorem State.ranChecksum_periph : (s.ranChecksum).periph = s.periph := rfl
@[simp] theorem State.ranChecksum_mem : (s.ranChecksum).mem = s.mem := rfl
@[simp] theorem State.ranChecksum_fmc : (s.ranChecksum).fmc = s.fmc := rfl
@[simp] theorem State.ranChecksum_host : (s.ranChecksum).host = s.host := rfl
@[simp] theorem State.ranChecksum_events : (s.ranChecksum).events = s.events := rfl
@[simp] theorem State.ranChecksum_faulted : (s.ranChecksum).faulted = s.faulted := rfl
@[simp] theorem State.ranChecksum_env : (s.ranChecksum).env = s.env := rfl
@[simp] theorem State.ranChecksum_epoch : (s.ranChecksum).epoch = s.epoch := rfl

@[simp] theorem State.setAddr_cfg (a : Word) : (s.setAddr a).cfg = s.cfg := rfl
@[simp] theorem State.setAddr_phase (a : Word) : (s.setAddr a).phase = s.phase := rfl
@[simp] theorem State.setAddr_pos (a : Word) : (s.setAddr a).pos = s.pos := rfl
@[simp] theorem State.setAddr_buf (a : Word) : (s.setAddr a).buf = s.buf := rfl
@[simp] theorem State.setAddr_dp (a : Word) : (s.setAddr a).dp = { s.dp with addr := a } := rfl
@[simp] theorem State.setAddr_crcReg (a : Word) : (s.setAddr a).crcReg = s.crcReg := rfl
@[simp] theorem State.setAddr_periph (a : Word) : (s.setAddr a).periph = s.periph := rfl
@[simp] theorem State.setAddr_mem (a : Word) : (s.setAddr a).mem = s.mem := rfl
@[simp] theorem State.setAddr_fmc (a : Word) : (s.setAddr a).fmc = s.fmc := rfl
@[simp] theorem State.setAddr_host (a : Word) : (s.setAddr a).host = s.host := rfl
@[simp] theorem State.setAddr_events (a : Word) : (s.setAddr a).events = s.events := rfl
@[simp] theorem State.setAddr_faulted (a : Word) : (s.setAddr a).faulted = s.faulted := rfl
@[simp] theorem State.setAddr_env (a : Word) : (s.setAddr a).env = s.env := rfl
@[simp] theorem State.setAddr_epoch (a : Word) : (s.setAddr a).epoch = s.epoch := rfl

@[simp] theorem State.setCount_cfg (c : Byte) : (s.setCount c).cfg = s.cfg := rfl
@[simp] theorem State.setCount_phase (c : Byte) : (s.setCount c).phase = s.phase := rfl
@[simp] theorem State.setCount_pos (c : Byte) : (s.setCount c).pos = s.pos := rfl
@[simp] theorem State.setCount_buf (c : Byte) : (s.setCount c).buf = s.buf := rfl
@[simp] theorem State.setCount_dp (c : Byte) : (s.setCount c).dp = { s.dp with count := c } := rfl
@[simp] theorem State.setCount_crcReg (c : Byte) : (s.setCount c).crcReg = s.crcReg := rfl
@[simp] theorem State.setCount_periph (c : Byte) : (s.setCount c).periph = s.periph := rfl
@[simp] theorem State.setCount_mem (c : Byte) : (s.setCount c).mem = s.mem := rfl
@[simp] theorem State.setCount_fmc (c : Byte) : (s.setCount c).fmc = s.fmc := rfl
@[simp] theorem State.setCount_host (c : Byte) : (s.setCount c).host = s.host := rfl
@[simp] theorem State.setCount_events (c : Byte) : (s.setCount c).events = s.events := rfl
@[simp] theorem State.setCount_faulted (c : Byte) : (s.setCount c).faulted = s.faulted := rfl
@[simp] theorem State.setCount_env (c : Byte) : (s.setCount c).env = s.env := rfl
@[simp] theorem State.setCount_epoch (c : Byte) : (s.setCount c).epoch = s.epoch := rfl

@[simp] theorem State.setDlen_cfg (n : Nat) : (s.setDlen n).cfg = s.cfg := rfl
@[simp] theorem State.setDlen_phase (n : Nat) : (s.setDlen n).phase = s.phase := rfl
@[simp] theorem State.setDlen_pos (n : Nat) : (s.setDlen n).pos = s.pos := rfl
@[simp] theorem State.setDlen_buf (n : Nat) : (s.setDlen n).buf = s.buf := rfl
@[simp] theorem State.setDlen_dp (n : Nat) : (s.setDlen n).dp = { s.dp with dlen := n } := rfl
@[simp] theorem State.setDlen_crcReg (n : Nat) : (s.setDlen n).crcReg = s.crcReg := rfl
@[simp] theorem State.setDlen_periph (n : Nat) : (s.setDlen n).periph = s.periph := rfl
@[simp] theorem State.setDlen_mem (n : Nat) : (s.setDlen n).mem = s.mem := rfl
@[simp] theorem State.setDlen_fmc (n : Nat) : (s.setDlen n).fmc = s.fmc := rfl
@[simp] theorem State.setDlen_host (n : Nat) : (s.setDlen n).host = s.host := rfl
@[simp] theorem State.setDlen_events (n : Nat) : (s.setDlen n).events = s.events := rfl
@[simp] theorem State.setDlen_faulted (n : Nat) : (s.setDlen n).faulted = s.faulted := rfl
@[simp] theorem State.setDlen_env (n : Nat) : (s.setDlen n).env = s.env := rfl
@[simp] theorem State.setDlen_epoch (n : Nat) : (s.setDlen n).epoch = s.epoch := rfl

@[simp] theorem State.setIndex_cfg (i : Nat) : (s.setIndex i).cfg = s.cfg := rfl
@[simp] theorem State.setIndex_phase (i : Nat) : (s.setIndex i).phase = s.phase := rfl
@[simp] theorem State.setIndex_pos (i : Nat) : (s.setIndex i).pos = s.pos := rfl
@[simp] theorem State.setIndex_buf (i : Nat) : (s.setIndex i).buf = s.buf := rfl
@[simp] theorem State.setIndex_dp (i : Nat) : (s.setIndex i).dp = { s.dp with i := i } := rfl
@[simp] theorem State.setIndex_crcReg (i : Nat) : (s.setIndex i).crcReg = s.crcReg := rfl
@[simp] theorem State.setIndex_periph (i : Nat) : (s.setIndex i).periph = s.periph := rfl
@[simp] theorem State.setIndex_mem (i : Nat) : (s.setIndex i).mem = s.mem := rfl
@[simp] theorem State.setIndex_fmc (i : Nat) : (s.setIndex i).fmc = s.fmc := rfl
@[simp] theorem State.setIndex_host (i : Nat) : (s.setIndex i).host = s.host := rfl
@[simp] theorem State.setIndex_events (i : Nat) : (s.setIndex i).events = s.events := rfl
@[simp] theorem State.setIndex_faulted (i : Nat) : (s.setIndex i).faulted = s.faulted := rfl
@[simp] theorem State.setIndex_env (i : Nat) : (s.setIndex i).env = s.env := rfl
@[simp] theorem State.setIndex_epoch (i : Nat) : (s.setIndex i).epoch = s.epoch := rfl

@[simp] theorem State.setDataWord_cfg (w : Word) : (s.setDataWord w).cfg = s.cfg := rfl
@[simp] theorem State.setDataWord_phase (w : Word) : (s.setDataWord w).phase = s.phase := rfl
@[simp] theorem State.setDataWord_pos (w : Word) : (s.setDataWord w).pos = s.pos := rfl
@[simp] theorem State.setDataWord_buf (w : Word) : (s.setDataWord w).buf = s.buf := rfl
@[simp] theorem State.setDataWord_dp (w : Word) : (s.setDataWord w).dp = { s.dp with w := w } := rfl
@[simp] theorem State.setDataWord_crcReg (w : Word) : (s.setDataWord w).crcReg = s.crcReg := rfl
@[simp] theorem State.setDataWord_periph (w : Word) : (s.setDataWord w).periph = s.periph := rfl
@[simp] theorem State.setDataWord_mem (w : Word) : (s.setDataWord w).mem = s.mem := rfl
@[simp] theorem State.setDataWord_fmc (w : Word) : (s.setDataWord w).fmc = s.fmc := rfl
@[simp] theorem State.setDataWord_host (w : Word) : (s.setDataWord w).host = s.host := rfl
@[simp] theorem State.setDataWord_events (w : Word) : (s.setDataWord w).events = s.events := rfl
@[simp] theorem State.setDataWord_faulted (w : Word) : (s.setDataWord w).faulted = s.faulted := rfl
@[simp] theorem State.setDataWord_env (w : Word) : (s.setDataWord w).env = s.env := rfl
@[simp] theorem State.setDataWord_epoch (w : Word) : (s.setDataWord w).epoch = s.epoch := rfl

@[simp] theorem State.setMsp_cfg (w : Word) : (s.setMsp w).cfg = s.cfg := rfl
@[simp] theorem State.setMsp_phase (w : Word) : (s.setMsp w).phase = s.phase := rfl
@[simp] theorem State.setMsp_pos (w : Word) : (s.setMsp w).pos = s.pos := rfl
@[simp] theorem State.setMsp_buf (w : Word) : (s.setMsp w).buf = s.buf := rfl
@[simp] theorem State.setMsp_dp (w : Word) : (s.setMsp w).dp = { s.dp with msp := w } := rfl
@[simp] theorem State.setMsp_crcReg (w : Word) : (s.setMsp w).crcReg = s.crcReg := rfl
@[simp] theorem State.setMsp_periph (w : Word) : (s.setMsp w).periph = s.periph := rfl
@[simp] theorem State.setMsp_mem (w : Word) : (s.setMsp w).mem = s.mem := rfl
@[simp] theorem State.setMsp_fmc (w : Word) : (s.setMsp w).fmc = s.fmc := rfl
@[simp] theorem State.setMsp_host (w : Word) : (s.setMsp w).host = s.host := rfl
@[simp] theorem State.setMsp_events (w : Word) : (s.setMsp w).events = s.events := rfl
@[simp] theorem State.setMsp_faulted (w : Word) : (s.setMsp w).faulted = s.faulted := rfl
@[simp] theorem State.setMsp_env (w : Word) : (s.setMsp w).env = s.env := rfl
@[simp] theorem State.setMsp_epoch (w : Word) : (s.setMsp w).epoch = s.epoch := rfl

@[simp] theorem State.setStatus_cfg (st : Status) : (s.setStatus st).cfg = s.cfg := rfl
@[simp] theorem State.setStatus_phase (st : Status) : (s.setStatus st).phase = s.phase := rfl
@[simp] theorem State.setStatus_pos (st : Status) : (s.setStatus st).pos = s.pos := rfl
@[simp] theorem State.setStatus_buf (st : Status) : (s.setStatus st).buf = s.buf := rfl
@[simp] theorem State.setStatus_dp (st : Status) : (s.setStatus st).dp = { s.dp with st := st } := rfl
@[simp] theorem State.setStatus_crcReg (st : Status) : (s.setStatus st).crcReg = s.crcReg := rfl
@[simp] theorem State.setStatus_periph (st : Status) : (s.setStatus st).periph = s.periph := rfl
@[simp] theorem State.setStatus_mem (st : Status) : (s.setStatus st).mem = s.mem := rfl
@[simp] theorem State.setStatus_fmc (st : Status) : (s.setStatus st).fmc = s.fmc := rfl
@[simp] theorem State.setStatus_host (st : Status) : (s.setStatus st).host = s.host := rfl
@[simp] theorem State.setStatus_events (st : Status) : (s.setStatus st).events = s.events := rfl
@[simp] theorem State.setStatus_faulted (st : Status) : (s.setStatus st).faulted = s.faulted := rfl
@[simp] theorem State.setStatus_env (st : Status) : (s.setStatus st).env = s.env := rfl
@[simp] theorem State.setStatus_epoch (st : Status) : (s.setStatus st).epoch = s.epoch := rfl

@[simp] theorem State.setLength_cfg (n : Byte) : (s.setLength n).cfg = s.cfg := rfl
@[simp] theorem State.setLength_phase (n : Byte) : (s.setLength n).phase = s.phase := rfl
@[simp] theorem State.setLength_pos (n : Byte) : (s.setLength n).pos = s.pos := rfl
@[simp] theorem State.setLength_buf (n : Byte) : (s.setLength n).buf = s.buf := rfl
@[simp] theorem State.setLength_dp (n : Byte) : (s.setLength n).dp = { s.dp with n := n } := rfl
@[simp] theorem State.setLength_crcReg (n : Byte) : (s.setLength n).crcReg = s.crcReg := rfl
@[simp] theorem State.setLength_periph (n : Byte) : (s.setLength n).periph = s.periph := rfl
@[simp] theorem State.setLength_mem (n : Byte) : (s.setLength n).mem = s.mem := rfl
@[simp] theorem State.setLength_fmc (n : Byte) : (s.setLength n).fmc = s.fmc := rfl
@[simp] theorem State.setLength_host (n : Byte) : (s.setLength n).host = s.host := rfl
@[simp] theorem State.setLength_events (n : Byte) : (s.setLength n).events = s.events := rfl
@[simp] theorem State.setLength_faulted (n : Byte) : (s.setLength n).faulted = s.faulted := rfl
@[simp] theorem State.setLength_env (n : Byte) : (s.setLength n).env = s.env := rfl
@[simp] theorem State.setLength_epoch (n : Byte) : (s.setLength n).epoch = s.epoch := rfl

@[simp] theorem State.setOpcode_cfg (o : Byte) : (s.setOpcode o).cfg = s.cfg := rfl
@[simp] theorem State.setOpcode_phase (o : Byte) : (s.setOpcode o).phase = s.phase := rfl
@[simp] theorem State.setOpcode_pos (o : Byte) : (s.setOpcode o).pos = s.pos := rfl
@[simp] theorem State.setOpcode_buf (o : Byte) : (s.setOpcode o).buf = s.buf := rfl
@[simp] theorem State.setOpcode_dp (o : Byte) : (s.setOpcode o).dp = { s.dp with op := o } := rfl
@[simp] theorem State.setOpcode_crcReg (o : Byte) : (s.setOpcode o).crcReg = s.crcReg := rfl
@[simp] theorem State.setOpcode_periph (o : Byte) : (s.setOpcode o).periph = s.periph := rfl
@[simp] theorem State.setOpcode_mem (o : Byte) : (s.setOpcode o).mem = s.mem := rfl
@[simp] theorem State.setOpcode_fmc (o : Byte) : (s.setOpcode o).fmc = s.fmc := rfl
@[simp] theorem State.setOpcode_host (o : Byte) : (s.setOpcode o).host = s.host := rfl
@[simp] theorem State.setOpcode_events (o : Byte) : (s.setOpcode o).events = s.events := rfl
@[simp] theorem State.setOpcode_faulted (o : Byte) : (s.setOpcode o).faulted = s.faulted := rfl
@[simp] theorem State.setOpcode_env (o : Byte) : (s.setOpcode o).env = s.env := rfl
@[simp] theorem State.setOpcode_epoch (o : Byte) : (s.setOpcode o).epoch = s.epoch := rfl

@[simp] theorem State.setBuf_cfg (b : List Byte) : (s.setBuf b).cfg = s.cfg := rfl
@[simp] theorem State.setBuf_phase (b : List Byte) : (s.setBuf b).phase = s.phase := rfl
@[simp] theorem State.setBuf_pos (b : List Byte) : (s.setBuf b).pos = s.pos := rfl
@[simp] theorem State.setBuf_buf (b : List Byte) : (s.setBuf b).buf = b := rfl
@[simp] theorem State.setBuf_dp (b : List Byte) : (s.setBuf b).dp = s.dp := rfl
@[simp] theorem State.setBuf_crcReg (b : List Byte) : (s.setBuf b).crcReg = s.crcReg := rfl
@[simp] theorem State.setBuf_periph (b : List Byte) : (s.setBuf b).periph = s.periph := rfl
@[simp] theorem State.setBuf_mem (b : List Byte) : (s.setBuf b).mem = s.mem := rfl
@[simp] theorem State.setBuf_fmc (b : List Byte) : (s.setBuf b).fmc = s.fmc := rfl
@[simp] theorem State.setBuf_host (b : List Byte) : (s.setBuf b).host = s.host := rfl
@[simp] theorem State.setBuf_events (b : List Byte) : (s.setBuf b).events = s.events := rfl
@[simp] theorem State.setBuf_faulted (b : List Byte) : (s.setBuf b).faulted = s.faulted := rfl
@[simp] theorem State.setBuf_env (b : List Byte) : (s.setBuf b).env = s.env := rfl
@[simp] theorem State.setBuf_epoch (b : List Byte) : (s.setBuf b).epoch = s.epoch := rfl

@[simp] theorem State.setFmc_cfg (f : Fmc) : (s.setFmc f).cfg = s.cfg := rfl
@[simp] theorem State.setFmc_phase (f : Fmc) : (s.setFmc f).phase = s.phase := rfl
@[simp] theorem State.setFmc_pos (f : Fmc) : (s.setFmc f).pos = s.pos := rfl
@[simp] theorem State.setFmc_buf (f : Fmc) : (s.setFmc f).buf = s.buf := rfl
@[simp] theorem State.setFmc_dp (f : Fmc) : (s.setFmc f).dp = s.dp := rfl
@[simp] theorem State.setFmc_crcReg (f : Fmc) : (s.setFmc f).crcReg = s.crcReg := rfl
@[simp] theorem State.setFmc_periph (f : Fmc) : (s.setFmc f).periph = s.periph := rfl
@[simp] theorem State.setFmc_mem (f : Fmc) : (s.setFmc f).mem = s.mem := rfl
@[simp] theorem State.setFmc_fmc (f : Fmc) : (s.setFmc f).fmc = f := rfl
@[simp] theorem State.setFmc_host (f : Fmc) : (s.setFmc f).host = s.host := rfl
@[simp] theorem State.setFmc_events (f : Fmc) : (s.setFmc f).events = s.events := rfl
@[simp] theorem State.setFmc_faulted (f : Fmc) : (s.setFmc f).faulted = s.faulted := rfl
@[simp] theorem State.setFmc_env (f : Fmc) : (s.setFmc f).env = s.env := rfl
@[simp] theorem State.setFmc_epoch (f : Fmc) : (s.setFmc f).epoch = s.epoch := rfl

@[simp] theorem State.setWordAt_cfg (a w : Word) : (s.setWordAt a w).cfg = s.cfg := rfl
@[simp] theorem State.setWordAt_phase (a w : Word) : (s.setWordAt a w).phase = s.phase := rfl
@[simp] theorem State.setWordAt_pos (a w : Word) : (s.setWordAt a w).pos = s.pos := rfl
@[simp] theorem State.setWordAt_buf (a w : Word) : (s.setWordAt a w).buf = s.buf := rfl
@[simp] theorem State.setWordAt_dp (a w : Word) : (s.setWordAt a w).dp = s.dp := rfl
@[simp] theorem State.setWordAt_crcReg (a w : Word) : (s.setWordAt a w).crcReg = s.crcReg := rfl
@[simp] theorem State.setWordAt_periph (a w : Word) : (s.setWordAt a w).periph = s.periph := rfl
@[simp] theorem State.setWordAt_mem (a w : Word) : (s.setWordAt a w).mem = Memory.setWord s.cfg s.mem a.toNat w := rfl
@[simp] theorem State.setWordAt_fmc (a w : Word) : (s.setWordAt a w).fmc = s.fmc := rfl
@[simp] theorem State.setWordAt_host (a w : Word) : (s.setWordAt a w).host = s.host := rfl
@[simp] theorem State.setWordAt_events (a w : Word) : (s.setWordAt a w).events = s.events := rfl
@[simp] theorem State.setWordAt_faulted (a w : Word) : (s.setWordAt a w).faulted = s.faulted := rfl
@[simp] theorem State.setWordAt_env (a w : Word) : (s.setWordAt a w).env = s.env := rfl
@[simp] theorem State.setWordAt_epoch (a w : Word) : (s.setWordAt a w).epoch = s.epoch := rfl

@[simp] theorem State.drewWords_cfg (n : Nat) : (s.drewWords n).cfg = s.cfg := rfl
@[simp] theorem State.drewWords_phase (n : Nat) : (s.drewWords n).phase = s.phase := rfl
@[simp] theorem State.drewWords_pos (n : Nat) : (s.drewWords n).pos = s.pos := rfl
@[simp] theorem State.drewWords_buf (n : Nat) : (s.drewWords n).buf = s.buf := rfl
@[simp] theorem State.drewWords_dp (n : Nat) : (s.drewWords n).dp = s.dp := rfl
@[simp] theorem State.drewWords_crcReg (n : Nat) : (s.drewWords n).crcReg = s.crcReg := rfl
@[simp] theorem State.drewWords_periph (n : Nat) : (s.drewWords n).periph = s.periph := rfl
@[simp] theorem State.drewWords_mem (n : Nat) : (s.drewWords n).mem = s.mem := rfl
@[simp] theorem State.drewWords_fmc (n : Nat) : (s.drewWords n).fmc = s.fmc := rfl
@[simp] theorem State.drewWords_host (n : Nat) : (s.drewWords n).host = s.host := rfl
@[simp] theorem State.drewWords_events (n : Nat) : (s.drewWords n).events = s.events := rfl
@[simp] theorem State.drewWords_faulted (n : Nat) : (s.drewWords n).faulted = s.faulted := rfl
@[simp] theorem State.drewWords_env (n : Nat) : (s.drewWords n).env = { s.env with drawn := s.env.drawn + n } := rfl
@[simp] theorem State.drewWords_epoch (n : Nat) : (s.drewWords n).epoch = s.epoch := rfl

@[simp] theorem State.sendDrawn_cfg : s.sendDrawn.cfg = s.cfg := by unfold State.sendDrawn; split <;> rfl
@[simp] theorem State.sendDrawn_phase : s.sendDrawn.phase = s.phase := by unfold State.sendDrawn; split <;> rfl
@[simp] theorem State.sendDrawn_pos : s.sendDrawn.pos = s.pos := by unfold State.sendDrawn; split <;> rfl
@[simp] theorem State.sendDrawn_buf : s.sendDrawn.buf = s.buf := by unfold State.sendDrawn; split <;> rfl
@[simp] theorem State.sendDrawn_dp : s.sendDrawn.dp = s.dp := by unfold State.sendDrawn; split <;> rfl
@[simp] theorem State.sendDrawn_crcReg : s.sendDrawn.crcReg = s.crcReg := by unfold State.sendDrawn; split <;> rfl
@[simp] theorem State.sendDrawn_periph : s.sendDrawn.periph = s.periph := by unfold State.sendDrawn; split <;> rfl
@[simp] theorem State.sendDrawn_mem : s.sendDrawn.mem = s.mem := by unfold State.sendDrawn; split <;> rfl
@[simp] theorem State.sendDrawn_fmc : s.sendDrawn.fmc = s.fmc := by unfold State.sendDrawn; split <;> rfl
@[simp] theorem State.sendDrawn_host : s.sendDrawn.host = s.host := by unfold State.sendDrawn; split <;> rfl
@[simp] theorem State.sendDrawn_events : s.sendDrawn.events = s.events := by unfold State.sendDrawn; split <;> rfl
@[simp] theorem State.sendDrawn_faulted : s.sendDrawn.faulted = s.faulted := by unfold State.sendDrawn; split <;> rfl
@[simp] theorem State.sendDrawn_epoch : s.sendDrawn.epoch = s.epoch := by unfold State.sendDrawn; split <;> rfl

@[simp] theorem debugNote_cfg : (debugNote s).cfg = s.cfg := rfl
@[simp] theorem debugNote_phase : (debugNote s).phase = s.phase := rfl
@[simp] theorem debugNote_pos : (debugNote s).pos = s.pos := rfl
@[simp] theorem debugNote_buf : (debugNote s).buf = s.buf := rfl
@[simp] theorem debugNote_dp : (debugNote s).dp = s.dp := rfl
@[simp] theorem debugNote_crcReg : (debugNote s).crcReg = s.crcReg := rfl
@[simp] theorem debugNote_periph : (debugNote s).periph = s.periph := rfl
@[simp] theorem debugNote_mem : (debugNote s).mem = s.mem := rfl
@[simp] theorem debugNote_fmc : (debugNote s).fmc = s.fmc := rfl
@[simp] theorem debugNote_host : (debugNote s).host = s.host := rfl
@[simp] theorem debugNote_events : (debugNote s).events = s.events ++ [.debugOut (Config.freeNote s.env.drawn)] := rfl
@[simp] theorem debugNote_faulted : (debugNote s).faulted = s.faulted := rfl
@[simp] theorem debugNote_env : (debugNote s).env = { s.env with drawn := s.env.drawn + 1 } := rfl
@[simp] theorem debugNote_epoch : (debugNote s).epoch = s.epoch := rfl

@[simp] theorem deinitialise_cfg : (deinitialise s).cfg = s.cfg := rfl
@[simp] theorem deinitialise_phase : (deinitialise s).phase = s.phase := rfl
@[simp] theorem deinitialise_pos : (deinitialise s).pos = s.pos := rfl
@[simp] theorem deinitialise_buf : (deinitialise s).buf = s.buf := rfl
@[simp] theorem deinitialise_dp : (deinitialise s).dp = s.dp := rfl
@[simp] theorem deinitialise_crcReg : (deinitialise s).crcReg = s.crcReg := rfl
@[simp] theorem deinitialise_periph : (deinitialise s).periph = { clocks := false, transport := false, checksum := false } := rfl
@[simp] theorem deinitialise_mem : (deinitialise s).mem = s.mem := rfl
@[simp] theorem deinitialise_fmc : (deinitialise s).fmc = s.fmc := rfl
@[simp] theorem deinitialise_host : (deinitialise s).host = s.host := rfl
@[simp] theorem deinitialise_events : (deinitialise s).events = s.events ++ [.deinit .clocks] ++ [.deinit .transport] ++ [.deinit .checksum] := rfl
@[simp] theorem deinitialise_faulted : (deinitialise s).faulted = s.faulted := rfl
@[simp] theorem deinitialise_env : (deinitialise s).env = s.env := rfl
@[simp] theorem deinitialise_epoch : (deinitialise s).epoch = s.epoch := rfl

@[simp] theorem clearBuf_cfg : (clearBuf s).cfg = s.cfg := rfl
@[simp] theorem clearBuf_phase : (clearBuf s).phase = s.phase := rfl
@[simp] theorem clearBuf_pos : (clearBuf s).pos = s.pos := rfl
@[simp] theorem clearBuf_buf : (clearBuf s).buf = List.replicate s.cfg.rxCap s.cfg.rxSentinel := rfl
@[simp] theorem clearBuf_dp : (clearBuf s).dp = s.dp := rfl
@[simp] theorem clearBuf_crcReg : (clearBuf s).crcReg = s.crcReg := rfl
@[simp] theorem clearBuf_periph : (clearBuf s).periph = s.periph := rfl
@[simp] theorem clearBuf_mem : (clearBuf s).mem = s.mem := rfl
@[simp] theorem clearBuf_fmc : (clearBuf s).fmc = s.fmc := rfl
@[simp] theorem clearBuf_host : (clearBuf s).host = s.host := rfl
@[simp] theorem clearBuf_events : (clearBuf s).events = s.events := rfl
@[simp] theorem clearBuf_faulted : (clearBuf s).faulted = s.faulted := rfl
@[simp] theorem clearBuf_env : (clearBuf s).env = s.env := rfl
@[simp] theorem clearBuf_epoch : (clearBuf s).epoch = s.epoch := rfl

@[simp] theorem dispatched_cfg : (dispatched s).cfg = s.cfg := rfl
@[simp] theorem dispatched_phase : (dispatched s).phase = .dispatched := rfl
@[simp] theorem dispatched_pos : (dispatched s).pos = .start := rfl
@[simp] theorem dispatched_buf : (dispatched s).buf = s.buf := rfl
@[simp] theorem dispatched_dp : (dispatched s).dp = { s.dp with op := bufByte s.cfg s.buf 1 } := rfl
@[simp] theorem dispatched_crcReg : (dispatched s).crcReg = s.crcReg := rfl
@[simp] theorem dispatched_periph : (dispatched s).periph = s.periph := rfl
@[simp] theorem dispatched_mem : (dispatched s).mem = s.mem := rfl
@[simp] theorem dispatched_fmc : (dispatched s).fmc = s.fmc := rfl
@[simp] theorem dispatched_host : (dispatched s).host = s.host := rfl
@[simp] theorem dispatched_events : (dispatched s).events = s.events := rfl
@[simp] theorem dispatched_faulted : (dispatched s).faulted = s.faulted := rfl
@[simp] theorem dispatched_env : (dispatched s).env = s.env := rfl
@[simp] theorem dispatched_epoch : (dispatched s).epoch = s.epoch := rfl

@[simp] theorem transfer_cfg (m : Option Word) (t : Word) : (transfer m t s).cfg = s.cfg := rfl
@[simp] theorem transfer_phase (m : Option Word) (t : Word) : (transfer m t s).phase = .transferred := rfl
@[simp] theorem transfer_pos (m : Option Word) (t : Word) : (transfer m t s).pos = .start := rfl
@[simp] theorem transfer_buf (m : Option Word) (t : Word) : (transfer m t s).buf = s.buf := rfl
@[simp] theorem transfer_dp (m : Option Word) (t : Word) : (transfer m t s).dp = s.dp := rfl
@[simp] theorem transfer_crcReg (m : Option Word) (t : Word) : (transfer m t s).crcReg = s.crcReg := rfl
@[simp] theorem transfer_periph (m : Option Word) (t : Word) : (transfer m t s).periph = s.periph := rfl
@[simp] theorem transfer_mem (m : Option Word) (t : Word) : (transfer m t s).mem = s.mem := rfl
@[simp] theorem transfer_fmc (m : Option Word) (t : Word) : (transfer m t s).fmc = s.fmc := rfl
@[simp] theorem transfer_host (m : Option Word) (t : Word) : (transfer m t s).host = s.host := rfl
@[simp] theorem transfer_events (m : Option Word) (t : Word) : (transfer m t s).events = s.events ++ [.transfer m t] := rfl
@[simp] theorem transfer_faulted (m : Option Word) (t : Word) : (transfer m t s).faulted = s.faulted := rfl
@[simp] theorem transfer_env (m : Option Word) (t : Word) : (transfer m t s).env = s.env := rfl
@[simp] theorem transfer_epoch (m : Option Word) (t : Word) : (transfer m t s).epoch = s.epoch := rfl

end Updates

end Sys2Proof.Machine
end

