-- ==== Sys2Proof/Laws/Ops.lean ====
section
/-! SUPPORT. What each shared primitive of Machine/Ops.lean can do, said once: flows, `Send`, `Recv`, the checksum prologue (spec
00_scope.md R13, R14; 41_framer_dispatch.md R158). -/

namespace Sys2Proof.Machine

section Flows

variable {α β γ : Type}

@[simp] theorem Flow.bind_go (a : α) (s : State) (k : α → State → Flow β) : (Flow.go a s).bind k = k a s := rfl
@[simp] theorem Flow.bind_stop (s : State) (k : α → State → Flow β) : (Flow.stop s : Flow α).bind k = .stop s := rfl
@[simp] theorem Flow.bind_fault (f : Fault) (k : α → State → Flow β) : (Flow.fault f : Flow α).bind k = .fault f := rfl
@[simp] theorem Flow.outcome_go (a : Unit) (s : State) : (Flow.go a s).outcome = .next s := rfl
@[simp] theorem Flow.outcome_stop (s : State) : (Flow.stop s : Flow Unit).outcome = .next s := rfl
@[simp] theorem Flow.outcome_fault (f : Fault) : (Flow.fault f : Flow Unit).outcome = .fault f := rfl

theorem Flow.bind_assoc (x : Flow α) (k : α → State → Flow β) (l : β → State → Flow γ) :
    (x.bind k).bind l = x.bind fun a s => (k a s).bind l := by
  cases x <;> rfl

/-- Where a flow goes on, `P` holds of its value and state; where the step ends in it, `Q` holds of the state; where it faults, `F` holds
of the fault. -/
def Flow.Meets (P : α → State → Prop) (Q : State → Prop) (F : Fault → Prop) : Flow α → Prop
  | .go a s  => P a s
  | .stop s  => Q s
  | .fault f => F f

variable {P : α → State → Prop} {Q : State → Prop} {F : Fault → Prop}

@[simp] theorem Flow.meets_go {a : α} {s : State} : (Flow.go a s).Meets P Q F ↔ P a s := Iff.rfl
@[simp] theorem Flow.meets_stop {s : State} : (Flow.stop s : Flow α).Meets P Q F ↔ Q s := Iff.rfl
@[simp] theorem Flow.meets_fault {f : Fault} : (Flow.fault f : Flow α).Meets P Q F ↔ F f := Iff.rfl

/-- The rule of sequence: what the first part ends in meets what the second part needs. -/
theorem Flow.Meets.bind {P' : β → State → Prop} {x : Flow α} {k : α → State → Flow β} (hx : x.Meets P Q F)
    (hk : ∀ a s, P a s → (k a s).Meets P' Q F) : (x.bind k).Meets P' Q F := by
  cases x with
  | go a s => exact hk a s hx
  | stop s => exact hx
  | fault f => exact hx

theorem Flow.Meets.mono {P' : α → State → Prop} {Q' : State → Prop} {F' : Fault → Prop} {x : Flow α} (hx : x.Meets P Q F)
    (hP : ∀ a s, P a s → P' a s) (hQ : ∀ s, Q s → Q' s) (hF : ∀ f, F f → F' f) : x.Meets P' Q' F' := by
  cases x with
  | go a s => exact hP a s hx
  | stop s => exact hQ s hx
  | fault f => exact hF f hx

/-- A handler's outcome: a next state its flow goes on or ends in, or its fault. -/
theorem Flow.Meets.outcome {P : Unit → State → Prop} {Q R : State → Prop} {x : Flow Unit} (hx : x.Meets P Q F)
    (hP : ∀ s, P () s → R s) (hQ : ∀ s, Q s → R s) :
    (∃ t, x.outcome = .next t ∧ R t) ∨ ∃ f, x.outcome = .fault f ∧ F f := by
  cases x with
  | go a s => exact .inl ⟨s, rfl, hP s hx⟩
  | stop s => exact .inl ⟨s, rfl, hQ s hx⟩
  | fault f => exact .inr ⟨f, rfl, hx⟩

end Flows

/-! ### Send -/

/-- All a `Send` can do (R14, R162, R307): go on with the bytes recorded, or, under ABORT and failed, end the cycle. -/
theorem send_cases (bs : List Byte) (s : State) :
    send bs s = .go () (s.sendDrawn.recordSend s.sendChoice bs) ∨
    (s.cfg.sendFailPolicy = .abort ∧ (∃ k, s.sendChoice = .failure k) ∧
      send bs s = .stop ((s.sendDrawn.recordSend s.sendChoice bs).abort .transportFailure)) := by
  unfold send
  cases hp : s.cfg.sendFailPolicy
  · exact .inl rfl
  · cases hc : s.sendChoice with
    | success => exact .inl rfl
    | failure k => exact .inr ⟨rfl, ⟨k, rfl⟩, rfl⟩

/-- Under IGNORE a `Send` always goes on (R162). -/
theorem send_ignore {bs : List Byte} {s : State} (h : s.cfg.sendFailPolicy = .ignore) :
    send bs s = .go () (s.sendDrawn.recordSend s.sendChoice bs) := by
  rcases send_cases bs s with h' | ⟨hp, -⟩
  · exact h'
  · rw [h] at hp; cases hp

/-- The state after a successful send. -/
def State.sent (s : State) (bs : List Byte) (ds : List SendDraw) : State :=
  { s with host := { s.host with out := s.host.out ++ bs }, events := s.events ++ [.sent bs], env := { s.env with sends := ds } }

/-- A `Send` the host lets succeed appends its bytes and records `Sent` (R14). -/
theorem send_success {bs : List Byte} {s : State} {ds : List SendDraw} (h : s.env.sends = .success :: ds) :
    send bs s = .go () (s.sent bs ds) := by
  have hc : s.sendChoice = .success := by unfold State.sendChoice; rw [h]
  have hd : s.sendDrawn = { s with env := { s.env with sends := ds } } := by unfold State.sendDrawn; rw [h]
  unfold send
  rw [hc, hd]
  cases s.cfg.sendFailPolicy <;> rfl

/-- Under ABORT a `Send` the host makes fail ends the cycle, the host holding a prefix of the bytes (R14, R307). -/
theorem send_failure {bs : List Byte} {s : State} {k : Nat} {ds : List SendDraw} (hp : s.cfg.sendFailPolicy = .abort)
    (h : s.env.sends = .failure k :: ds) :
    send bs s = .stop { s with
      phase := .idle, pos := .start, host := { s.host with out := s.host.out ++ bs.take k },
      events := s.events ++ [.sentFailed bs, .cycleEnd .notOk .transportFailure], env := { s.env with sends := ds } } := by
  have hc : s.sendChoice = .failure k := by unfold State.sendChoice; rw [h]
  have hd : s.sendDrawn = { s with env := { s.env with sends := ds } } := by unfold State.sendDrawn; rw [h]
  unfold send
  rw [hc, hd, hp]
  simp [State.recordSend, State.abort, State.emit, State.setPhase, State.setPos, sentBytes, sentEvent]

/-- What a `Send` changes of a state that goes on: the port, the events and the draws (R14). -/
theorem recordSend_frame (s : State) (bs : List Byte) : s.sendDrawn.recordSend s.sendChoice bs = { s with
    host := (s.sendDrawn.recordSend s.sendChoice bs).host, events := (s.sendDrawn.recordSend s.sendChoice bs).events,
    env := (s.sendDrawn.recordSend s.sendChoice bs).env } := by
  unfold State.sendDrawn
  split <;> rfl

/-! ### Recv -/

/-- All a `Recv(n)` with `n ≥ 1` can do (R13). -/
theorem recv_cases {n : Nat} (hn : n ≠ 0) (s : State) :
    (∃ k rest, s.env.recvs = .fail k :: rest ∧
      recv n s = .failed ({ s with env := { s.env with recvs := rest } }.takeInput (min k n))) ∨
    ((∀ k rest, s.env.recvs ≠ .fail k :: rest) ∧ n ≤ s.host.inp.length ∧
      recv n s = .bytes (s.host.inp.take n) ({ s with env := { s.env with recvs := s.env.recvs.tail } }.takeInput n)) ∨
    ((∀ k rest, s.env.recvs ≠ .fail k :: rest) ∧ s.host.inp.length < n ∧ recv n s = .waiting) := by
  unfold recv
  rw [if_neg hn]
  split
  · next k rest h => exact .inl ⟨k, rest, h, rfl⟩
  · next h =>
    by_cases hl : n ≤ s.host.inp.length
    · exact .inr (.inl ⟨h, hl, by rw [if_pos hl]⟩)
    · exact .inr (.inr ⟨h, by omega, by rw [if_neg hl]⟩)

theorem recv_zero (s : State) : recv 0 s = .bytes [] s := rfl

/-! ### The checksum prologue -/

theorem checksumPrologue_ok {nack : Bool} {s : State} (h : s.checksumOk = true) :
    checksumPrologue nack s = .go () s.ranChecksum := by
  unfold checksumPrologue; rw [if_pos h]

theorem checksumPrologue_silent {s : State} (h : s.checksumOk = false) :
    checksumPrologue false s = .stop (s.ranChecksum.abort .checksumMismatch) := by
  unfold checksumPrologue; simp [h]

theorem checksumPrologue_nack {s : State} (h : s.checksumOk = false) :
    checksumPrologue true s = (send [byteNack] s.ranChecksum).bind fun _ s => .stop (s.abort .checksumMismatch) := by
  unfold checksumPrologue; simp [h]

end Sys2Proof.Machine
end

