-- ==== Sys2Proof/Laws/Controller.lean ====
section
/-! SUPPORT. What the FMC's operations and the Flash Programmer's primitives can do (spec 44_flash_controller.md R221 to R244), one lemma
per operation and case. -/

namespace Sys2Proof.Machine

open Sys2Proof.Safety

/-! ### Masks -/

theorem and_eq_zero_of_sub {r m c : Word} (h : r &&& m = 0#32) (hc : m &&& c = c) : r &&& c = 0#32 := by
  rw [← hc, ← BitVec.and_assoc, h, BitVec.zero_and]

/-- A register whose bits outside a mask are 0 is its part under the mask. -/
theorem eq_and_of_and_not {r m : Word} (h : r &&& ~~~m = 0#32) : r = r &&& m := by
  have : r = (r &&& m) ||| (r &&& ~~~m) := by
    rw [← BitVec.and_or_distrib_left, BitVec.or_not_self, BitVec.and_allOnes]
  rw [this, h, BitVec.or_zero, BitVec.and_assoc, BitVec.and_self]

/-- A field replaced outside a mask leaves the bits under it. -/
theorem setField_and_of_disjoint {r m v c : Word} (h : m &&& c = 0#32) : setField r m v &&& c = r &&& c := by
  apply BitVec.eq_of_getLsbD_eq
  intro i hi
  have := congrArg (fun x : Word => x.getLsbD i) h
  simp [setField, hi] at this ⊢
  cases hm : m.getLsbD i <;> simp_all

/-- A field replaced reads as what was written. -/
theorem setField_and_of_sub {r m v c : Word} (h : m &&& c = c) : setField r m v &&& c = v &&& c := by
  apply BitVec.eq_of_getLsbD_eq
  intro i hi
  have := congrArg (fun x : Word => x.getLsbD i) h
  simp [setField, hi] at this ⊢
  cases hm : m.getLsbD i <;> simp_all

theorem hasBits_eq_false {r m : Word} (h : r &&& m = 0#32) : hasBits r m = false := by
  simp [hasBits, h]

theorem hasBits_eq_true {r m : Word} (h : r &&& m ≠ 0#32) : hasBits r m = true := by
  simp [hasBits, h]

/-! ### The registers as they read -/

variable {f : Fmc}

theorem Fmc.busy_eq_false : f.busy = false ↔ f.op = .noOp := by simp [Fmc.busy]

theorem Fmc.busy_eq_true : f.busy = true ↔ f.op ≠ .noOp := by simp [Fmc.busy]

theorem Fmc.locked_eq_false : f.locked = false ↔ f.lockst = .unlocked := by simp [Fmc.locked]

theorem Fmc.locked_eq_true : f.locked = true ↔ f.lockst ≠ .unlocked := by simp [Fmc.locked]

/-- The error flags read as they are stored (R230). -/
theorem Fmc.readSr_errors (f : Fmc) : f.readSr &&& errMask = f.sr &&& errMask := by
  unfold Fmc.readSr
  rw [BitVec.and_or_distrib_right, BitVec.and_assoc, show srStored &&& errMask = errMask by decide,
    show (if f.busy = true then srBsy else 0#32) &&& errMask = 0#32 by split <;> decide, BitVec.or_zero]

/-- Writing back the error flags just read clears exactly them (R229, R240). -/
theorem Fmc.writeSr_errors (f : Fmc) : f.writeSr (f.sr &&& errMask) = { f with sr := f.sr &&& ~~~errMask } := by
  unfold Fmc.writeSr
  rw [BitVec.and_assoc, show errMask &&& srStored = errMask by decide]
  congr 1
  apply BitVec.eq_of_getLsbD_eq
  intro i hi
  simp only [BitVec.getLsbD_and, BitVec.getLsbD_not, hi]
  cases f.sr.getLsbD i <;> simp

/-- With nothing in flight, `CR` reads its stored fields and `LOCK` (R231). -/
theorem Fmc.readCr_idle (h : f.op = .noOp) :
    f.readCr = (f.cr &&& crStored) ||| (if f.locked then crLock else 0#32) := by
  simp [Fmc.readCr, Fmc.erasing, h]

theorem Fmc.readCr_open (h : f.op = .noOp) (hl : f.lockst = .unlocked) : f.readCr = f.cr &&& crStored := by
  rw [Fmc.readCr_idle h, Fmc.locked_eq_false.2 hl]; simp

/-- `LOCK` reads as the lock stands (R48). -/
theorem Fmc.readCr_lock (f : Fmc) : hasBits f.readCr crLock = f.locked := by
  unfold Fmc.readCr hasBits
  rw [BitVec.and_or_distrib_right, BitVec.and_or_distrib_right, BitVec.and_assoc,
    show crStored &&& crLock = 0#32 by decide, BitVec.and_zero]
  cases f.locked <;> cases f.erasing <;> decide

/-! ### Register accesses (R16) -/

@[simp] theorem regRead_keyr (s : State) : regRead .keyr s = s.fmc.readKeyr := rfl
@[simp] theorem regRead_sr (s : State) : regRead .sr s = s.fmc.readSr := rfl
@[simp] theorem regRead_cr (s : State) : regRead .cr s = s.fmc.readCr := rfl
@[simp] theorem regWrite_keyr (v : Word) (s : State) : regWrite .keyr v s = writeKeyr v s := rfl
@[simp] theorem regWrite_sr (v : Word) (s : State) : regWrite .sr v s = .go () (s.setFmc (s.fmc.writeSr v)) := rfl
@[simp] theorem regWrite_cr (v : Word) (s : State) : regWrite .cr v s = writeCr v s := rfl

/-- `CR.f ← x` by its read and its write. -/
theorem modifyCr_eq (g : Word → Word) (s : State) : modifyCr g s = writeCr (g s.fmc.readCr) s := rfl

/-- `Unlock` by its register accesses. -/
theorem unlock_eq (s : State) : unlock s =
    if hasBits s.fmc.readCr crLock then
      (writeKeyr s.cfg.key1 s).bind fun _ s =>
      (writeKeyr s.cfg.key2 s).bind fun _ s =>
      if hasBits s.fmc.readCr crLock then .go (.fail .unlockFailed 0#32) s else .go .ok s
    else .go .ok s := rfl

/-- `WaitIdle` by its register accesses. -/
theorem waitIdle_eq (pos : Pos) (s : State) : waitIdle pos s = (awaitFmc pos s).bind fun _ s =>
    .go (if s.fmc.readSr &&& errMask = 0#32 then .ok else .fail .hwError (s.fmc.readSr &&& errMask))
      (s.setFmc (s.fmc.writeSr (s.fmc.readSr &&& errMask))) := rfl

/-! ### FMC at rest -/

theorem fmcReady_rest (h : FmcReady f) : FmcAtRest f := h.1

/-- The fields of `CR` the block uses. -/
abbrev crUsed : Word := crPg ||| crSer ||| crSnb ||| crPsize

/-- Where the reserved bits are 0, the stored fields are the whole register. -/
theorem cr_and_stored {r : Word} (h : r &&& ~~~crUsed = 0#32) : r &&& crStored = r := by
  rw [eq_and_of_and_not h, BitVec.and_assoc, show crUsed &&& crStored = crUsed by decide]

/-- At rest with its unused bits 0, the FMC's `SR` is 0. -/
theorem fmcReady_sr (h : FmcReady f) : f.sr = 0#32 := by
  rw [eq_and_of_and_not h.2.1.1, h.1.2.1]

/-- At rest with its unused bits 0, the FMC's `CR` holds a program size and nothing else. -/
theorem fmcReady_cr (h : FmcReady f) : f.cr &&& crPsize = f.cr := by
  have h1 := h.1.2.2.1
  have h2 := eq_and_of_and_not h.2.1.2
  rw [BitVec.and_or_distrib_left, h1, BitVec.zero_or] at h2
  exact h2.symm

/-! ### The wait for the FMC (R236, R240) -/

theorem awaitFmc_idle {pos : Pos} {s : State} (h : s.fmc.op = .noOp) : awaitFmc pos s = .go () s := by
  unfold awaitFmc; rw [if_neg (by simp [Fmc.busy, h])]

theorem awaitFmc_hold {pos : Pos} {s : State} (h : s.fmc.op ≠ .noOp) (hc : s.env.completions = []) :
    awaitFmc pos s = .stop (s.setPos pos) := by
  unfold awaitFmc; rw [if_pos (Fmc.busy_eq_true.2 h), hc]

/-- The state with the first completion draw taken. -/
def State.withCompletions (s : State) (ds : List Word) : State := { s with env := { s.env with completions := ds } }

theorem awaitFmc_done {pos : Pos} {s : State} {d : Word} {ds : List Word} (h : s.fmc.op ≠ .noOp)
    (hc : s.env.completions = d :: ds) : awaitFmc pos s = .go () (fmcComplete d (s.withCompletions ds)) := by
  unfold awaitFmc; rw [if_pos (Fmc.busy_eq_true.2 h), hc]; rfl

/-- The status `WaitIdle` makes of the flags it saw (R240). -/
def statusOf (e : Word) : Status := if e = 0#32 then .ok else .fail .hwError e

theorem waitIdle_idle {pos : Pos} {s : State} (h : s.fmc.op = .noOp) :
    waitIdle pos s = .go (statusOf (s.fmc.sr &&& errMask)) (s.setFmc { s.fmc with sr := s.fmc.sr &&& ~~~errMask }) := by
  rw [waitIdle_eq]
  rw [awaitFmc_idle h]
  simp only [Flow.bind_go, Fmc.readSr_errors, Fmc.writeSr_errors]
  rfl

/-- With no error flag set, `WaitIdle` changes nothing (R241). -/
theorem waitIdle_clean {pos : Pos} {s : State} (h : s.fmc.op = .noOp) (hs : s.fmc.sr &&& errMask = 0#32) :
    waitIdle pos s = .go .ok s := by
  rw [waitIdle_idle h, hs]
  have e : s.fmc.sr &&& ~~~errMask = s.fmc.sr := by
    have := eq_and_of_and_not (r := s.fmc.sr) (m := ~~~errMask) (by rw [BitVec.not_not]; exact hs)
    exact this.symm
  rw [e]; rfl

theorem waitIdle_hold {pos : Pos} {s : State} (h : s.fmc.op ≠ .noOp) (hc : s.env.completions = []) :
    waitIdle pos s = .stop (s.setPos pos) := by
  rw [waitIdle_eq, awaitFmc_hold h hc]; rfl

theorem fmcComplete_op (d : Word) (s : State) : (fmcComplete d s).fmc.op = .noOp := rfl

theorem completeErase_frame (ok : Bool) (n : Nat) (s : State) :
    completeErase ok n s = { s with
      mem := (completeErase ok n s).mem, env := { s.env with drawn := (completeErase ok n s).env.drawn } } := by
  unfold completeErase
  split
  · rfl
  · split <;> rfl

/-- The effect of an operation on memory changes memory and the count of draws alone (R83, R238). -/
theorem completeOp_frame (ok : Bool) (op : FmcOp) (s : State) :
    completeOp ok op s = { s with mem := (completeOp ok op s).mem, env := { s.env with drawn := (completeOp ok op s).env.drawn } } := by
  cases op with
  | noOp => rfl
  | erase n => exact completeErase_frame ok n s
  | program a v => rfl

theorem completeOp_fmc (ok : Bool) (op : FmcOp) (s : State) : (completeOp ok op s).fmc = s.fmc := by
  rw [completeOp_frame]

/-- What a completion leaves of the FMC (R238). -/
theorem fmcComplete_fmc (d : Word) (s : State) :
    (fmcComplete d s).fmc = { s.fmc with op := .noOp, sr := s.fmc.sr ||| (d &&& errMask) } := by
  unfold fmcComplete
  show ({ (completeOp _ _ _).fmc.raiseFlags (d &&& errMask) with op := FmcOp.noOp } : Fmc) = _
  rw [completeOp_fmc]; rfl

/-- `WaitIdle` with a completion at hand: the operation completes, and its flags are collected and cleared (R238, R240). -/
theorem waitIdle_done {pos : Pos} {s : State} {d : Word} {ds : List Word} (h : s.fmc.op ≠ .noOp) (hs : s.fmc.sr = 0#32)
    (hc : s.env.completions = d :: ds) :
    waitIdle pos s = .go (statusOf (d &&& errMask))
      ((completeOp (d &&& errMask == 0#32) s.fmc.op (s.withCompletions ds)).setFmc { s.fmc with op := .noOp }) := by
  rw [waitIdle_eq]
  rw [awaitFmc_done h hc]
  simp only [Flow.bind_go, Fmc.readSr_errors, Fmc.writeSr_errors, fmcComplete_fmc]
  have e1 : (s.withCompletions ds).fmc = s.fmc := rfl
  rw [e1, hs]
  have e2 : (0#32 ||| (d &&& errMask)) &&& errMask = d &&& errMask := by
    rw [BitVec.zero_or, BitVec.and_assoc, BitVec.and_self]
  have e3 : (0#32 ||| (d &&& errMask)) &&& ~~~errMask = 0#32 := by
    rw [BitVec.zero_or, BitVec.and_assoc, BitVec.and_not_self]; exact BitVec.and_zero
  rw [e2, e3]
  have e4 : ({ s.fmc with sr := 0#32, op := FmcOp.noOp } : Fmc) = { s.fmc with op := .noOp } := by rw [← hs]
  show Flow.go _ ((completeOp _ s.fmc.op _).setFmc _) = _
  rw [e4]; rfl

/-! ### Lock and unlock (R221 to R225, R242, R243) -/

theorem writeKeyr_locked {v : Word} {s : State} (h : s.fmc.lockst ≠ .unlocked) :
    writeKeyr v s = .go () (s.setFmc { s.fmc with lockst := keyEffect s.cfg s.fmc.lockst v }) := by
  unfold writeKeyr
  split
  · contradiction
  · rfl

/-- `Unlock` from the reset position of the lock (R242). -/
theorem unlock_first {s : State} (h : s.fmc.lockst = .lockedK1) :
    unlock s = .go .ok (s.setFmc { s.fmc with lockst := .unlocked }) := by
  rw [unlock_eq, Fmc.readCr_lock, if_pos (Fmc.locked_eq_true.2 (by rw [h]; decide)), writeKeyr_locked (by rw [h]; decide)]
  simp only [Flow.bind_go]
  rw [writeKeyr_locked (by simp [h, keyEffect])]
  simp only [Flow.bind_go, State.setFmc_fmc, State.setFmc_cfg, Fmc.readCr_lock]
  simp [h, keyEffect, Fmc.locked]
  rfl

theorem unlock_open {s : State} (h : s.fmc.lockst = .unlocked) : unlock s = .go .ok s := by
  rw [unlock_eq, Fmc.readCr_lock, if_neg (by simp [Fmc.locked, h])]

/-- `Unlock` of a hard-locked FMC fails and changes nothing (R222, R242). -/
theorem unlock_hard {s : State} (h : s.fmc.lockst = .lockedHard) : unlock s = .go (.fail .unlockFailed 0#32) s := by
  rw [unlock_eq, Fmc.readCr_lock, if_pos (Fmc.locked_eq_true.2 (by rw [h]; decide)), writeKeyr_locked (by rw [h]; decide)]
  have e : ({ s.fmc with lockst := keyEffect s.cfg s.fmc.lockst s.cfg.key1 } : Fmc) = s.fmc := by
    rw [h]; show ({ s.fmc with lockst := .lockedHard } : Fmc) = _; rw [← h]
  rw [e]
  have e' : ({ s.fmc with lockst := keyEffect s.cfg s.fmc.lockst s.cfg.key2 } : Fmc) = s.fmc := by
    rw [h]; show ({ s.fmc with lockst := .lockedHard } : Fmc) = _; rw [← h]
  show (writeKeyr s.cfg.key2 s).bind _ = _
  rw [writeKeyr_locked (by rw [h]; decide), e']
  show (if hasBits s.fmc.readCr crLock = true then _ else _) = _
  rw [Fmc.readCr_lock, if_pos (Fmc.locked_eq_true.2 (by rw [h]; decide))]
  rfl

theorem modifyCr_locked {g : Word → Word} {s : State} (h : s.fmc.op = .noOp) (hl : s.fmc.lockst ≠ .unlocked) :
    modifyCr g s = .go () (s.setFmc (lockOnly (g s.fmc.readCr) s.fmc)) := by
  rw [modifyCr_eq]
  unfold writeCr
  rw [if_neg (by simp [Fmc.busy, h]), if_pos (Fmc.locked_eq_true.2 hl)]

/-- A field update while unlocked and idle, with neither STRT nor LOCK written (R226). -/
theorem modifyCr_open {g : Word → Word} {s : State} (h : s.fmc.op = .noOp) (hl : s.fmc.lockst = .unlocked)
    (hs : g (s.fmc.cr &&& crStored) &&& (crStrt ||| crLock) = 0#32) :
    modifyCr g s = .go () (s.setFmc { s.fmc with cr := g (s.fmc.cr &&& crStored) &&& crStored }) := by
  rw [modifyCr_eq]
  unfold writeCr
  rw [if_neg (by simp [Fmc.busy, h]), if_neg (by simp [Fmc.locked, hl]), Fmc.readCr_open h hl,
    if_neg (by rw [hasBits_eq_false (and_eq_zero_of_sub hs (by decide))]; decide)]
  unfold storeCr
  rw [if_neg (by rw [hasBits_eq_false (and_eq_zero_of_sub hs (by decide))]; decide)]

/-- `Lock` of an unlocked, idle FMC (R224, R243). -/
theorem lock_open {s : State} (h : s.fmc.op = .noOp) (hl : s.fmc.lockst = .unlocked)
    (hr : s.fmc.cr &&& ~~~crUsed = 0#32) : lock s = .go () (s.setFmc { s.fmc with lockst := .lockedK1 }) := by
  unfold lock
  rw [modifyCr_eq]
  unfold writeCr
  rw [if_neg (by simp [Fmc.busy, h]), if_neg (by simp [Fmc.locked, hl]), Fmc.readCr_open h hl, cr_and_stored hr]
  have h1 : setField s.fmc.cr crLock crLock &&& crStrt = 0#32 := by
    rw [setField_and_of_disjoint (by decide)]; exact and_eq_zero_of_sub hr (by decide)
  have h2 : setField s.fmc.cr crLock crLock &&& crStored = s.fmc.cr := by
    rw [setField_and_of_disjoint (by decide)]; exact cr_and_stored hr
  have h3 : hasBits (setField s.fmc.cr crLock crLock) crLock = true := by
    unfold hasBits; rw [setField_and_of_sub (by decide)]; decide
  rw [if_neg (by rw [hasBits_eq_false h1]; decide)]
  unfold storeCr
  rw [h2, if_pos h3, hl]
  rfl

/-- `Lock` of a locked, idle FMC changes nothing but LOCKED_K2 (R224, R225, R243). -/
theorem lock_locked {s : State} (h : s.fmc.op = .noOp) (hl : s.fmc.lockst = .lockedK1 ∨ s.fmc.lockst = .lockedHard) :
    lock s = .go () s := by
  unfold lock
  rw [modifyCr_locked h (by rcases hl with hl | hl <;> rw [hl] <;> decide)]
  unfold lockOnly
  have : (if hasBits (setField s.fmc.readCr crLock crLock) crLock = true then lockEffect s.fmc.lockst else s.fmc.lockst)
      = s.fmc.lockst := by
    split
    · rcases hl with hl | hl <;> rw [hl] <;> rfl
    · rfl
  rw [this]; rfl

end Sys2Proof.Machine
end

