-- ==== Sys2Proof/Laws/FmcFrame.lean ====
section
/-! SUPPORT. What the FMC and the Flash Programmer change (spec 44_flash_controller.md, 45_memory_commands.md R260 to R267): memory, the FMC, the
completion draws, the position at a hold, and nothing else. -/

namespace Sys2Proof.Machine

/-- `t` is `s` but for memory, the FMC, the completion draws, the count of free values, and the position at a hold. -/
structure FmcFrame (s t : State) : Prop where
  cfg     : t.cfg = s.cfg
  phase   : t.phase = s.phase
  buf     : t.buf = s.buf
  dp      : t.dp = s.dp
  crcReg  : t.crcReg = s.crcReg
  periph  : t.periph = s.periph
  host    : t.host = s.host
  events  : t.events = s.events
  faulted : t.faulted = s.faulted
  recvs   : t.env.recvs = s.env.recvs
  sends   : t.env.sends = s.env.sends
  epoch   : t.epoch = s.epoch

theorem FmcFrame.refl (s : State) : FmcFrame s s := ⟨rfl, rfl, rfl, rfl, rfl, rfl, rfl, rfl, rfl, rfl, rfl, rfl⟩

theorem FmcFrame.trans {s t u : State} (h : FmcFrame s t) (h' : FmcFrame t u) : FmcFrame s u :=
  ⟨h'.cfg.trans h.cfg, h'.phase.trans h.phase, h'.buf.trans h.buf, h'.dp.trans h.dp, h'.crcReg.trans h.crcReg,
    h'.periph.trans h.periph, h'.host.trans h.host, h'.events.trans h.events, h'.faulted.trans h.faulted,
    h'.recvs.trans h.recvs, h'.sends.trans h.sends, h'.epoch.trans h.epoch⟩

theorem FmcFrame.setFmc (s : State) (f : Fmc) : FmcFrame s (s.setFmc f) :=
  ⟨rfl, rfl, rfl, rfl, rfl, rfl, rfl, rfl, rfl, rfl, rfl, rfl⟩

theorem FmcFrame.setPos (s : State) (p : Pos) : FmcFrame s (s.setPos p) :=
  ⟨rfl, rfl, rfl, rfl, rfl, rfl, rfl, rfl, rfl, rfl, rfl, rfl⟩

theorem FmcFrame.setWordAt (s : State) (a w : Word) : FmcFrame s (s.setWordAt a w) :=
  ⟨rfl, rfl, rfl, rfl, rfl, rfl, rfl, rfl, rfl, rfl, rfl, rfl⟩

/-- A flow that keeps the frame wherever it ends without a fault, and holds only at positions `P` allows. -/
abbrev Flow.Framed {α : Type} (P : Pos → Prop) (s : State) (x : Flow α) : Prop :=
  x.Meets (fun _ t => FmcFrame s t) (fun t => FmcFrame s t ∧ P t.pos) fun _ => True

theorem Flow.Framed.bind {α β : Type} {P : Pos → Prop} {s : State} {x : Flow α} {k : α → State → Flow β} (hx : x.Framed P s)
    (hk : ∀ a t, (k a t).Framed P t) : (x.bind k).Framed P s :=
  Flow.Meets.bind hx fun a t ht =>
    (hk a t).mono (fun _ _ h => FmcFrame.trans ht h) (fun _ h => ⟨FmcFrame.trans ht h.1, h.2⟩) fun _ h => h

theorem Flow.Framed.go {α : Type} {P : Pos → Prop} (a : α) (s : State) : (Flow.go a s).Framed P s := FmcFrame.refl s

variable {P : Pos → Prop} (s : State)

/-! ### Registers -/

theorem writeKeyr_framed (v : Word) : (writeKeyr v s).Framed P s := by
  unfold writeKeyr
  split
  · trivial
  · exact FmcFrame.setFmc _ _

theorem startErase_framed : (startErase s).Framed P s := by
  unfold startErase
  simp only
  split_ifs
  · trivial
  · exact FmcFrame.setFmc _ _
  · exact FmcFrame.setFmc _ _
  · trivial

theorem writeCr_framed (v : Word) : (writeCr v s).Framed P s := by
  unfold writeCr
  split_ifs
  · trivial
  · exact FmcFrame.setFmc _ _
  · have h : (startErase (s.setFmc (storeCr v s.fmc))).Framed P (s.setFmc (storeCr v s.fmc)) := startErase_framed _
    exact h.mono (fun _ _ h => (FmcFrame.setFmc s _).trans h) (fun _ h => ⟨(FmcFrame.setFmc s _).trans h.1, h.2⟩) fun _ h => h
  · exact FmcFrame.setFmc _ _

theorem modifyCr_framed (g : Word → Word) : (modifyCr g s).Framed P s := writeCr_framed s _

theorem lock_framed : (lock s).Framed P s := modifyCr_framed s _

theorem unlock_framed : (unlock s).Framed P s := by
  unfold unlock
  split
  · refine Flow.Framed.bind (writeKeyr_framed s _) fun _ t => Flow.Framed.bind (writeKeyr_framed t _) fun _ u => ?_
    split <;> exact Flow.Framed.go _ u
  · exact Flow.Framed.go _ s

/-! ### Waits and bus accesses -/

theorem fmcComplete_framed (d : Word) : FmcFrame s (fmcComplete d s) := by
  have e := completeOp_frame (d &&& errMask == 0#32) s.fmc.op s
  unfold fmcComplete
  simp only
  generalize completeOp (d &&& errMask == 0#32) s.fmc.op s = t at e
  rw [e]
  exact ⟨rfl, rfl, rfl, rfl, rfl, rfl, rfl, rfl, rfl, rfl, rfl, rfl⟩

theorem awaitFmc_framed {pos : Pos} (hp : P pos) : (awaitFmc pos s).Framed P s := by
  unfold awaitFmc
  split
  · split
    · exact ⟨FmcFrame.setPos _ _, hp⟩
    · next d rest _ =>
      have h : FmcFrame s { s with env := { s.env with completions := rest } } :=
        ⟨rfl, rfl, rfl, rfl, rfl, rfl, rfl, rfl, rfl, rfl, rfl, rfl⟩
      exact h.trans (fmcComplete_framed _ d)
  · exact Flow.Framed.go _ s

theorem waitIdle_framed {pos : Pos} (hp : P pos) : (waitIdle pos s).Framed P s :=
  Flow.Framed.bind (awaitFmc_framed s hp) fun _ t => FmcFrame.setFmc t _

theorem memWrite_framed (a v : Word) : (memWrite a v s).Framed P s := by
  unfold memWrite flashWrite
  split
  · exact FmcFrame.setWordAt _ _ _
  · split_ifs
    · exact FmcFrame.setFmc _ _
    · exact FmcFrame.setFmc _ _
    · trivial
    · exact FmcFrame.setFmc _ _
    · exact FmcFrame.setFmc _ _
  · trivial

theorem memRead_framed {pos : Pos} (hp : P pos) (a : Word) : (memRead pos a s).Framed P s := by
  unfold memRead
  split
  · exact FmcFrame.refl s
  · exact Flow.Framed.bind (awaitFmc_framed s hp) fun _ t => FmcFrame.refl t
  · trivial

/-! ### Sequences -/

theorem eraseFinish_framed (hp : P .eraseDone) : (eraseFinish s).Framed P s :=
  Flow.Framed.bind (waitIdle_framed s hp) fun _ t => Flow.Framed.bind (modifyCr_framed t _) fun _ u =>
    Flow.Framed.bind (lock_framed u) fun _ v => FmcFrame.refl v

theorem eraseStart_framed : (eraseStart s).Framed P s := by
  unfold eraseStart
  split
  · trivial
  · exact Flow.Framed.bind (modifyCr_framed s _) fun _ t => modifyCr_framed t _

theorem eraseAppSector_framed (h1 : P .eraseIdle) (h2 : P .eraseDone) : (eraseAppSector s).Framed P s := by
  unfold eraseAppSector eraseFromIdle
  split
  · exact FmcFrame.refl s
  · refine Flow.Framed.bind (waitIdle_framed s h1) fun _ t => Flow.Framed.bind (unlock_framed t) fun st u => ?_
    split
    · exact Flow.Framed.bind (eraseStart_framed u) fun _ v => eraseFinish_framed v h2
    · exact Flow.Framed.bind (lock_framed u) fun _ v => FmcFrame.refl v

theorem programFinish_framed {ws : List Word} (hp : P (.programDone ws)) : (programFinish ws s).Framed P s :=
  Flow.Framed.bind (waitIdle_framed s hp) fun _ t => Flow.Framed.bind (modifyCr_framed t _) fun _ u => FmcFrame.refl u

theorem lockAfter_framed (st : Status) : (lockAfter st s).Framed P s :=
  Flow.Framed.bind (lock_framed s) fun _ t => FmcFrame.refl t

end Sys2Proof.Machine
end

