-- ==== Sys2Proof/Laws/Inert.lean ====
section
/-! SUPPORT. What the FMC and the Flash Programmer do not look at (spec 41_framer_dispatch.md R162, R163): a change of the state that leaves alone
everything they read commutes with everything they do. One such change is what the host received and chose; another is what a cycle
left in `buf`, `dp` and `crc_reg`. -/

namespace Sys2Proof.Machine

/-- A fault with its state changed. -/
def Fault.map (φ : State → State) : Fault → Fault
  | .unmappedAccess s => .unmappedAccess (φ s)
  | .undefinedFmcAccess s => .undefinedFmcAccess (φ s)
  | .fieldOverflow s => .fieldOverflow (φ s)
  | .halted s => .halted (φ s)

theorem faultCode_map (φ : State → State) (f : Fault) : faultCode (f.map φ) = faultCode f := by cases f <;> rfl

/-- A flow with its state changed. -/
def Flow.map {α : Type} (φ : State → State) : Flow α → Flow α
  | .go a s  => .go a (φ s)
  | .stop s  => .stop (φ s)
  | .fault f => .fault (f.map φ)

section

variable {α β : Type}

@[simp] theorem Flow.map_go (φ : State → State) (a : α) (s : State) : (Flow.go a s).map φ = .go a (φ s) := rfl
@[simp] theorem Flow.map_stop (φ : State → State) (s : State) : (Flow.stop s : Flow α).map φ = .stop (φ s) := rfl
@[simp] theorem Flow.map_fault (φ : State → State) (f : Fault) : (Flow.fault f : Flow α).map φ = .fault (f.map φ) := rfl

/-- A change that commutes with both parts commutes with their sequence. -/
theorem Flow.map_bind {φ : State → State} {x : Flow α} {k : α → State → Flow β}
    (hk : ∀ a s, k a (φ s) = (k a s).map φ) : (x.map φ).bind k = (x.bind k).map φ := by
  cases x with
  | go a s => exact hk a s
  | stop s => rfl
  | fault f => rfl

/-- Two flows of one kind: they go on with the same value in states `R` relates, or end the step in states `Q` relates, or fault for
the same reason. -/
def Flow.Agrees (R Q : State → State → Prop) : Flow α → Flow α → Prop
  | .go a s, .go b t => a = b ∧ R s t
  | .stop s, .stop t => Q s t
  | .fault f, .fault g => faultCode f = faultCode g
  | .go _ _, .stop _ => False
  | .go _ _, .fault _ => False
  | .stop _, .go _ _ => False
  | .stop _, .fault _ => False
  | .fault _, .go _ _ => False
  | .fault _, .stop _ => False

variable {R R' Q : State → State → Prop}

/-- Flows that agree part by part agree. -/
theorem Flow.Agrees.bind {x y : Flow α} {k l : α → State → Flow β} (h : Flow.Agrees R Q x y)
    (hk : ∀ a s t, R s t → Flow.Agrees R' Q (k a s) (l a t)) : Flow.Agrees R' Q (x.bind k) (y.bind l) := by
  cases x <;> cases y <;> first | exact h.elim | skip
  · obtain ⟨rfl, h⟩ := h
    exact hk _ _ _ h
  · exact h
  · exact h

/-- A change that commutes with a framed flow makes flows that agree. -/
theorem Flow.Agrees.of_map {P : Pos → Prop} {φ : State → State} {s : State} {x y : Flow α} (e : y = x.map φ) (hf : x.Framed P s)
    (hR : ∀ t, FmcFrame s t → R t (φ t)) (hQ : ∀ t, FmcFrame s t → P t.pos → Q t (φ t)) : Flow.Agrees R Q x y := by
  subst e
  cases x with
  | go a t => exact ⟨rfl, hR t hf⟩
  | stop t => exact hQ t hf.1 hf.2
  | fault f => exact (faultCode_map φ f).symm

end

/-- A change of the state that the FMC does not see. -/
structure Inert (φ : State → State) : Prop where
  cfg : ∀ s, (φ s).cfg = s.cfg
  mem : ∀ s, (φ s).mem = s.mem
  fmc : ∀ s, (φ s).fmc = s.fmc
  epoch : ∀ s, (φ s).epoch = s.epoch
  completions : ∀ s, (φ s).env.completions = s.env.completions
  drawn : ∀ s, (φ s).env.drawn = s.env.drawn
  setFmc : ∀ s f, (φ s).setFmc f = φ (s.setFmc f)
  setPos : ∀ s p, (φ s).setPos p = φ (s.setPos p)
  setMem : ∀ s m, { φ s with mem := m } = φ { s with mem := m }
  setFaulted : ∀ s, { φ s with faulted := true } = φ { s with faulted := true }
  setCompletions : ∀ s ds, { φ s with env := { (φ s).env with completions := ds } } =
    φ { s with env := { s.env with completions := ds } }
  setDrawn : ∀ s n, { φ s with env := { (φ s).env with drawn := n } } = φ { s with env := { s.env with drawn := n } }

variable {φ : State → State} (h : Inert φ) (s : State)

include h

/-! ### Memory -/

theorem Inert.byteAt (a : Nat) : (φ s).byteAt a = s.byteAt a := State.byteAt_congr (h.cfg s) (h.mem s) (h.epoch s) a

theorem Inert.wordAt (a : Word) : (φ s).wordAt a = s.wordAt a := State.wordAt_congr (h.cfg s) (h.mem s) (h.epoch s) a

theorem Inert.setWordAt (a w : Word) : (φ s).setWordAt a w = φ (s.setWordAt a w) := by
  unfold State.setWordAt
  rw [h.setMem, h.cfg, h.mem]

theorem Inert.raise (reason : State → Fault) (hr : ∀ s, reason (φ s) = (reason s).map φ) :
    (φ s).raise reason = (s.raise reason).map φ := by
  unfold State.raise
  rw [h.setFaulted, hr]

theorem Inert.drewWords (n : Nat) : (φ s).drewWords n = φ (s.drewWords n) := by
  unfold State.drewWords
  rw [h.setDrawn, h.drawn]

/-! ### Registers of the FMC -/

theorem Inert.writeKeyr (v : Word) : writeKeyr v (φ s) = (writeKeyr v s).map φ := by
  unfold Machine.writeKeyr
  rw [h.fmc]
  split
  · rw [h.raise s _ fun _ => rfl]; rfl
  · rw [h.setFmc, h.cfg]; rfl

theorem Inert.startErase : startErase (φ s) = (startErase s).map φ := by
  unfold Machine.startErase
  simp only [h.fmc, h.cfg, h.setFmc]
  split_ifs
  · rw [h.raise s _ fun _ => rfl]; rfl
  · rfl
  · rfl
  · rw [h.raise s _ fun _ => rfl]; rfl

theorem Inert.writeCr (v : Word) : writeCr v (φ s) = (writeCr v s).map φ := by
  unfold Machine.writeCr
  simp only [h.fmc, h.setFmc]
  split_ifs
  · rw [h.raise s _ fun _ => rfl]; rfl
  · rfl
  · exact h.startErase _
  · rfl

theorem Inert.modifyCr (g : Word → Word) : modifyCr g (φ s) = (modifyCr g s).map φ := by
  rw [modifyCr_eq, modifyCr_eq, h.fmc, h.writeCr]

theorem Inert.lock : lock (φ s) = (lock s).map φ := h.modifyCr s _

theorem Inert.unlock : unlock (φ s) = (unlock s).map φ := by
  rw [unlock_eq, unlock_eq, h.fmc, h.cfg]
  split
  · rw [h.writeKeyr]
    refine Flow.map_bind fun _ s => ?_
    rw [h.cfg, h.writeKeyr]
    refine Flow.map_bind fun _ s => ?_
    rw [h.fmc]
    split <;> rfl
  · rfl

/-! ### Completions and waits -/

theorem Inert.completeOp (ok : Bool) (op : FmcOp) : completeOp ok op (φ s) = φ (completeOp ok op s) := by
  cases op with
  | noOp => rfl
  | program a v =>
    show completeProgram ok a v (φ s) = φ (completeProgram ok a v s)
    unfold completeProgram
    simp only [h.drawn, h.cfg, h.wordAt, h.setWordAt, h.drewWords]
  | erase n =>
    show completeErase ok n (φ s) = φ (completeErase ok n s)
    have hx : (φ s).cfg.sectors[n]? = s.cfg.sectors[n]? := by rw [h.cfg]
    unfold completeErase
    cases e : s.cfg.sectors[n]? with
    | none => simp only [hx, e]
    | some x =>
      simp only [hx, e]
      split
      · rw [h.setMem, h.mem]
      · rw [h.setMem, h.mem, h.drawn, h.cfg, h.drewWords]

theorem Inert.fmcComplete (d : Word) : fmcComplete d (φ s) = φ (fmcComplete d s) := by
  unfold Machine.fmcComplete
  simp only [h.fmc, h.completeOp, h.setFmc]

theorem Inert.awaitFmc (pos : Pos) : awaitFmc pos (φ s) = (awaitFmc pos s).map φ := by
  have hb : (φ s).fmc.busy = s.fmc.busy := by rw [h.fmc]
  unfold Machine.awaitFmc
  cases eb : s.fmc.busy with
  | false => simp only [hb, eb]; rfl
  | true =>
    cases ec : s.env.completions with
    | nil => simp only [hb, eb, h.completions, ec, if_true, h.setPos]; rfl
    | cons d rest =>
      simp only [hb, eb, h.completions, ec, if_true]
      rw [h.setCompletions, h.fmcComplete]
      rfl

theorem Inert.waitIdle (pos : Pos) : waitIdle pos (φ s) = (waitIdle pos s).map φ := by
  rw [waitIdle_eq, waitIdle_eq, h.awaitFmc]
  refine Flow.map_bind fun _ s => ?_
  simp only [h.fmc, h.setFmc]
  rfl

theorem Inert.memWrite (a v : Word) : memWrite a v (φ s) = (memWrite a v s).map φ := by
  unfold Machine.memWrite flashWrite
  simp only [h.cfg, h.fmc, h.setFmc, h.setWordAt]
  split
  · rfl
  · split_ifs
    · rfl
    · rfl
    · rw [h.raise s _ fun _ => rfl]; rfl
    · rfl
    · rfl
  · rw [h.raise s _ fun _ => rfl]; rfl

theorem Inert.memRead (pos : Pos) (a : Word) : memRead pos a (φ s) = (memRead pos a s).map φ := by
  unfold Machine.memRead
  simp only [h.cfg, h.wordAt]
  split
  · rfl
  · rw [h.awaitFmc]
    exact Flow.map_bind fun _ s => by rw [h.wordAt]; rfl
  · rw [h.raise s _ fun _ => rfl]; rfl

/-! ### Sequences -/

theorem Inert.eraseFinish : eraseFinish (φ s) = (eraseFinish s).map φ := by
  unfold Machine.eraseFinish
  rw [h.waitIdle]
  refine Flow.map_bind fun _ s => ?_
  rw [h.modifyCr]
  refine Flow.map_bind fun _ s => ?_
  rw [h.lock]
  exact Flow.map_bind fun _ s => rfl

theorem Inert.eraseStart : eraseStart (φ s) = (eraseStart s).map φ := by
  unfold Machine.eraseStart
  simp only [h.cfg]
  split
  · rw [h.raise s _ fun _ => rfl]; rfl
  · rw [h.modifyCr]
    exact Flow.map_bind fun _ s => h.modifyCr s _

theorem Inert.eraseFromIdle : eraseFromIdle (φ s) = (eraseFromIdle s).map φ := by
  unfold Machine.eraseFromIdle
  rw [h.waitIdle]
  refine Flow.map_bind fun _ s => ?_
  rw [h.unlock]
  refine Flow.map_bind fun st s => ?_
  split
  · rw [h.eraseStart]
    exact Flow.map_bind fun _ s => h.eraseFinish s
  · rw [h.lock]
    exact Flow.map_bind fun _ s => rfl

theorem Inert.eraseAppSector : eraseAppSector (φ s) = (eraseAppSector s).map φ := by
  unfold Machine.eraseAppSector
  rw [h.cfg]
  split
  · rfl
  · exact h.eraseFromIdle s

theorem Inert.programFinish (ws : List Word) : programFinish ws (φ s) = (programFinish ws s).map φ := by
  unfold Machine.programFinish
  rw [h.waitIdle]
  refine Flow.map_bind fun _ s => ?_
  rw [h.modifyCr]
  exact Flow.map_bind fun _ s => rfl

theorem Inert.lockAfter (st : Status) : lockAfter st (φ s) = (lockAfter st s).map φ := by
  unfold Machine.lockAfter
  rw [h.lock]
  exact Flow.map_bind fun _ s => rfl

omit h

/-! ### Two inert changes -/

/-- The state with other bytes received by the host, another record of events, and other choices for the sends (R162). -/
def State.rewire (out : List Byte) (events : List Event) (sends : List SendDraw) (s : State) : State :=
  { s with host := { s.host with out := out }, events := events, env := { s.env with sends := sends } }

theorem inert_rewire (out : List Byte) (events : List Event) (sends : List SendDraw) : Inert (State.rewire out events sends) :=
  ⟨fun _ => rfl, fun _ => rfl, fun _ => rfl, fun _ => rfl, fun _ => rfl, fun _ => rfl, fun _ _ => rfl, fun _ _ => rfl,
    fun _ _ => rfl, fun _ => rfl, fun _ _ => rfl, fun _ _ => rfl⟩

/-- The state with other contents of `buf`, `dp` and `crc_reg` (R163). -/
def State.refill (buf : List Byte) (dp : Datapath) (crc : Word) (s : State) : State :=
  { s with buf := buf, dp := dp, crcReg := crc }

theorem inert_refill (buf : List Byte) (dp : Datapath) (crc : Word) : Inert (State.refill buf dp crc) :=
  ⟨fun _ => rfl, fun _ => rfl, fun _ => rfl, fun _ => rfl, fun _ => rfl, fun _ => rfl, fun _ _ => rfl, fun _ _ => rfl,
    fun _ _ => rfl, fun _ => rfl, fun _ _ => rfl, fun _ _ => rfl⟩

end Sys2Proof.Machine
end

