-- ==== Sys2Proof/Laws/Arrival.lean ====
section
/-! SUPPORT. What the host sends while a handler runs (spec 00_scope.md R7; 41_framer_dispatch.md R161): a handler looks at none of it, so
bytes and choices that arrive at any of its primitives leave the state they leave when they arrive before the step, or after it. -/

namespace Sys2Proof.Machine

/-- The state after the host has sent `bs` and settled the coming `Recv`s `rs`. -/
def State.arrive (bs : List Byte) (rs : List RecvDraw) (s : State) : State :=
  { s with host := { s.host with inp := s.host.inp ++ bs }, env := { s.env with recvs := s.env.recvs ++ rs } }

/-- An outcome with its state changed. -/
def mapOutcome (φ : State → State) : Host.Outcome State Fault Refusal → Host.Outcome State Fault Refusal
  | .next s    => .next (φ s)
  | .fault f   => .fault (f.map φ)
  | .refused r => .refused r

theorem Flow.outcome_map (φ : State → State) (x : Flow Unit) : (x.map φ).outcome = mapOutcome φ x.outcome := by cases x <;> rfl

variable (bs : List Byte) (rs : List RecvDraw)

theorem inert_arrive : Inert (State.arrive bs rs) :=
  ⟨fun _ => rfl, fun _ => rfl, fun _ => rfl, fun _ => rfl, fun _ => rfl, fun _ => rfl, fun _ _ => rfl, fun _ _ => rfl,
    fun _ _ => rfl, fun _ => rfl, fun _ _ => rfl, fun _ _ => rfl⟩

variable (s : State)

/-! ### Sends and the prologue -/

theorem sendDrawn_arrive : (s.arrive bs rs).sendDrawn = s.sendDrawn.arrive bs rs := by
  cases h : s.env.sends <;> simp [State.sendDrawn, State.arrive, h]

theorem send_arrive (out : List Byte) : send out (s.arrive bs rs) = (send out s).map (State.arrive bs rs) := by
  have hd := sendDrawn_arrive bs rs s
  have hc : (s.arrive bs rs).sendChoice = s.sendChoice := rfl
  have hg : (s.arrive bs rs).cfg = s.cfg := rfl
  unfold send
  simp only [hd, hc, hg]
  cases s.cfg.sendFailPolicy with
  | ignore => rfl
  | abort => cases s.sendChoice <;> rfl

theorem sendEach_arrive (out : List Byte) : ∀ s : State,
    sendEach out (s.arrive bs rs) = (sendEach out s).map (State.arrive bs rs) := by
  induction out with
  | nil => exact fun _ => rfl
  | cons b out ih =>
    intro s
    unfold sendEach
    rw [send_arrive]
    exact Flow.map_bind fun _ s => ih s

theorem checksumPrologue_arrive (nack : Bool) :
    checksumPrologue nack (s.arrive bs rs) = (checksumPrologue nack s).map (State.arrive bs rs) := by
  have hc : (s.arrive bs rs).checksumOk = s.checksumOk := rfl
  unfold checksumPrologue
  rw [hc]
  split
  · rfl
  · split
    · show (send [byteNack] (s.ranChecksum.arrive bs rs)).bind _ = _
      rw [send_arrive]
      exact Flow.map_bind fun _ _ => rfl
    · rfl

/-! ### Handlers -/

theorem infoReply_arrive (payload : List Byte) : infoReply payload (s.arrive bs rs) = (infoReply payload s).map (State.arrive bs rs) := by
  unfold infoReply sendAck
  rw [checksumPrologue_arrive]
  refine Flow.map_bind fun _ s => ?_
  rw [send_arrive]
  refine Flow.map_bind fun _ s => ?_
  rw [send_arrive]
  exact Flow.map_bind fun _ _ => rfl

theorem jumpAppEntry_arrive : jumpAppEntry (s.arrive bs rs) = (jumpAppEntry s).map (State.arrive bs rs) := by
  unfold jumpAppEntry
  rw [show (s.arrive bs rs).cfg = s.cfg from rfl, (inert_arrive bs rs).memRead]
  exact Flow.map_bind fun _ _ => rfl

theorem jumpAppMsp_arrive : jumpAppMsp (s.arrive bs rs) = (jumpAppMsp s).map (State.arrive bs rs) := by
  unfold jumpAppMsp
  rw [show (s.arrive bs rs).cfg = s.cfg from rfl, (inert_arrive bs rs).memRead]
  exact Flow.map_bind fun w s => jumpAppEntry_arrive bs rs (s.setMsp w)

theorem programLoop_arrive : ∀ (ws : List Word) (i : Nat) (s : State),
    programLoop ws i (s.arrive bs rs) = (programLoop ws i s).map (State.arrive bs rs)
  | [], _, _ => rfl
  | w :: ws, i, s => by
    have hi := inert_arrive bs rs
    unfold programLoop programStart
    show ((waitIdle _ (((s.setIndex i).setDataWord w).arrive bs rs)).bind _).bind _ = _
    have e : ((waitIdle (.programIdle (w :: ws)) (((s.setIndex i).setDataWord w).arrive bs rs)).bind fun _ s =>
        (modifyCr programFields s).bind fun _ s => memWrite (wordAddr s.dp.addr i) w s) =
        ((waitIdle (.programIdle (w :: ws)) ((s.setIndex i).setDataWord w)).bind fun _ s =>
        (modifyCr programFields s).bind fun _ s => memWrite (wordAddr s.dp.addr i) w s).map (State.arrive bs rs) := by
      rw [hi.waitIdle]
      refine Flow.map_bind fun _ s => ?_
      rw [hi.modifyCr]
      exact Flow.map_bind fun _ s => hi.memWrite s _ _
    rw [e]
    refine Flow.map_bind fun _ s => ?_
    rw [hi.programFinish]
    refine Flow.map_bind fun st s => ?_
    split
    · exact programLoop_arrive ws (i + 1) s
    · rfl

theorem programRange_arrive (ws : List Word) : programRange ws (s.arrive bs rs) = (programRange ws s).map (State.arrive bs rs) := by
  have hi := inert_arrive bs rs
  unfold programRange
  rw [hi.unlock]
  refine Flow.map_bind fun st s => ?_
  split
  · rw [programLoop_arrive]
    exact Flow.map_bind fun st s => hi.lockAfter s st
  · exact hi.lockAfter s st

theorem programResume_arrive (ws : List Word) : programResume ws (s.arrive bs rs) = (programResume ws s).map (State.arrive bs rs) := by
  have hi := inert_arrive bs rs
  unfold programResume
  rw [hi.programFinish, Flow.map_bind (φ := State.arrive bs rs) (x := programFinish ws s) (fun st s' => by
    show (if st = .ok then programLoop ws (s.dp.i + 1) (s'.arrive bs rs) else _) = _
    split
    · exact programLoop_arrive bs rs ws _ s'
    · rfl)]
  exact Flow.map_bind fun st s => hi.lockAfter s st

theorem readLoop_arrive : ∀ (left i : Nat) (s : State), readLoop left i (s.arrive bs rs) = (readLoop left i s).map (State.arrive bs rs)
  | 0, _, _ => rfl
  | left + 1, i, s => by
    unfold readLoop
    show (memRead _ _ ((s.setIndex i).arrive bs rs)).bind _ = _
    rw [(inert_arrive bs rs).memRead]
    refine Flow.map_bind fun w s => ?_
    show (sendEach _ ((s.setDataWord w).arrive bs rs)).bind _ = _
    rw [sendEach_arrive]
    exact Flow.map_bind fun _ s => readLoop_arrive left (i + 1) s

theorem eraseTail_arrive (st : Status) : eraseTail st (s.arrive bs rs) = (eraseTail st s).map (State.arrive bs rs) := by
  unfold eraseTail
  simp only
  split <;> rfl

theorem writeTail_arrive (st : Status) : writeTail st (s.arrive bs rs) = (writeTail st s).map (State.arrive bs rs) := by
  unfold writeTail
  show (if st = .ok then (send [byteO] ((s.setStatus st).arrive bs rs)).bind _
    else (send [byteE] ((s.setStatus st).arrive bs rs)).bind _) = _
  simp only [send_arrive]
  split <;> exact Flow.map_bind fun _ _ => rfl

/-- A command does not look at what arrives (R161). -/
theorem exec_arrive (i : Instr) : exec i (s.arrive bs rs) = mapOutcome (State.arrive bs rs) (exec i s) := by
  have hi := inert_arrive bs rs
  cases i with
  | getVersion => exact (congrArg Flow.outcome (infoReply_arrive bs rs s _)).trans (Flow.outcome_map _ _)
  | getHelp => exact (congrArg Flow.outcome (infoReply_arrive bs rs s _)).trans (Flow.outcome_map _ _)
  | getCid => exact (congrArg Flow.outcome (infoReply_arrive bs rs s _)).trans (Flow.outcome_map _ _)
  | getRdp => exact (congrArg Flow.outcome (infoReply_arrive bs rs s _)).trans (Flow.outcome_map _ _)
  | jumpApp =>
    refine Eq.trans (congrArg Flow.outcome ?_) (Flow.outcome_map _ _)
    unfold sendAck
    rw [checksumPrologue_arrive]
    refine Flow.map_bind fun _ s => ?_
    rw [send_arrive]
    exact Flow.map_bind fun _ s => jumpAppMsp_arrive bs rs s
  | jumpAddr a =>
    refine Eq.trans (congrArg Flow.outcome ?_) (Flow.outcome_map _ _)
    unfold sendAck
    rw [checksumPrologue_arrive]
    refine Flow.map_bind fun _ s => ?_
    rw [send_arrive]
    refine Flow.map_bind fun _ s => ?_
    rw [show (s.arrive bs rs).cfg = s.cfg from rfl]
    split <;> rfl
  | erase =>
    refine Eq.trans (congrArg Flow.outcome ?_) (Flow.outcome_map _ _)
    unfold sendAck
    rw [checksumPrologue_arrive]
    refine Flow.map_bind fun _ s => ?_
    rw [send_arrive]
    refine Flow.map_bind fun _ s => ?_
    rw [hi.eraseAppSector]
    exact Flow.map_bind fun st s => eraseTail_arrive bs rs s st
  | write a data =>
    refine Eq.trans (congrArg Flow.outcome ?_) (Flow.outcome_map _ _)
    unfold sendAck
    rw [checksumPrologue_arrive]
    refine Flow.map_bind fun _ s => ?_
    show (if badRangeAddr s.cfg a = true then (send [byteX] ((s.setAddr a).arrive bs rs)).bind _
      else (send [byteAck, 1#8] ((s.setAddr a).arrive bs rs)).bind _) = Flow.map _ (if badRangeAddr s.cfg a = true then _ else _)
    split
    · rw [send_arrive]
      exact Flow.map_bind fun _ _ => rfl
    · rw [send_arrive]
      refine Flow.map_bind fun _ s => ?_
      show (programRange _ ((s.setDlen data.length).arrive bs rs)).bind _ = _
      rw [programRange_arrive]
      exact Flow.map_bind fun st s => writeTail_arrive bs rs s st
  | read a c =>
    refine Eq.trans (congrArg Flow.outcome ?_) (Flow.outcome_map _ _)
    unfold sendAck
    rw [checksumPrologue_arrive]
    refine Flow.map_bind fun _ s => ?_
    show (if badRangeAddr s.cfg a = true then (send [byteE] (((s.setAddr a).setCount c).arrive bs rs)).bind _
      else (send [byteAck, c] (((s.setAddr a).setCount c).arrive bs rs)).bind _) = Flow.map _ (if badRangeAddr s.cfg a = true then _ else _)
    split
    · rw [send_arrive]
      exact Flow.map_bind fun _ _ => rfl
    · rw [send_arrive]
      refine Flow.map_bind fun _ s => ?_
      rw [readLoop_arrive]
      exact Flow.map_bind fun _ _ => rfl

/-! ### The step -/

theorem dispatchPacket_arrive : dispatchPacket (s.arrive bs rs) = mapOutcome (State.arrive bs rs) (dispatchPacket s) := by
  unfold dispatchPacket
  rw [show decodeBuf (s.arrive bs rs).cfg (s.arrive bs rs).dp.n (s.arrive bs rs).buf = decodeBuf s.cfg s.dp.n s.buf from rfl]
  cases decodeBuf s.cfg s.dp.n s.buf with
  | ok i => exact exec_arrive bs rs (dispatched s) i
  | error r => cases r <;> rfl

theorem resumeHandler_arrive : resumeHandler (s.arrive bs rs) = mapOutcome (State.arrive bs rs) (resumeHandler s) := by
  have hi := inert_arrive bs rs
  unfold resumeHandler
  rw [show (s.arrive bs rs).pos = s.pos from rfl]
  cases s.pos with
  | start => exact dispatchPacket_arrive bs rs s
  | eraseIdle =>
    refine Eq.trans (congrArg Flow.outcome ?_) (Flow.outcome_map _ _)
    rw [hi.eraseFromIdle]
    exact Flow.map_bind fun st s => eraseTail_arrive bs rs s st
  | eraseDone =>
    refine Eq.trans (congrArg Flow.outcome ?_) (Flow.outcome_map _ _)
    rw [hi.eraseFinish]
    exact Flow.map_bind fun st s => eraseTail_arrive bs rs s st
  | programIdle ws =>
    refine Eq.trans (congrArg Flow.outcome ?_) (Flow.outcome_map _ _)
    rw [show (s.arrive bs rs).dp.i = s.dp.i from rfl, programLoop_arrive,
      Flow.map_bind (φ := State.arrive bs rs) (x := programLoop ws s.dp.i s) fun st s => hi.lockAfter s st]
    exact Flow.map_bind fun st s => writeTail_arrive bs rs s st
  | programDone ws =>
    refine Eq.trans (congrArg Flow.outcome ?_) (Flow.outcome_map _ _)
    rw [programResume_arrive]
    exact Flow.map_bind fun st s => writeTail_arrive bs rs s st
  | readWord left =>
    refine Eq.trans (congrArg Flow.outcome ?_) (Flow.outcome_map _ _)
    rw [show (s.arrive bs rs).dp.i = s.dp.i from rfl, readLoop_arrive]
    exact Flow.map_bind fun _ _ => rfl
  | jumpMsp => exact (congrArg Flow.outcome (jumpAppMsp_arrive bs rs s)).trans (Flow.outcome_map _ _)
  | jumpEntry => exact (congrArg Flow.outcome (jumpAppEntry_arrive bs rs s)).trans (Flow.outcome_map _ _)

/-- What arrives while a handler runs leaves the state it leaves when it arrives after the step (R7, R161). -/
theorem step_arrive (h : s.phase = .payloadReceived ∨ s.phase = .dispatched) :
    step (s.arrive bs rs) = mapOutcome (State.arrive bs rs) (step s) := by
  have hc : cycleStep (s.arrive bs rs) = mapOutcome (State.arrive bs rs) (cycleStep s) := by
    unfold cycleStep
    rw [show (s.arrive bs rs).phase = s.phase from rfl]
    rcases h with h | h <;> rw [h]
    · exact dispatchPacket_arrive bs rs s
    · exact resumeHandler_arrive bs rs s
  unfold step
  rw [show (s.arrive bs rs).faulted = s.faulted from rfl, show (s.arrive bs rs).cfg = s.cfg from rfl]
  split
  · rfl
  · split
    · exact hc
    · rfl

/-- The host's bytes as an arrival (R36). -/
theorem hostSends_eq : hostSends bs s = s.arrive bs [] := by simp [hostSends, State.arrive]

/-- The host's choice for a coming `Recv` as an arrival (R13). -/
theorem hostChoosesRecv_eq (d : RecvDraw) : hostChoosesRecv d s = s.arrive [] [d] := by simp [hostChoosesRecv, State.arrive]

end Sys2Proof.Machine
end

