-- ==== Sys2Proof/Laws/Checksum.lean ====
section
/-! SUPPORT. The checksum as a linear function (spec 40_checksum.md R131, R135, R136): rounds commute with XOR, and no round takes a nonzero
difference to zero. -/

namespace Sys2Proof.Machine

/-! ### One round -/

theorem crcRound_zero : crcRound 0#32 = 0#32 := by decide

theorem crcRound_xor (a b : Word) : crcRound (a ^^^ b) = crcRound a ^^^ crcRound b := by
  have hs : (a ^^^ b) <<< 1 = a <<< 1 ^^^ b <<< 1 := BitVec.shiftLeft_xor_distrib ..
  unfold crcRound
  rw [BitVec.msb_xor, hs]
  cases a.msb <;> cases b.msb <;> simp only [Bool.false_xor, Bool.true_xor, Bool.not_true, Bool.not_false, if_true, if_false,
    Bool.false_eq_true]
  · rw [BitVec.xor_assoc]
  · rw [BitVec.xor_assoc, BitVec.xor_comm (b <<< 1) crcPoly, ← BitVec.xor_assoc]
  · rw [BitVec.xor_assoc, ← BitVec.xor_assoc crcPoly, BitVec.xor_comm crcPoly, BitVec.xor_assoc (b <<< 1), BitVec.xor_self, BitVec.xor_zero]

/-- The polynomial's bit 0 is 1, so a round loses no difference. -/
theorem crcRound_eq_zero {a : Word} (h : crcRound a = 0#32) : a = 0#32 := by
  have hbit : ∀ i, i < 32 → (crcRound a).getLsbD i = false := by intro i hi; rw [h]; simp
  unfold crcRound at hbit
  split at hbit
  · have := hbit 0 (by decide)
    simp at this
    exact absurd this (by decide)
  · next hm =>
    apply BitVec.eq_of_getLsbD_eq
    intro i hi
    by_cases h31 : i = 31
    · subst h31
      rw [BitVec.msb_eq_getLsbD_last] at hm
      simpa using hm
    · have := hbit (i + 1) (by omega)
      simp only [BitVec.getLsbD_shiftLeft] at this
      have h1 : i + 1 < 32 := by omega
      simpa [h1] using this

/-! ### Many rounds -/

theorem crcRounds_xor : ∀ (n : Nat) (a b : Word), crcRounds n (a ^^^ b) = crcRounds n a ^^^ crcRounds n b
  | 0, _, _ => rfl
  | n + 1, a, b => by rw [crcRounds_succ, crcRound_xor, crcRounds_xor n, ← crcRounds_succ, ← crcRounds_succ]

theorem crcRounds_eq_zero : ∀ {n : Nat} {a : Word}, crcRounds n a = 0#32 → a = 0#32
  | 0, _, h => h
  | n + 1, _, h => by
    rw [crcRounds_succ] at h
    exact crcRound_eq_zero (crcRounds_eq_zero h)

/-! ### Bytes -/

/-- A register difference goes through an input byte as through 32 rounds. -/
theorem crcByte_xor (lane : CrcLane) (r d : Word) (b : Byte) :
    crcByte lane (r ^^^ d) b = crcByte lane r b ^^^ crcRounds 32 d := by
  unfold crcByte
  rw [← crcRounds_xor]
  congr 1
  unfold crcInput
  cases lane <;> simp only <;> rw [BitVec.xor_assoc, BitVec.xor_comm d, ← BitVec.xor_assoc]

/-- An input difference is a register difference. -/
theorem crcInput_xor (lane : CrcLane) (r : Word) (b m : Byte) : crcInput lane r (b ^^^ m) = crcInput lane r b ^^^ crcInput lane 0#32 m := by
  unfold crcInput
  cases lane <;> simp only [BitVec.setWidth_xor, BitVec.shiftLeft_xor_distrib, BitVec.zero_xor, BitVec.xor_assoc]

theorem crcInput_ne_zero {lane : CrcLane} {m : Byte} (h : m ≠ 0#8) : crcInput lane 0#32 m ≠ 0#32 := by
  intro h'
  apply h
  apply BitVec.eq_of_getLsbD_eq
  intro i hi
  unfold crcInput at h'
  cases lane
  · have := congrArg (fun x : Word => x.getLsbD (24 + i)) h'
    have h1 : 24 + i < 32 := by omega
    simpa [h1, hi] using this
  · have := congrArg (fun x : Word => x.getLsbD i) h'
    have h1 : i < 32 := by omega
    simpa [h1, hi] using this

/-- A nonzero register difference is still there after any bytes (R136). -/
theorem foldl_crcByte_xor (lane : CrcLane) : ∀ (bs : List Byte) (r d : Word), d ≠ 0#32 →
    ∃ d', d' ≠ 0#32 ∧ bs.foldl (crcByte lane) (r ^^^ d) = bs.foldl (crcByte lane) r ^^^ d'
  | [], _, d, h => ⟨d, h, rfl⟩
  | b :: bs, r, d, h => by
    rw [List.foldl_cons, List.foldl_cons, crcByte_xor]
    exact foldl_crcByte_xor lane bs _ _ fun h' => h (crcRounds_eq_zero h')

theorem xor_ne_self {w : Nat} {a d : BitVec w} (h : d ≠ 0#w) : a ^^^ d ≠ a := by
  intro h'
  apply h
  have : a ^^^ (a ^^^ d) = a ^^^ a := by rw [h']
  rwa [← BitVec.xor_assoc, BitVec.xor_self, BitVec.zero_xor] at this

/-- Changing one byte changes the checksum (R136). -/
theorem checksum_byte_changed (lane : CrcLane) (xs ys : List Byte) (b : Byte) {m : Byte} (h : m ≠ 0#8) :
    checksum lane (xs ++ (b ^^^ m) :: ys) ≠ checksum lane (xs ++ b :: ys) := by
  unfold checksum
  rw [List.foldl_append, List.foldl_append, List.foldl_cons, List.foldl_cons]
  have e : crcByte lane (xs.foldl (crcByte lane) crcSeed) (b ^^^ m) =
      crcByte lane (xs.foldl (crcByte lane) crcSeed) b ^^^ crcRounds 32 (crcInput lane 0#32 m) := by
    unfold crcByte
    rw [crcInput_xor, crcRounds_xor]
  obtain ⟨d', hd, he⟩ := foldl_crcByte_xor lane ys (crcByte lane (xs.foldl (crcByte lane) crcSeed) b)
    (crcRounds 32 (crcInput lane 0#32 m)) fun h' => crcInput_ne_zero h (crcRounds_eq_zero h')
  rw [e, he]
  exact xor_ne_self hd

end Sys2Proof.Machine
end

