-- ==== Sys2Proof/Laws/Programmer.lean ====
section
/-! SUPPORT. The Flash Programmer's sequences (spec 44_flash_controller.md R244; 45_memory_commands.md R262, R266), said once: what one word and
one run of words do to memory and to the FMC, and the same for the erase. -/

namespace Sys2Proof.Machine

open Sys2Proof.Safety

/-! ### Between Unlock and Lock -/

/-- The FMC between `Unlock` and `Lock`, with no operation in flight: no flag is set, and `CR` holds a program size alone. -/
abbrev FmcOpen (f : Fmc) : Prop := f.op = .noOp ∧ f.lockst = .unlocked ∧ f.sr = 0#32 ∧ f.cr &&& crPsize = f.cr

/-- The FMC in the middle of a word program: unlocked, SER and SNB 0 (R244). -/
abbrev FmcProgramming (f : Fmc) : Prop :=
  f.lockst = .unlocked ∧ f.cr &&& (crSer ||| crSnb) = 0#32 ∧ FmcReservedZero f

theorem psize_and_of_disjoint {r m : Word} (h : r &&& crPsize = r) (hm : crPsize &&& m = 0#32) : r &&& m = 0#32 := by
  rw [← h, BitVec.and_assoc, hm, BitVec.and_zero]

theorem FmcReady.opens {f : Fmc} (h : FmcReady f) : FmcOpen { f with lockst := .unlocked } :=
  ⟨h.1.1, rfl, fmcReady_sr (f := f) h, fmcReady_cr (f := f) h⟩

theorem FmcOpen.locks {f : Fmc} (h : FmcOpen f) : FmcReady { f with lockst := .lockedK1 } := by
  obtain ⟨h1, h2, h3, h4⟩ := h
  refine ⟨⟨h1, ?_, psize_and_of_disjoint h4 (by decide), .inl rfl⟩, ⟨?_, psize_and_of_disjoint h4 (by decide)⟩, rfl⟩
  · show f.sr &&& errMask = 0#32
    rw [h3, BitVec.zero_and]
  · show f.sr &&& ~~~errMask = 0#32
    rw [h3, BitVec.zero_and]

/-- `Lock` closes an open FMC (R243). -/
theorem lock_of_open {s : State} (h : FmcOpen s.fmc) : lock s = .go () (s.setFmc { s.fmc with lockst := .lockedK1 }) :=
  lock_open h.1 h.2.1 (psize_and_of_disjoint h.2.2.2 (by decide))

/-! ### One word (R244) -/

/-- The `CR` of the FMC while a word is programmed: PSIZE = 10 and PG = 1 (R244). -/
abbrev crProgramming : Word := 0x00000201#32

theorem programFields_open {r : Word} (h : r &&& crPsize = r) : programFields r = crProgramming := by
  unfold programFields setField
  rw [psize_and_of_disjoint h (by decide)]
  decide

/-- `ProgramWord` up to its store: the fields are set, and the word goes to memory (R244). -/
theorem programStart_open {w : Word} {ws : List Word} {i : Nat} {s : State} (h : FmcOpen s.fmc) :
    programStart w ws i s =
      memWrite (wordAddr s.dp.addr i) w (((s.setIndex i).setDataWord w).setFmc { s.fmc with cr := crProgramming }) := by
  obtain ⟨h1, h2, h3, h4⟩ := h
  unfold programStart
  rw [waitIdle_clean (by exact h1) (by show s.fmc.sr &&& _ = _; rw [h3, BitVec.zero_and])]
  simp only [Flow.bind_go]
  have hf : s.fmc.cr &&& crStored = s.fmc.cr := cr_and_stored (psize_and_of_disjoint h4 (by decide))
  have hp : programFields (s.fmc.cr &&& crStored) = crProgramming := by rw [hf]; exact programFields_open h4
  rw [modifyCr_open (s := (s.setIndex i).setDataWord w) h1 h2 (by
    show programFields (s.fmc.cr &&& crStored) &&& _ = _; rw [hp]; decide)]
  simp only [Flow.bind_go, State.setDataWord_fmc, State.setIndex_fmc, hp]
  rfl

/-- The FMC after the last step of `ProgramWord`: PG 0 again, no flag, nothing in flight (R244). -/
def Fmc.endProgram (f : Fmc) : Fmc := { f with op := .noOp, sr := 0#32, cr := f.cr &&& crPsize }

theorem FmcProgramming.ends {f : Fmc} (h : FmcProgramming f) : FmcOpen f.endProgram :=
  ⟨rfl, h.1, rfl, by show (f.cr &&& crPsize) &&& crPsize = _; rw [BitVec.and_assoc, BitVec.and_self]; rfl⟩

theorem endProgram_field {r : Word} (h : r &&& (crSer ||| crSnb) = 0#32) (hr : r &&& ~~~crUsed = 0#32) :
    setField (r &&& crStored) crPg 0#32 &&& crStored = r &&& crPsize := by
  rw [cr_and_stored hr]
  have e : r = r &&& (crPg ||| crPsize) := by
    have := eq_and_of_and_not hr
    rw [show crUsed = (crSer ||| crSnb) ||| (crPg ||| crPsize) by decide, BitVec.and_or_distrib_left, h, BitVec.zero_or] at this
    exact this
  unfold setField
  rw [BitVec.zero_and, BitVec.or_zero, BitVec.and_assoc]
  conv_lhs => rw [e]
  rw [BitVec.and_assoc]
  rfl

/-- The last lines of `ProgramWord`, once idle with its flags cleared. -/
theorem modifyCr_endProgram {s : State} (h : FmcProgramming s.fmc) (ho : s.fmc.op = .noOp) (hs : s.fmc.sr = 0#32) :
    modifyCr (fun r => setField r crPg 0#32) s = .go () (s.setFmc s.fmc.endProgram) := by
  obtain ⟨h1, h2, h3⟩ := h
  have e := endProgram_field h2 h3.2
  rw [modifyCr_open ho h1 (by
    show setField _ _ _ &&& _ = _
    rw [setField_and_of_disjoint (by decide), cr_and_stored h3.2]
    exact and_eq_zero_of_sub h3.2 (by decide))]
  show Flow.go () (s.setFmc { s.fmc with cr := setField (s.fmc.cr &&& crStored) crPg 0#32 &&& crStored }) = _
  rw [e]
  unfold Fmc.endProgram
  rw [← ho, ← hs]

theorem programFinish_idle {ws : List Word} {s : State} (h : FmcProgramming s.fmc) (ho : s.fmc.op = .noOp) :
    programFinish ws s = .go (statusOf s.fmc.sr) (s.setFmc s.fmc.endProgram) := by
  have hr := h.2.2.1
  unfold programFinish
  rw [waitIdle_idle ho]
  simp only [Flow.bind_go]
  rw [modifyCr_endProgram (s := s.setFmc { s.fmc with sr := s.fmc.sr &&& ~~~errMask })
    ⟨h.1, h.2.1, by rw [State.setFmc_fmc]; show (s.fmc.sr &&& ~~~errMask) &&& ~~~errMask = _; rw [hr, BitVec.zero_and], h.2.2.2⟩
    ho hr]
  rw [← eq_and_of_and_not hr]
  rfl

theorem programFinish_hold {ws : List Word} {s : State} (h : s.fmc.op ≠ .noOp) (hc : s.env.completions = []) :
    programFinish ws s = .stop (s.setPos (.programDone ws)) := by
  unfold programFinish; rw [waitIdle_hold h hc]; rfl

theorem programFinish_done {ws : List Word} {s : State} {d : Word} {ds : List Word} (h : FmcProgramming s.fmc)
    (ho : s.fmc.op ≠ .noOp) (hs : s.fmc.sr = 0#32) (hc : s.env.completions = d :: ds) :
    programFinish ws s = .go (statusOf (d &&& errMask))
      ((completeOp (d &&& errMask == 0#32) s.fmc.op (s.withCompletions ds)).setFmc s.fmc.endProgram) := by
  unfold programFinish
  rw [waitIdle_done ho hs hc]
  simp only [Flow.bind_go]
  rw [modifyCr_endProgram (s := (completeOp _ _ _).setFmc { s.fmc with op := .noOp }) ⟨h.1, h.2.1, h.2.2⟩ rfl hs]
  rfl

/-! ### ProgramWord as a whole -/

/-- `ProgramWord(a + 4i, w)` in the loop of `ProgramRange`, `ws` being the words after it (R244, R266). -/
def programWord (w : Word) (ws : List Word) (i : Nat) (s : State) : Flow Status :=
  (programStart w ws i s).bind fun _ s => programFinish ws s

theorem programLoop_cons (w : Word) (ws : List Word) (i : Nat) (s : State) :
    programLoop (w :: ws) i s =
      (programWord w ws i s).bind fun st s => if st = .ok then programLoop ws (i + 1) s else .go st s := by
  unfold programWord
  rw [Flow.bind_assoc]
  rfl

/-- The FMC after a word: PSIZE = 10 stays (R244). -/
abbrev fmcAfterWord : Fmc := { lockst := .unlocked, op := .noOp, sr := 0#32, cr := 0x00000200#32 }

theorem fmcAfterWord_open : FmcOpen fmcAfterWord := by decide

/-- The state after a word at index `i`, but for memory and the draws. -/
def State.afterWord (s : State) (i : Nat) (w : Word) : State := ((s.setIndex i).setDataWord w).setFmc fmcAfterWord

theorem programming_of_open {f : Fmc} (h : FmcOpen f) (op : FmcOp) (sr : Word) (hs : sr &&& ~~~errMask = 0#32) :
    FmcProgramming { f with op := op, sr := sr, cr := crProgramming } :=
  ⟨h.2.1, by show crProgramming &&& _ = _; decide, hs, by show crProgramming &&& _ = _; decide⟩

theorem endProgram_of_open {f : Fmc} (h : FmcOpen f) (op : FmcOp) (sr : Word) :
    ({ f with op := op, sr := sr, cr := crProgramming } : Fmc).endProgram = fmcAfterWord := by
  unfold Fmc.endProgram
  rw [show crProgramming &&& crPsize = 0x00000200#32 by decide]
  show ({ lockst := f.lockst, op := .noOp, sr := 0#32, cr := 0x00000200#32 } : Fmc) = _
  rw [h.2.1]

/-- A word in RAM is stored at once, with status OK (R75, R244, R277). -/
theorem programWord_ram {w : Word} {ws : List Word} {i : Nat} {s : State} (h : FmcOpen s.fmc)
    (ha : classify s.cfg (wordAddr s.dp.addr i) = .ramValid) :
    programWord w ws i s = .go .ok ((s.afterWord i w).setWordAt (wordAddr s.dp.addr i) w) := by
  unfold programWord
  rw [programStart_open h]
  unfold memWrite
  rw [show classify (((s.setIndex i).setDataWord w).setFmc _).cfg (wordAddr s.dp.addr i) = .ramValid from ha]
  simp only [Flow.bind_go]
  have hf : ({ s.fmc with cr := crProgramming } : Fmc) = { s.fmc with op := .noOp, sr := 0#32, cr := crProgramming } := by
    rw [← h.1, ← h.2.2.1]
  rw [hf, programFinish_idle (programming_of_open h .noOp 0#32 (by decide)) rfl]
  show Flow.go (statusOf 0#32) (State.setFmc _ (Fmc.endProgram { s.fmc with op := .noOp, sr := 0#32, cr := crProgramming })) = _
  rw [endProgram_of_open h]
  rfl

/-- The last two rows of R228: a store while the FMC is ready to program. -/
theorem flashWrite_ready {a w : Word} {t : State} (hc : t.fmc.cr = crProgramming) (hl : t.fmc.lockst = .unlocked)
    (ho : t.fmc.op = .noOp) :
    flashWrite a w t =
      if sectorOf t.cfg a ∈ t.cfg.wrpProtected then .go () (t.setFmc (t.fmc.raiseFlags srWrperr))
      else .go () (t.setFmc { t.fmc with op := .program a w }) := by
  have h1 : (!hasBits t.fmc.cr crPg || t.fmc.locked || hasBits t.fmc.cr crSer) = false := by
    rw [hc, Fmc.locked_eq_false.2 hl]; decide
  have h2 : ¬ (psizeOf t.fmc.cr ≠ 0b10#2) := by rw [hc]; decide
  unfold flashWrite
  rw [if_neg (by rw [h1]; decide), if_neg h2, if_neg (by rw [Fmc.busy_eq_false.2 ho]; decide)]

theorem memWrite_flash {w a : Word} {s : State} (ha : classify s.cfg a = .flashValid) (h : FmcOpen s.fmc) :
    memWrite a w (s.setFmc { s.fmc with cr := crProgramming }) =
      if sectorOf s.cfg a ∈ s.cfg.wrpProtected then .go () (s.setFmc { s.fmc with sr := srWrperr, cr := crProgramming })
      else .go () (s.setFmc { s.fmc with op := .program a w, cr := crProgramming }) := by
  obtain ⟨h1, h2, h3, h4⟩ := h
  have e : memWrite a w (s.setFmc { s.fmc with cr := crProgramming })
      = flashWrite a w (s.setFmc { s.fmc with cr := crProgramming }) := by
    unfold memWrite; simp only [State.setFmc_cfg, ha]
  rw [e, flashWrite_ready (t := s.setFmc { s.fmc with cr := crProgramming }) rfl h2 h1]
  have e' : ({ s.fmc with cr := crProgramming } : Fmc).raiseFlags srWrperr
      = { s.fmc with sr := srWrperr, cr := crProgramming } := by
    unfold Fmc.raiseFlags; simp only [h3, BitVec.zero_or]
  simp only [State.setFmc_fmc, State.setFmc_cfg]
  rw [e']
  rfl

/-- A word in a protected sector is refused by the FMC (R228). -/
theorem programWord_protected {w : Word} {ws : List Word} {i : Nat} {s : State} (h : FmcOpen s.fmc)
    (ha : classify s.cfg (wordAddr s.dp.addr i) = .flashValid)
    (hp : sectorOf s.cfg (wordAddr s.dp.addr i) ∈ s.cfg.wrpProtected) :
    programWord w ws i s = .go (.fail .hwError srWrperr) (s.afterWord i w) := by
  unfold programWord
  rw [programStart_open h]
  have := memWrite_flash (w := w) (s := (s.setIndex i).setDataWord w) (a := wordAddr s.dp.addr i) ha h
  simp only [State.setDataWord_fmc, State.setIndex_fmc] at this
  rw [this, if_pos (by exact hp)]
  simp only [Flow.bind_go]
  have hf : ({ s.fmc with sr := srWrperr, cr := crProgramming } : Fmc)
      = { s.fmc with op := .noOp, sr := srWrperr, cr := crProgramming } := by rw [← h.1]
  rw [hf, programFinish_idle (programming_of_open h .noOp srWrperr (by decide)) rfl]
  show Flow.go (statusOf srWrperr) (State.setFmc _ (Fmc.endProgram { s.fmc with op := .noOp, sr := srWrperr, cr := crProgramming })) = _
  rw [endProgram_of_open h]
  rfl

theorem programStart_flash {w : Word} {ws : List Word} {i : Nat} {s : State} (h : FmcOpen s.fmc)
    (ha : classify s.cfg (wordAddr s.dp.addr i) = .flashValid)
    (hp : sectorOf s.cfg (wordAddr s.dp.addr i) ∉ s.cfg.wrpProtected) :
    programStart w ws i s = .go () (((s.setIndex i).setDataWord w).setFmc
      { s.fmc with op := .program (wordAddr s.dp.addr i) w, cr := crProgramming }) := by
  rw [programStart_open h]
  have := memWrite_flash (w := w) (s := (s.setIndex i).setDataWord w) (a := wordAddr s.dp.addr i) ha h
  simp only [State.setDataWord_fmc, State.setIndex_fmc] at this
  rw [this, if_neg (by exact hp)]

/-- A flash word whose operation has no completion yet: the handler holds, with the program in flight (R228, R236). -/
theorem programWord_hold {w : Word} {ws : List Word} {i : Nat} {s : State} (h : FmcOpen s.fmc)
    (ha : classify s.cfg (wordAddr s.dp.addr i) = .flashValid)
    (hp : sectorOf s.cfg (wordAddr s.dp.addr i) ∉ s.cfg.wrpProtected) (hc : s.env.completions = []) :
    programWord w ws i s = .stop ((((s.setIndex i).setDataWord w).setFmc
      { s.fmc with op := .program (wordAddr s.dp.addr i) w, cr := crProgramming }).setPos (.programDone ws)) := by
  unfold programWord
  rw [programStart_flash h ha hp]
  simp only [Flow.bind_go]
  rw [programFinish_hold (by simp) (by exact hc)]

/-- A flash word whose operation completes with the drawn flags `d` (R228, R238, R244). -/
theorem programWord_flash {w : Word} {ws : List Word} {i : Nat} {s : State} {d : Word} {ds : List Word} (h : FmcOpen s.fmc)
    (ha : classify s.cfg (wordAddr s.dp.addr i) = .flashValid)
    (hp : sectorOf s.cfg (wordAddr s.dp.addr i) ∉ s.cfg.wrpProtected) (hc : s.env.completions = d :: ds) :
    programWord w ws i s = .go (statusOf (d &&& errMask))
      (completeProgram (d &&& errMask == 0#32) (wordAddr s.dp.addr i) w ((s.afterWord i w).withCompletions ds)) := by
  unfold programWord
  rw [programStart_flash h ha hp]
  simp only [Flow.bind_go]
  have hf : ({ s.fmc with op := .program (wordAddr s.dp.addr i) w, cr := crProgramming } : Fmc)
      = { s.fmc with op := .program (wordAddr s.dp.addr i) w, sr := 0#32, cr := crProgramming } := by rw [← h.2.2.1]
  rw [hf, programFinish_done (programming_of_open h _ 0#32 (by decide)) (by simp) rfl (by exact hc)]
  show Flow.go _ (State.setFmc _ (Fmc.endProgram { s.fmc with op := _, sr := 0#32, cr := crProgramming })) = _
  rw [endProgram_of_open h]
  rfl

end Sys2Proof.Machine
end

