-- ==== Sys2Proof/Laws/Erase.lean ====
section
/-! SUPPORT. `EraseAppSector` (spec 45_memory_commands.md R262 to R264), said once: its start, its end, and its outcomes. -/

namespace Sys2Proof.Machine

open Sys2Proof.Safety

/-- The `CR` of the FMC while sector `n` is erased: PSIZE = 10, SNB = n, SER = 1 (R262). -/
def crErase (n : Nat) : Word := 0x00000202#32 ||| snbField n

theorem crErase_fields : ∀ n : Fin 16,
    hasBits (crErase n) crSer = true ∧ hasBits (crErase n) crPg = false ∧ hasBits (crErase n) crMer = false ∧
    snbOf (crErase n) = n ∧ crErase n &&& (crStrt ||| crLock) = 0#32 ∧ crErase n &&& ~~~crUsed = 0#32 ∧
    crErase n &&& crPg = 0#32 ∧ crErase n &&& crPsize = 0x00000200#32 ∧
    (psizeField 0b10#2 ||| snbField n ||| crSer) &&& (crPsize ||| crSnb ||| crSer) = crErase n := by decide

theorem eraseFields_open {r : Word} {n : Nat} (h : r &&& crPsize = r) (hn : n < 16) : eraseFields n r = crErase n := by
  unfold eraseFields setField
  rw [psize_and_of_disjoint h (by decide), (crErase_fields ⟨n, hn⟩).2.2.2.2.2.2.2.2, BitVec.zero_or]

/-- Select and trigger (R227, R262): the erase is in flight, or the FMC refuses a protected sector. -/
theorem eraseStart_open {s : State} (h : FmcOpen s.fmc) (hw : cfgWf s.cfg = true) (hn : s.cfg.appSector < s.cfg.numSectors) :
    eraseStart s =
      if s.cfg.appSector ∈ s.cfg.wrpProtected then
        .go () (s.setFmc { s.fmc with sr := srWrperr, cr := crErase s.cfg.appSector })
      else .go () (s.setFmc { s.fmc with op := .erase s.cfg.appSector, cr := crErase s.cfg.appSector }) := by
  obtain ⟨h1, h2, h3, h4⟩ := h
  have hn16 : s.cfg.appSector < 16 := lt_of_lt_of_le hn (cfgWf_sectors hw)
  obtain ⟨f1, f2, f3, f4, f5, f6, f7, f8, f9⟩ := crErase_fields ⟨s.cfg.appSector, hn16⟩
  simp only at f1 f2 f3 f4 f5 f6 f7 f8 f9
  have hf : s.fmc.cr &&& crStored = s.fmc.cr := cr_and_stored (psize_and_of_disjoint h4 (by decide))
  have e1 : eraseFields s.cfg.appSector (s.fmc.cr &&& crStored) = crErase s.cfg.appSector := by
    rw [hf]; exact eraseFields_open h4 hn16
  have e2 : crErase s.cfg.appSector &&& crStored = crErase s.cfg.appSector := cr_and_stored f6
  unfold eraseStart
  rw [if_neg (by omega), modifyCr_open h1 h2 (by rw [e1]; exact f5), e1, e2]
  simp only [Flow.bind_go]
  have key : ∀ t : State, t.cfg = s.cfg → t.fmc = { s.fmc with cr := crErase s.cfg.appSector } →
      modifyCr (fun r => setField r crStrt crStrt) t =
        if s.cfg.appSector ∈ s.cfg.wrpProtected then .go () (t.setFmc { t.fmc with sr := srWrperr })
        else .go () (t.setFmc { t.fmc with op := .erase s.cfg.appSector }) := by
    intro t htc htf
    have ho : t.fmc.op = .noOp := by rw [htf]; exact h1
    have hl : t.fmc.lockst = .unlocked := by rw [htf]; exact h2
    have hcr : t.fmc.cr = crErase s.cfg.appSector := by rw [htf]
    have hsr : t.fmc.sr = 0#32 := by rw [htf]; exact h3
    have g1 : hasBits (setField (crErase s.cfg.appSector) crStrt crStrt) crStrt = true := by
      unfold hasBits; rw [setField_and_of_sub (by decide)]; decide
    have g2 : hasBits (setField (crErase s.cfg.appSector) crStrt crStrt) crLock = false := by
      apply hasBits_eq_false
      rw [setField_and_of_disjoint (by decide)]
      exact and_eq_zero_of_sub f5 (by decide)
    have g3 : setField (crErase s.cfg.appSector) crStrt crStrt &&& crStored = crErase s.cfg.appSector := by
      rw [setField_and_of_disjoint (by decide)]; exact e2
    rw [modifyCr_eq]
    unfold writeCr
    rw [if_neg (by rw [Fmc.busy_eq_false.2 ho]; decide), if_neg (by rw [Fmc.locked_eq_false.2 hl]; decide),
      Fmc.readCr_open ho hl, hcr, e2, if_pos g1]
    have g4 : storeCr (setField (crErase s.cfg.appSector) crStrt crStrt) t.fmc = t.fmc := by
      unfold storeCr; rw [g3, if_neg (by rw [g2]; decide), ← hcr]
    rw [g4]
    unfold startErase
    simp only [State.setFmc_fmc, State.setFmc_cfg, hcr, f1, f2, f3, f4, htc]
    rw [if_pos (by decide), if_neg (by exact Nat.not_le.2 hn)]
    split
    · unfold Fmc.raiseFlags; rw [hsr, BitVec.zero_or, hcr]; rfl
    · rfl
  rw [key (s.setFmc { s.fmc with cr := crErase s.cfg.appSector }) rfl rfl]
  rfl

/-! ### The end of the sequence -/

/-- The FMC during an erase, from its trigger to the last steps of the sequence: unlocked, PG 0 (R262). -/
abbrev FmcErasing (f : Fmc) : Prop := f.lockst = .unlocked ∧ f.cr &&& crPg = 0#32 ∧ FmcReservedZero f

/-- The FMC after the sequence: SER and SNB 0 again, locked, no flag, nothing in flight (R262). -/
def Fmc.endErase (f : Fmc) : Fmc := { lockst := .lockedK1, op := .noOp, sr := 0#32, cr := f.cr &&& crPsize }

theorem endErase_ready (f : Fmc) : FmcReady f.endErase := by
  have hp : (f.cr &&& crPsize) &&& crPsize = f.cr &&& crPsize := by rw [BitVec.and_assoc, BitVec.and_self]
  exact ⟨⟨rfl, BitVec.zero_and, psize_and_of_disjoint hp (by decide), .inl rfl⟩,
    ⟨BitVec.zero_and, psize_and_of_disjoint hp (by decide)⟩, rfl⟩

/-- The lines of `EraseAppSector` after its last wait, as one function. -/
def eraseClose (st : Status) (s : State) : Flow Status :=
  (modifyCr (fun r => setField r (crSer ||| crSnb) 0#32) s).bind fun _ s => (lock s).bind fun _ s => .go st s

theorem eraseClose_open {st : Status} {s : State} (h : FmcErasing s.fmc) (ho : s.fmc.op = .noOp) (hs : s.fmc.sr = 0#32) :
    eraseClose st s = .go st (s.setFmc s.fmc.endErase) := by
  obtain ⟨h1, h2, h3⟩ := h
  have e : setField (s.fmc.cr &&& crStored) (crSer ||| crSnb) 0#32 &&& crStored = s.fmc.cr &&& crPsize := by
    have e' : s.fmc.cr = s.fmc.cr &&& ((crSer ||| crSnb) ||| crPsize) := by
      have := eq_and_of_and_not (m := crUsed) h3.2
      rw [show crUsed = crPg ||| ((crSer ||| crSnb) ||| crPsize) by decide, BitVec.and_or_distrib_left, h2, BitVec.zero_or] at this
      exact this
    rw [cr_and_stored h3.2]
    unfold setField
    rw [BitVec.zero_and, BitVec.or_zero, BitVec.and_assoc]
    conv_lhs => rw [e']
    rw [BitVec.and_assoc]
    rfl
  unfold eraseClose
  rw [modifyCr_open ho h1 (by
    show setField _ _ _ &&& _ = _
    rw [setField_and_of_disjoint (by decide), cr_and_stored h3.2]
    exact and_eq_zero_of_sub h3.2 (by decide))]
  simp only [Flow.bind_go]
  rw [e, lock_of_open (s := s.setFmc { s.fmc with cr := s.fmc.cr &&& crPsize })
    ⟨ho, h1, hs, by show (s.fmc.cr &&& crPsize) &&& crPsize = _; rw [BitVec.and_assoc, BitVec.and_self]; rfl⟩]
  simp only [Flow.bind_go, State.setFmc_fmc]
  unfold Fmc.endErase
  rw [ho, hs]
  rfl

theorem eraseFinish_eq (s : State) : eraseFinish s = (waitIdle .eraseDone s).bind eraseClose := rfl

theorem eraseFinish_idle {s : State} (h : FmcErasing s.fmc) (ho : s.fmc.op = .noOp) :
    eraseFinish s = .go (statusOf s.fmc.sr) (s.setFmc s.fmc.endErase) := by
  have hr := h.2.2.1
  rw [eraseFinish_eq, waitIdle_idle ho, Flow.bind_go,
    eraseClose_open (s := s.setFmc { s.fmc with sr := s.fmc.sr &&& ~~~errMask })
      ⟨h.1, h.2.1, by rw [State.setFmc_fmc]; show (s.fmc.sr &&& ~~~errMask) &&& ~~~errMask = _; rw [hr, BitVec.zero_and], h.2.2.2⟩
      ho hr, ← eq_and_of_and_not hr]
  rfl

theorem eraseFinish_hold {s : State} (h : s.fmc.op ≠ .noOp) (hc : s.env.completions = []) :
    eraseFinish s = .stop (s.setPos .eraseDone) := by
  rw [eraseFinish_eq, waitIdle_hold h hc]; rfl

theorem eraseFinish_done {s : State} {d : Word} {ds : List Word} (h : FmcErasing s.fmc) (ho : s.fmc.op ≠ .noOp)
    (hs : s.fmc.sr = 0#32) (hc : s.env.completions = d :: ds) :
    eraseFinish s = .go (statusOf (d &&& errMask))
      ((completeOp (d &&& errMask == 0#32) s.fmc.op (s.withCompletions ds)).setFmc s.fmc.endErase) := by
  rw [eraseFinish_eq, waitIdle_done ho hs hc, Flow.bind_go,
    eraseClose_open (s := (completeOp _ _ _).setFmc { s.fmc with op := .noOp }) ⟨h.1, h.2.1, h.2.2⟩ rfl hs]
  rfl

theorem erasing_of_open {f : Fmc} (h : FmcOpen f) {n : Nat} (hn : n < 16) (op : FmcOp) (sr : Word)
    (hs : sr &&& ~~~errMask = 0#32) : FmcErasing { f with op := op, sr := sr, cr := crErase n } :=
  ⟨h.2.1, (crErase_fields ⟨n, hn⟩).2.2.2.2.2.2.1, hs, (crErase_fields ⟨n, hn⟩).2.2.2.2.2.1⟩

theorem endErase_crErase {f : Fmc} {n : Nat} (hn : n < 16) (hc : f.cr = crErase n) : f.endErase = fmcAfterSequence := by
  unfold Fmc.endErase
  rw [hc, (crErase_fields ⟨n, hn⟩).2.2.2.2.2.2.2.1]

/-! ### The sequence as a whole -/

section Outcomes

variable {s : State}

theorem eraseFromIdle_ready (h : FmcReady s.fmc) :
    eraseFromIdle s = (eraseStart (s.setFmc { s.fmc with lockst := .unlocked })).bind fun _ s => eraseFinish s := by
  unfold eraseFromIdle
  rw [waitIdle_clean h.1.1 h.1.2.1]
  simp only [Flow.bind_go]
  rw [unlock_first h.2.2]
  rfl

/-- No such sector: the FMC is not touched (R264). -/
theorem eraseAppSector_range (hn : s.cfg.numSectors ≤ s.cfg.appSector) :
    eraseAppSector s = .go (.fail .sectorOutOfRange 0#32) s := by
  unfold eraseAppSector; rw [if_pos hn]

/-- A hard-locked FMC: nothing changes (R263). -/
theorem eraseAppSector_hard (hn : s.cfg.appSector < s.cfg.numSectors) (h : FmcAtRest s.fmc) (hl : s.fmc.lockst = .lockedHard) :
    eraseAppSector s = .go (.fail .unlockFailed 0#32) s := by
  unfold eraseAppSector eraseFromIdle
  rw [if_neg (by omega), waitIdle_clean h.1 h.2.1]
  simp only [Flow.bind_go]
  rw [unlock_hard hl]
  simp only [Flow.bind_go]
  rw [if_neg (by decide), lock_locked h.1 (.inr hl)]
  rfl

variable (hw : cfgWf s.cfg = true) (hn : s.cfg.appSector < s.cfg.numSectors) (h : FmcReady s.fmc)

include hw hn h

theorem eraseStart_ready :
    eraseStart (s.setFmc { s.fmc with lockst := .unlocked }) =
      if s.cfg.appSector ∈ s.cfg.wrpProtected then
        .go () (s.setFmc { s.fmc with lockst := .unlocked, sr := srWrperr, cr := crErase s.cfg.appSector })
      else .go () (s.setFmc
        { s.fmc with lockst := .unlocked, op := .erase s.cfg.appSector, cr := crErase s.cfg.appSector }) :=
  eraseStart_open (s := s.setFmc { s.fmc with lockst := .unlocked }) (FmcReady.opens h) hw hn

/-- A protected sector: the FMC flags it and nothing starts (R227, R263). -/
theorem eraseAppSector_protected (hp : s.cfg.appSector ∈ s.cfg.wrpProtected) :
    eraseAppSector s = .go (.fail .hwError srWrperr) (s.setFmc fmcAfterSequence) := by
  have hn16 : s.cfg.appSector < 16 := lt_of_lt_of_le hn (cfgWf_sectors hw)
  have ho := FmcReady.opens h
  unfold eraseAppSector
  rw [if_neg (by omega), eraseFromIdle_ready h, eraseStart_ready hw hn h, if_pos hp]
  simp only [Flow.bind_go]
  rw [eraseFinish_idle (s := s.setFmc { s.fmc with lockst := .unlocked, sr := srWrperr, cr := crErase s.cfg.appSector })
    (erasing_of_open ho hn16 _ srWrperr (by decide)) h.1.1]
  show Flow.go (statusOf srWrperr) (s.setFmc (Fmc.endErase _)) = _
  rw [endErase_crErase hn16 rfl]
  rfl

/-- The state in which the erase is in flight (R227). -/
theorem eraseAppSector_started (hp : s.cfg.appSector ∉ s.cfg.wrpProtected) :
    eraseAppSector s = eraseFinish (s.setFmc
      { s.fmc with lockst := .unlocked, op := .erase s.cfg.appSector, cr := crErase s.cfg.appSector }) := by
  unfold eraseAppSector
  rw [if_neg (by omega), eraseFromIdle_ready h, eraseStart_ready hw hn h, if_neg hp]
  rfl

/-- The FMC while the erase runs. -/
theorem erasing_inFlight :
    FmcErasing { s.fmc with lockst := .unlocked, op := .erase s.cfg.appSector, cr := crErase s.cfg.appSector } := by
  have hn16 : s.cfg.appSector < 16 := lt_of_lt_of_le hn (cfgWf_sectors hw)
  exact ⟨rfl, (crErase_fields ⟨_, hn16⟩).2.2.2.2.2.2.1, h.2.1.1, (crErase_fields ⟨_, hn16⟩).2.2.2.2.2.1⟩

theorem eraseAppSector_hold (hp : s.cfg.appSector ∉ s.cfg.wrpProtected) (hc : s.env.completions = []) :
    eraseAppSector s = .stop ((s.setFmc
      { s.fmc with lockst := .unlocked, op := .erase s.cfg.appSector, cr := crErase s.cfg.appSector }).setPos .eraseDone) := by
  rw [eraseAppSector_started hw hn h hp, eraseFinish_hold (by simp) (by exact hc)]

/-- The erase that completes with the drawn flags `d` (R238, R263). -/
theorem eraseAppSector_done (hp : s.cfg.appSector ∉ s.cfg.wrpProtected) {d : Word} {ds : List Word}
    (hc : s.env.completions = d :: ds) :
    eraseAppSector s = .go (statusOf (d &&& errMask))
      ((completeErase (d &&& errMask == 0#32) s.cfg.appSector (s.withCompletions ds)).setFmc fmcAfterSequence) := by
  have hn16 : s.cfg.appSector < 16 := lt_of_lt_of_le hn (cfgWf_sectors hw)
  rw [eraseAppSector_started hw hn h hp, eraseFinish_done
    (s := s.setFmc { s.fmc with lockst := .unlocked, op := .erase s.cfg.appSector, cr := crErase s.cfg.appSector })
    (erasing_inFlight hw hn h) (by simp) (fmcReady_sr (f := s.fmc) h) hc]
  congr 1
  rw [show (s.setFmc { s.fmc with lockst := .unlocked, op := .erase s.cfg.appSector, cr := crErase s.cfg.appSector }).fmc.endErase
    = fmcAfterSequence from endErase_crErase hn16 rfl]
  show (completeErase _ s.cfg.appSector _).setFmc _ = _
  unfold completeErase
  show State.setFmc (match s.cfg.sectors[s.cfg.appSector]? with | none => _ | some x => _) _
    = State.setFmc (match s.cfg.sectors[s.cfg.appSector]? with | none => _ | some x => _) _
  cases s.cfg.sectors[s.cfg.appSector]? with
  | none => rfl
  | some x => cases (d &&& errMask == 0#32) <;> rfl

end Outcomes

end Sys2Proof.Machine
end

