-- ==== Sys2Proof/Laws/Ranges.lean ====
section
/-! SUPPORT. The loops of `ProgramRange` and `ReadRange` (spec 45_memory_commands.md R266, R267), by prefixes: what the first `k` words
come to, and where the loop goes on. -/

namespace Sys2Proof.Machine

open Sys2Proof.Safety

/-- An address that no protected sector holds, in the terms of R228's rows. -/
theorem sectorOf_not_protected {cfg : Cfg} {a : Word} (hw : cfgWf cfg = true) (h : Unprotected cfg a)
    (ha : classify cfg a = .flashValid) : sectorOf cfg a ∉ cfg.wrpProtected := by
  obtain ⟨n, x, hx, h1, h2⟩ := exists_sector hw ha
  rw [sectorOf_eq hw hx h1 h2]
  exact h n x hx h1 h2

/-! ### Words by their bytes -/

theorem State.wordAt_of_bytes {s t : State} {a : Word} (h : ∀ k, k < 4 → t.byteAt (a.toNat + k) = s.byteAt (a.toNat + k)) :
    t.wordAt a = s.wordAt a := by
  have h0 := h 0 (by decide)
  have h1 := h 1 (by decide)
  have h2 := h 2 (by decide)
  have h3 := h 3 (by decide)
  unfold State.wordAt
  simp only [Nat.add_zero] at h0
  rw [h0, h1, h2, h3]

/-- A program's effect on memory: the word it targets, and nothing else (R84, R238). -/
theorem completeProgram_byteAt {ok : Bool} {a v : Word} {s : State} {x : Nat} (h : x < a.toNat ∨ a.toNat + 4 ≤ x) :
    (completeProgram ok a v s).byteAt x = s.byteAt x := by
  show (State.setWordAt _ _ _).byteAt x = _
  rw [State.byteAt_setWordAt, if_neg (by omega)]

theorem completeProgram_wordAt {ok : Bool} {a v : Word} {s : State} :
    (completeProgram ok a v s).wordAt a =
      if ok then programmed s.cfg.programOverwrite (s.wordAt a) v (Config.freeWord s.env.drawn)
      else Config.freeWord s.env.drawn := by
  show (State.setWordAt _ _ _).wordAt a = _
  rw [State.wordAt_setWordAt_self]

/-- A program with status OK under `AND` (R238). -/
theorem programmed_and (old v free : Word) : programmed .and old v free = old &&& v := rfl

/-- A program with status OK on an erased word, under either parameter (R239). -/
theorem programmed_erased (ow : Overwrite) (v free : Word) : programmed ow 0xFFFFFFFF#32 v free = v := by
  cases ow with
  | and => show BitVec.allOnes 32 &&& v = v; rw [BitVec.allOnes_and]
  | any => rfl

/-! ### ProgramRange in RAM -/

section Program

/-- What a program with status OK leaves in a word that held `old` (R238, R239). -/
abbrev Programmed (cfg : Cfg) (old v new : Word) : Prop :=
  (cfg.programOverwrite = .and → new = old &&& v) ∧ (old = 0xFFFFFFFF#32 → new = v)

theorem completeProgram_programmed {d a v : Word} {s : State} (hd : DrawOk d) :
    Programmed s.cfg (s.wordAt a) v ((completeProgram (d &&& errMask == 0#32) a v s).wordAt a) := by
  rw [completeProgram_wordAt, if_pos (by rw [hd]; rfl)]
  constructor
  · intro h; rw [h]; rfl
  · intro h; rw [h, programmed_erased]

/-- The first `k` words of a run in RAM are stored, and the loop goes on behind them (R75, R266, R277). -/
theorem programLoop_ram (k : Nat) : ∀ (ws : List Word) (i : Nat) (s : State), k ≤ ws.length → FmcOpen s.fmc →
    (∀ j, j < k → classify s.cfg (wordAddr s.dp.addr (i + j)) = .ramValid) → s.dp.addr.toNat + 4 * (i + k) ≤ 2 ^ 32 →
    ∃ t, programLoop ws i s = programLoop (ws.drop k) (i + k) t ∧ FmcOpen t.fmc ∧
      t = { s with mem := t.mem, fmc := t.fmc, dp := { s.dp with i := t.dp.i, w := t.dp.w } } ∧
      (∀ j w, j < k → ws[j]? = some w → t.wordAt (wordAddr s.dp.addr (i + j)) = w) ∧
      (∀ x : Nat, x < s.dp.addr.toNat + 4 * i ∨ s.dp.addr.toNat + 4 * (i + k) ≤ x → t.byteAt x = s.byteAt x) := by
  induction k with
  | zero => exact fun ws i s _ h _ _ => ⟨s, rfl, h, rfl, fun _ _ hj => absurd hj (Nat.not_lt_zero _), fun _ _ => rfl⟩
  | succ k ih =>
    intro ws i s hk h ha hb
    cases ws with
    | nil => simp at hk
    | cons w ws =>
      have hkw : k ≤ ws.length := by simpa using hk
      have hA : (wordAddr s.dp.addr i).toNat = s.dp.addr.toNat + 4 * i := wordAddr_toNat (by omega)
      have e1 := programWord_ram (w := w) (ws := ws) h (by simpa using ha 0 (by omega))
      let s1 := (s.afterWord i w).setWordAt (wordAddr s.dp.addr i) w
      obtain ⟨t, e2, h2, h3, h4, h5⟩ := ih ws (i + 1) s1 hkw fmcAfterWord_open
        (fun j hj => by
          have := ha (j + 1) (by omega)
          rw [show i + (j + 1) = i + 1 + j by omega] at this
          exact this)
        (by show s.dp.addr.toNat + _ ≤ _; omega)
      have h5' : ∀ x : Nat, x < s.dp.addr.toNat + 4 * (i + 1) ∨ s.dp.addr.toNat + 4 * (i + 1 + k) ≤ x →
          t.byteAt x = s1.byteAt x := h5
      have hb1 : ∀ x : Nat, x < s.dp.addr.toNat + 4 * i ∨ s.dp.addr.toNat + 4 * i + 4 ≤ x → s1.byteAt x = s.byteAt x := by
        intro x hx
        show ((s.afterWord i w).setWordAt _ w).byteAt x = _
        rw [State.byteAt_setWordAt, if_neg (by omega)]
        rfl
      refine ⟨t, ?_, h2, ?_, ?_, ?_⟩
      · rw [programLoop_cons, e1]
        simp only [Flow.bind_go, if_true]
        rw [show (s.afterWord i w).setWordAt (wordAddr s.dp.addr i) w = s1 from rfl, e2]
        simp only [List.drop_succ_cons]
        rw [show i + (k + 1) = i + 1 + k by omega]
      · rw [h3]; rfl
      · intro j v hj hv
        cases j with
        | zero =>
          simp only [List.getElem?_cons_zero, Option.some.injEq] at hv
          subst hv
          rw [Nat.add_zero, State.wordAt_of_bytes (s := s1) (fun k' hk' => h5' _ (by omega))]
          exact State.wordAt_setWordAt_self _ _ _
        | succ j =>
          have := h4 j v (by omega) (by simpa using hv)
          rw [show i + (j + 1) = i + 1 + j by omega]
          exact this
      · intro x hx
        rw [h5' x (by omega), hb1 x (by omega)]

/-- One flash word whose operation completes with OK, in the terms of the run's lemma. -/
theorem programWord_flash_ok {w : Word} {ws : List Word} {i : Nat} {s : State} {d : Word} {ds : List Word} (h : FmcOpen s.fmc)
    (ha : classify s.cfg (wordAddr s.dp.addr i) = .flashValid)
    (hp : sectorOf s.cfg (wordAddr s.dp.addr i) ∉ s.cfg.wrpProtected) (hc : s.env.completions = d :: ds) (hd : DrawOk d) :
    ∃ t, programWord w ws i s = .go .ok t ∧ FmcOpen t.fmc ∧
      t = { s with
        mem := t.mem, fmc := t.fmc, dp := { s.dp with i := t.dp.i, w := t.dp.w },
        env := { s.env with completions := ds, drawn := t.env.drawn } } ∧
      Programmed s.cfg (s.wordAt (wordAddr s.dp.addr i)) w (t.wordAt (wordAddr s.dp.addr i)) ∧
      (∀ x : Nat, x < (wordAddr s.dp.addr i).toNat ∨ (wordAddr s.dp.addr i).toNat + 4 ≤ x → t.byteAt x = s.byteAt x) := by
  refine ⟨completeProgram (d &&& errMask == 0#32) (wordAddr s.dp.addr i) w ((s.afterWord i w).withCompletions ds),
    ?_, fmcAfterWord_open, rfl, completeProgram_programmed (s := (s.afterWord i w).withCompletions ds) hd, ?_⟩
  · rw [programWord_flash h ha hp hc]
    unfold statusOf
    rw [if_pos hd]
  · intro x hx
    rw [completeProgram_byteAt hx]
    rfl

/-- The first `oks.length` words of a run in flash, whose operations complete with OK, are programmed, and the loop goes on behind
them (R238, R266). -/
theorem programLoop_flash (oks : List Word) : ∀ (cs : List Word) (ws : List Word) (i : Nat) (s : State), oks.length ≤ ws.length →
    FmcOpen s.fmc → (∀ j, j < oks.length → classify s.cfg (wordAddr s.dp.addr (i + j)) = .flashValid) →
    (∀ j, j < oks.length → sectorOf s.cfg (wordAddr s.dp.addr (i + j)) ∉ s.cfg.wrpProtected) →
    s.dp.addr.toNat + 4 * (i + oks.length) ≤ 2 ^ 32 → s.env.completions = oks ++ cs → (∀ d ∈ oks, DrawOk d) →
    ∃ t, programLoop ws i s = programLoop (ws.drop oks.length) (i + oks.length) t ∧ FmcOpen t.fmc ∧
      t = { s with
        mem := t.mem, fmc := t.fmc, dp := { s.dp with i := t.dp.i, w := t.dp.w },
        env := { s.env with completions := cs, drawn := t.env.drawn } } ∧
      (∀ j w, j < oks.length → ws[j]? = some w →
        Programmed s.cfg (s.wordAt (wordAddr s.dp.addr (i + j))) w (t.wordAt (wordAddr s.dp.addr (i + j)))) ∧
      (∀ x : Nat, x < s.dp.addr.toNat + 4 * i ∨ s.dp.addr.toNat + 4 * (i + oks.length) ≤ x → t.byteAt x = s.byteAt x) := by
  induction oks with
  | nil =>
    intro cs ws i s _ h _ _ _ hc _
    refine ⟨s, rfl, h, ?_, fun _ _ hj => absurd hj (Nat.not_lt_zero _), fun _ _ => rfl⟩
    rw [List.nil_append] at hc
    rw [← hc]
  | cons d oks ih =>
    intro cs ws i s hk h ha hp hb hc hd
    simp only [List.length_cons] at hk ha hp hb
    cases ws with
    | nil => simp at hk
    | cons w ws =>
      have hA : (wordAddr s.dp.addr i).toNat = s.dp.addr.toNat + 4 * i := wordAddr_toNat (by omega)
      obtain ⟨s1, e1, g2, g3, g4, g5⟩ := programWord_flash_ok (w := w) (ws := ws) h (by simpa using ha 0 (by omega))
        (by simpa using hp 0 (by omega)) hc (hd d (by simp))
      have c1 : s1.cfg = s.cfg := by rw [g3]
      have c2 : s1.dp.addr = s.dp.addr := by rw [g3]
      have c3 : s1.env.completions = oks ++ cs := by rw [g3]; rfl
      have := ih cs ws (i + 1) s1 (by simpa using hk) g2
        (fun j hj => by
          have := ha (j + 1) (by omega)
          rwa [c1, c2, show i + 1 + j = i + (j + 1) by omega])
        (fun j hj => by
          have := hp (j + 1) (by omega)
          rwa [c1, c2, show i + 1 + j = i + (j + 1) by omega])
        (by rw [c2]; omega) c3 (fun d' hd' => hd d' (by simp [hd']))
      rw [c1, c2] at this
      obtain ⟨t, e2, h2, h3, h4, h5⟩ := this
      refine ⟨t, ?_, h2, ?_, ?_, ?_⟩
      · rw [programLoop_cons, e1, Flow.bind_go, if_pos rfl, e2, List.length_cons, List.drop_succ_cons,
          show i + (oks.length + 1) = i + 1 + oks.length by omega]
      · exact h3.trans (by rw [g3])
      · intro j v hj hv
        cases j with
        | zero =>
          simp only [List.getElem?_cons_zero, Option.some.injEq] at hv
          subst hv
          rw [Nat.add_zero, State.wordAt_of_bytes (s := s1) (t := t) (fun k' hk' => h5 _ (by omega))]
          exact g4
        | succ j =>
          simp only [List.length_cons] at hj
          have := h4 j v (by omega) (by simpa using hv)
          rw [show i + (j + 1) = i + 1 + j by omega]
          have hA2 : (wordAddr s.dp.addr (i + 1 + j)).toNat = s.dp.addr.toNat + 4 * (i + 1 + j) := wordAddr_toNat (by omega)
          rw [State.wordAt_of_bytes (s := s) (t := s1) (fun k' hk' => g5 _ (by omega))] at this
          exact this
      · intro x hx
        simp only [List.length_cons] at hx
        rw [h5 x (by omega), g5 x (by omega)]

/-- `ProgramRange` from a ready FMC is the loop between `Unlock` and `Lock` (R266). -/
theorem programRange_ready {ws : List Word} {s : State} (h : FmcReady s.fmc) :
    programRange ws s = (programLoop ws 0 (s.setFmc { s.fmc with lockst := .unlocked })).bind lockAfter := by
  unfold programRange
  rw [unlock_first h.2.2]
  rfl

/-- A hard-locked FMC: nothing is programmed (R276). -/
theorem programRange_hard {ws : List Word} {s : State} (ho : s.fmc.op = .noOp) (hl : s.fmc.lockst = .lockedHard) :
    programRange ws s = .go (.fail .unlockFailed 0#32) s := by
  unfold programRange lockAfter
  rw [unlock_hard hl]
  simp only [Flow.bind_go]
  rw [if_neg (by decide), lock_locked ho (.inr hl)]
  rfl

theorem lockAfter_open {st : Status} {s : State} (h : FmcOpen s.fmc) :
    lockAfter st s = .go st (s.setFmc { s.fmc with lockst := .lockedK1 }) := by
  unfold lockAfter
  rw [lock_of_open h]
  rfl

end Program

/-! ### ReadRange -/

section Read

/-- The draws of `k` sends that all succeed. -/
abbrev goodSends (k : Nat) : List SendDraw := List.replicate k .success

/-- Bytes sent one by one, each send succeeding (R267). -/
theorem sendEach_good : ∀ (bs : List Byte) (s : State) (ds : List SendDraw), s.env.sends = goodSends bs.length ++ ds →
    sendEach bs s = .go () { s with
      host := { s.host with out := s.host.out ++ bs }, events := s.events ++ bs.map fun b => .sent [b],
      env := { s.env with sends := ds } }
  | [], s, ds, h => by
    unfold sendEach
    simp only [List.length_nil, goodSends, List.replicate_zero, List.nil_append] at h
    rw [List.append_nil, List.map_nil, List.append_nil, ← h]
  | b :: bs, s, ds, h => by
    unfold sendEach
    rw [send_success (ds := goodSends bs.length ++ ds) (by rw [h]; rfl), Flow.bind_go,
      sendEach_good bs _ ds rfl]
    simp [State.sent]

theorem memRead_idle {pos : Pos} {a : Word} {s : State} (ho : s.fmc.op = .noOp) (h : classify s.cfg a ≠ .invalid) :
    memRead pos a s = .go (s.wordAt a) s := by
  unfold memRead
  cases hc : classify s.cfg a with
  | ramValid => rfl
  | flashValid => simp only; rw [awaitFmc_idle ho]; rfl
  | invalid => exact absurd hc h

/-- The first `k` words of a READ are sent, and the loop goes on behind them (R267, R282). -/
theorem readLoop_good (k : Nat) : ∀ (left i : Nat) (s : State) (ds : List SendDraw), s.fmc.op = .noOp →
    (∀ j, j < k → classify s.cfg (wordAddr s.dp.addr (i + j)) ≠ .invalid) → s.env.sends = goodSends (4 * k) ++ ds →
    ∃ t, readLoop (k + left) i s = readLoop left (i + k) t ∧
      (let bytes := (List.range k).flatMap fun j => bytesBE (s.wordAt (wordAddr s.dp.addr (i + j)))
      t = { s with
        dp := { s.dp with i := t.dp.i, w := t.dp.w }, host := { s.host with out := s.host.out ++ bytes },
        events := s.events ++ bytes.map fun b => .sent [b], env := { s.env with sends := ds } }) := by
  induction k with
  | zero =>
    intro left i s ds _ _ hs
    refine ⟨s, by simp, ?_⟩
    simp only [Nat.mul_zero, goodSends, List.replicate_zero, List.nil_append] at hs
    simp [← hs]
  | succ k ih =>
    intro left i s ds ho ha hs
    have hs' : s.env.sends = goodSends 4 ++ (goodSends (4 * k) ++ ds) := by
      rw [hs, ← List.append_assoc, goodSends, goodSends, goodSends, List.replicate_append_replicate,
        show 4 + 4 * k = 4 * (k + 1) by omega]
    let w := s.wordAt (wordAddr s.dp.addr i)
    let s1 : State := { s with
      dp := { s.dp with i := i, w := w }, host := { s.host with out := s.host.out ++ bytesBE w },
      events := s.events ++ (bytesBE w).map fun b => .sent [b], env := { s.env with sends := goodSends (4 * k) ++ ds } }
    have e1 : readLoop (k + 1 + left) i s = readLoop (k + left) (i + 1) s1 := by
      rw [show k + 1 + left = (k + left) + 1 by omega]
      conv_lhs => unfold readLoop
      rw [memRead_idle (s := s.setIndex i) ho (by simpa using ha 0 (by omega)), Flow.bind_go]
      show ((sendEach (bytesBE w) ((s.setIndex i).setDataWord w)).bind _) = _
      rw [sendEach_good (bytesBE w) (((s.setIndex i)).setDataWord w) (goodSends (4 * k) ++ ds) hs']
      rfl
    obtain ⟨t, e2, h2⟩ := ih left (i + 1) s1 ds ho
      (fun j hj => by
        have := ha (j + 1) (by omega)
        rw [show i + (j + 1) = i + 1 + j by omega] at this
        exact this) rfl
    refine ⟨t, by rw [e1, e2, show i + (k + 1) = i + 1 + k by omega], ?_⟩
    have eb : (List.range (k + 1)).flatMap (fun j => bytesBE (s.wordAt (wordAddr s.dp.addr (i + j))))
        = bytesBE w ++ (List.range k).flatMap fun j => bytesBE (s1.wordAt (wordAddr s1.dp.addr (i + 1 + j))) := by
      rw [List.range_succ_eq_map, List.flatMap_cons, List.flatMap_map]
      congr 1
      apply List.flatMap_congr
      intro j _
      rw [show i + (j + 1) = i + 1 + j by omega]
      rfl
    intro bytes
    have eb' : bytes = _ := eb
    rw [eb', h2]
    simp [s1, List.append_assoc]

end Read

end Sys2Proof.Machine
end

