-- ==== Sys2Proof/Laws/Commands.lean ====
section
/-! SUPPORT. The handlers by their parts (spec 42_info_commands.md, 43_control_transfer.md, 45_memory_commands.md): what is left of each command
after a good checksum and a good ACK, and what `ProgramRange` and `EraseAppSector` come to as wholes. -/

namespace Sys2Proof.Machine

open Sys2Proof.Safety

/-! ### Heads and tails of handlers -/

/-- An information command whose two sends succeed (R180, R182, R184, R186). -/
theorem infoReply_good {payload : List Byte} {s : State} {ds : List SendDraw} (hk : s.checksumOk = true)
    (hs : s.env.sends = .success :: .success :: ds) :
    infoReply payload s = .go () (((s.ranChecksum.sent [byteAck, BitVec.ofNat 8 payload.length] (.success :: ds)).sent payload
      ds).finish) := by
  unfold infoReply sendAck
  rw [checksumPrologue_ok hk, Flow.bind_go, send_success (s := s.ranChecksum) hs, Flow.bind_go, send_success (ds := ds) rfl]
  rfl

theorem ack_good {len : Byte} {s : State} {ds : List SendDraw} (hs : s.env.sends = .success :: ds) :
    sendAck len s.ranChecksum = .go () (s.ranChecksum.sent [byteAck, len] ds) := send_success hs

/-- The refusal of READ and WRITE, by its two grounds (R72, R272, R280). -/
theorem badRangeAddr_iff {cfg : Cfg} {a : Word} : badRangeAddr cfg a = true ↔ classify cfg a = .invalid ∨ a.toNat % 4 ≠ 0 := by
  unfold badRangeAddr
  rw [Bool.or_eq_true, beq_iff_eq, Bool.not_eq_true', ← Bool.not_eq_true, aligned_iff]

theorem badRangeAddr_eq_false {cfg : Cfg} {a : Word} (hc : classify cfg a ≠ .invalid) (ha : a.toNat % 4 = 0) :
    badRangeAddr cfg a = false := by
  rw [← Bool.not_eq_true, badRangeAddr_iff]; tauto

/-- ERASE behind its ACK (R268). -/
theorem execErase_acked {s : State} {ds : List SendDraw} (hk : s.checksumOk = true) (hs : s.env.sends = .success :: ds) :
    execErase s = ((eraseAppSector (s.ranChecksum.sent [byteAck, 0#8] ds)).bind eraseTail).outcome := by
  unfold execErase
  rw [checksumPrologue_ok hk, Flow.bind_go, ack_good hs, Flow.bind_go]

/-- WRITE behind its ACK (R270). -/
theorem execWrite_acked {s : State} {a : Word} {data : List Byte} {ds : List SendDraw} (hk : s.checksumOk = true)
    (hs : s.env.sends = .success :: ds) (hc : classify s.cfg a ≠ .invalid) (ha : a.toNat % 4 = 0) :
    execWrite a data s =
      ((programRange (dataWords data) (((s.ranChecksum.setAddr a).sent [byteAck, 1#8] ds).setDlen data.length)).bind
        writeTail).outcome := by
  unfold execWrite
  rw [checksumPrologue_ok hk, Flow.bind_go]
  rw [if_neg (by rw [show (s.ranChecksum.setAddr a).cfg = s.cfg from rfl, badRangeAddr_eq_false hc ha]; decide)]
  unfold sendAck
  rw [send_success (s := s.ranChecksum.setAddr a) hs, Flow.bind_go]

/-- READ behind its ACK (R278). -/
theorem execRead_acked {s : State} {a : Word} {count : Byte} {ds : List SendDraw} (hk : s.checksumOk = true)
    (hs : s.env.sends = .success :: ds) (hc : classify s.cfg a ≠ .invalid) (ha : a.toNat % 4 = 0) :
    execRead a count s =
      ((readLoop count.toNat 0 (((s.ranChecksum.setAddr a).setCount count).sent [byteAck, count] ds)).bind
        fun _ s => .go () s.finish).outcome := by
  unfold execRead
  rw [checksumPrologue_ok hk, Flow.bind_go]
  rw [if_neg (by rw [show ((s.ranChecksum.setAddr a).setCount count).cfg = s.cfg from rfl, badRangeAddr_eq_false hc ha]; decide)]
  unfold sendAck
  rw [send_success (s := (s.ranChecksum.setAddr a).setCount count) hs, Flow.bind_go]

theorem writeTail_ok {s : State} {ds : List SendDraw} (hs : s.env.sends = .success :: ds) :
    writeTail .ok s = .go () ((s.setStatus .ok).sent [byteO] ds).finish := by
  unfold writeTail
  rw [if_pos rfl, send_success (s := s.setStatus .ok) hs]
  rfl

theorem writeTail_fail {s : State} {st : Status} {ds : List SendDraw} (hst : st ≠ .ok) (hs : s.env.sends = .success :: ds) :
    writeTail st s = .go () (((s.setStatus st).sent [byteE] ds).abort (.hardwareOperationFailure st)) := by
  unfold writeTail
  rw [if_neg hst, send_success (s := s.setStatus st) hs]
  rfl

/-! ### The erase as a whole (R238, R263) -/

theorem completeErase_inside {n : Nat} {s : State} {x : Sector} (hc : cfgWf s.cfg = true) (hx : s.cfg.sectors[n]? = some x) {a : Nat}
   (h1 : x.base.toNat ≤ a) (h2 : a < x.base.toNat + x.size) : (completeErase true n s).byteAt a = 0xFF#8 := by
  unfold completeErase State.byteAt
  rw [hx]
  show (Memory.get s.cfg (Memory.eraseRange s.mem x.base.toNat x.size) a).getD _ = _
  rw [Memory.get_eraseRange, if_pos ⟨h1, h2⟩]
  unfold Memory.unlisted
  rw [if_pos (sector_inFlash hc hx h1 h2)]; rfl
theorem completeErase_drawn {n : Nat} {s : State} : (completeErase true n s).env.drawn = s.env.drawn := by
  unfold completeErase; split <;> rfl
theorem completeErase_outside {ok : Bool} {n : Nat} {s : State} {x : Sector} (hc : cfgWf s.cfg = true) (hx : s.cfg.sectors[n]? = some x) {a : Nat}
   (ha : a < x.base.toNat ∨ x.base.toNat + x.size ≤ a) : (completeErase ok n s).byteAt a = s.byteAt a := by
  have h4 := (tiles_sector (cfgWf_parts hc).2.2.2.1 hx).2.2
  unfold completeErase State.byteAt
  rw [hx]
  cases ok
  · show (Memory.get s.cfg (Memory.scramble s.cfg (x.size / 4) x.base.toNat s.env.drawn s.mem) a).getD _ = _
    rw [Memory.get_scramble_of_outside _ _ _ _ (by omega)]; rfl
  · show (Memory.get s.cfg (Memory.eraseRange s.mem x.base.toNat x.size) a).getD _ = _
    rw [Memory.get_eraseRange, if_neg (by omega)]; rfl

/-- An erase that runs and completes: its status, its frame, the sector, and everything outside it (R263). -/
theorem eraseAppSector_completes {s : State} {x : Sector} {d : Word} {cs : List Word} (hc : cfgWf s.cfg = true) (hf : FmcReady s.fmc)
    (hx : s.cfg.sectors[s.cfg.appSector]? = some x) (hp : s.cfg.appSector ∉ s.cfg.wrpProtected) (hcs : s.env.completions = d :: cs) :
    ∃ t : State, eraseAppSector s = .go (statusOf (d &&& errMask)) t ∧
      t = { s with mem := t.mem, fmc := fmcAfterSequence, env := { s.env with completions := cs, drawn := t.env.drawn } } ∧
      (DrawOk d → t.env.drawn = s.env.drawn) ∧
      (DrawOk d → ∀ a : Nat, x.base.toNat ≤ a → a < x.base.toNat + x.size → t.byteAt a = 0xFF#8) ∧
      (∀ a : Nat, a < x.base.toNat ∨ x.base.toNat + x.size ≤ a → t.byteAt a = s.byteAt a) := by
  have hn : s.cfg.appSector < s.cfg.numSectors := (List.getElem?_eq_some_iff.1 hx).1
  refine ⟨_, eraseAppSector_done hc hn hf hp hcs, ?_, ?_, ?_, ?_⟩
  · rw [completeErase_frame]; rfl
  · intro hd
    have hb : (d &&& errMask == 0#32) = true := by rw [hd]; rfl
    rw [hb]; exact completeErase_drawn
  · intro hd a h1 h2
    have hb : (d &&& errMask == 0#32) = true := by rw [hd]; rfl
    rw [hb]
    exact completeErase_inside (s := s.withCompletions cs) hc hx h1 h2
  · intro a ha
    exact completeErase_outside (s := s.withCompletions cs) hc hx ha

/-! ### The program as a whole (R266, R275, R277) -/

theorem programRange_ram {ws : List Word} {s : State} (hf : FmcReady s.fmc) (hcl : classify s.cfg s.dp.addr = .ramValid)
    (hb : s.dp.addr.toNat + 4 * ws.length ≤ s.cfg.ramEnd.toNat) :
    ∃ t, programRange ws s = .go .ok t ∧ FmcReady t.fmc ∧
      t = { s with mem := t.mem, fmc := t.fmc, dp := { s.dp with i := t.dp.i, w := t.dp.w } } ∧
      (∀ j w, ws[j]? = some w → t.wordAt (wordAddr s.dp.addr j) = w) ∧
      (∀ x : Nat, x < s.dp.addr.toNat ∨ s.dp.addr.toNat + 4 * ws.length ≤ x → t.byteAt x = s.byteAt x) := by
  have hr := ram_of_classify hcl
  have hend : s.cfg.ramEnd.toNat < 2 ^ 32 := s.cfg.ramEnd.isLt
  obtain ⟨t, e, ho, fr, hw, hout⟩ := programLoop_ram ws.length ws 0 (s.setFmc { s.fmc with lockst := .unlocked }) (Nat.le_refl _)
    (FmcReady.opens hf)
    (fun j hj => by
      have : (wordAddr s.dp.addr (0 + j)).toNat = s.dp.addr.toNat + 4 * (0 + j) := wordAddr_toNat (by omega)
      exact classify_ram (cfg := s.cfg) (a := wordAddr s.dp.addr (0 + j)) (by omega) (by omega))
    (by show s.dp.addr.toNat + _ ≤ _; omega)
  refine ⟨t.setFmc { t.fmc with lockst := .lockedK1 }, ?_, FmcOpen.locks ho, ?_, ?_, ?_⟩
  · rw [programRange_ready hf, e, List.drop_of_length_le (Nat.le_refl _), programLoop, Flow.bind_go, lockAfter_open ho]
  · rw [fr]; rfl
  · intro j w hj
    have := hw j w (List.getElem?_eq_some_iff.1 hj).1 hj
    rw [Nat.zero_add] at this
    exact this
  · intro x hx
    exact hout x (by show x < s.dp.addr.toNat + 4 * 0 ∨ s.dp.addr.toNat + 4 * (0 + ws.length) ≤ x; omega)

/-- The first `oks.length` words of a run in flash, whose operations complete with OK, are programmed between `Unlock` and `Lock`, and the
loop goes on behind them (R238, R266). -/
theorem programRange_prefix {ws oks cs : List Word} {s : State} (hc : cfgWf s.cfg = true) (hf : FmcReady s.fmc)
    (hcl : classify s.cfg s.dp.addr = .flashValid) (hb : s.dp.addr.toNat + 4 * oks.length ≤ s.cfg.flashEnd.toNat)
    (hp : ∀ j, j < oks.length → sectorOf s.cfg (wordAddr s.dp.addr j) ∉ s.cfg.wrpProtected)
    (hcs : s.env.completions = oks ++ cs) (hl : oks.length ≤ ws.length) (hd : ∀ d ∈ oks, DrawOk d) :
    ∃ t, programRange ws s = (programLoop (ws.drop oks.length) oks.length t).bind lockAfter ∧ FmcOpen t.fmc ∧
      t = { s with
        mem := t.mem, fmc := t.fmc, dp := { s.dp with i := t.dp.i, w := t.dp.w },
        env := { s.env with completions := cs, drawn := t.env.drawn } } ∧
      (∀ j w, j < oks.length → ws[j]? = some w →
        Programmed s.cfg (s.wordAt (wordAddr s.dp.addr j)) w (t.wordAt (wordAddr s.dp.addr j))) ∧
      (∀ x : Nat, x < s.dp.addr.toNat ∨ s.dp.addr.toNat + 4 * oks.length ≤ x → t.byteAt x = s.byteAt x) := by
  have hr := flash_of_classify hcl
  have hend : s.cfg.flashEnd.toNat < 2 ^ 32 := s.cfg.flashEnd.isLt
  obtain ⟨t, e, ho, fr, hw, hout⟩ := programLoop_flash oks cs ws 0 (s.setFmc { s.fmc with lockst := .unlocked }) hl
    (FmcReady.opens hf)
    (fun j hj => by
      have : (wordAddr s.dp.addr (0 + j)).toNat = s.dp.addr.toNat + 4 * (0 + j) := wordAddr_toNat (by omega)
      exact classify_flash (a := wordAddr s.dp.addr (0 + j)) hc (by omega) (by omega))
    (fun j hj => by have := hp j hj; rw [Nat.zero_add]; exact this)
    (by show s.dp.addr.toNat + _ ≤ _; omega) hcs hd
  refine ⟨t, ?_, ho, fr, ?_, ?_⟩
  · rw [programRange_ready hf, e, Nat.zero_add]
  · intro j w hj hjw
    have := hw j w hj hjw
    rw [Nat.zero_add] at this
    exact this
  · intro x hx
    exact hout x (by show x < s.dp.addr.toNat + 4 * 0 ∨ s.dp.addr.toNat + 4 * (0 + oks.length) ≤ x; omega)

/-- A run in flash whose operations all complete with OK (R238, R266). -/
theorem programRange_flash {ws oks cs : List Word} {s : State} (hc : cfgWf s.cfg = true) (hf : FmcReady s.fmc)
    (hcl : classify s.cfg s.dp.addr = .flashValid) (hb : s.dp.addr.toNat + 4 * ws.length ≤ s.cfg.flashEnd.toNat)
    (hp : ∀ j, j < ws.length → sectorOf s.cfg (wordAddr s.dp.addr j) ∉ s.cfg.wrpProtected)
    (hcs : s.env.completions = oks ++ cs) (hl : oks.length = ws.length) (hd : ∀ d ∈ oks, DrawOk d) :
    ∃ t, programRange ws s = .go .ok t ∧ FmcReady t.fmc ∧
      t = { s with
        mem := t.mem, fmc := t.fmc, dp := { s.dp with i := t.dp.i, w := t.dp.w },
        env := { s.env with completions := cs, drawn := t.env.drawn } } ∧
      (∀ j w, ws[j]? = some w → Programmed s.cfg (s.wordAt (wordAddr s.dp.addr j)) w (t.wordAt (wordAddr s.dp.addr j))) ∧
      (∀ x : Nat, x < s.dp.addr.toNat ∨ s.dp.addr.toNat + 4 * ws.length ≤ x → t.byteAt x = s.byteAt x) := by
  obtain ⟨t, e, ho, fr, hw, hout⟩ := programRange_prefix (ws := ws) hc hf hcl (by omega) (fun j hj => hp j (by omega)) hcs (by omega) hd
  refine ⟨t.setFmc { t.fmc with lockst := .lockedK1 }, ?_, FmcOpen.locks ho, ?_, ?_, ?_⟩
  · rw [e, List.drop_of_length_le (by omega), programLoop, Flow.bind_go, lockAfter_open ho]
  · rw [fr]; rfl
  · exact fun j w hj => hw j w (by rw [hl]; exact (List.getElem?_eq_some_iff.1 hj).1) hj
  · exact fun x hx => hout x (by omega)

/-- A run in flash whose word `oks.length` completes with error flags (R237, R266). -/
theorem programRange_stops {ws oks cs : List Word} {f : Word} {s : State} (hc : cfgWf s.cfg = true) (hf : FmcReady s.fmc)
    (hcl : classify s.cfg s.dp.addr = .flashValid) (hb : s.dp.addr.toNat + 4 * ws.length ≤ s.cfg.flashEnd.toNat)
    (hp : ∀ j, j ≤ oks.length → sectorOf s.cfg (wordAddr s.dp.addr j) ∉ s.cfg.wrpProtected)
    (hcs : s.env.completions = oks ++ f :: cs) (hl : oks.length < ws.length) (hd : ∀ d ∈ oks, DrawOk d) (hff : ¬ DrawOk f) :
    ∃ t, programRange ws s = .go (.fail .hwError (f &&& errMask)) t ∧ FmcReady t.fmc ∧
      t = { s with
        mem := t.mem, fmc := t.fmc, dp := { s.dp with i := t.dp.i, w := t.dp.w },
        env := { s.env with completions := cs, drawn := t.env.drawn } } ∧
      (∀ j w, j < oks.length → ws[j]? = some w →
        Programmed s.cfg (s.wordAt (wordAddr s.dp.addr j)) w (t.wordAt (wordAddr s.dp.addr j))) ∧
      (∀ x : Nat, x < s.dp.addr.toNat ∨ s.dp.addr.toNat + 4 * (oks.length + 1) ≤ x → t.byteAt x = s.byteAt x) := by
  have hr := flash_of_classify hcl
  have hend : s.cfg.flashEnd.toNat < 2 ^ 32 := s.cfg.flashEnd.isLt
  have hA : ∀ j, j < ws.length → (wordAddr s.dp.addr j).toNat = s.dp.addr.toNat + 4 * j := fun j hj => wordAddr_toNat (by omega)
  obtain ⟨t, e, ho, fr, hw, hout⟩ := programRange_prefix (ws := ws) hc hf hcl (by omega) (fun j hj => hp j (by omega)) hcs (by omega) hd
  have c1 : t.cfg = s.cfg := by rw [fr]
  have c2 : t.dp.addr = s.dp.addr := by rw [fr]
  have c3 : t.env.completions = f :: cs := by rw [fr]
  have ed : ws.drop oks.length = ws[oks.length] :: ws.drop (oks.length + 1) := List.drop_eq_getElem_cons hl
  have e1 := programWord_flash (w := ws[oks.length]) (ws := ws.drop (oks.length + 1)) (i := oks.length) ho
    (by rw [c1, c2]; have := hA _ hl; exact classify_flash hc (by omega) (by omega)) (by rw [c1, c2]; exact hp _ (Nat.le_refl _)) c3
  rw [c2] at e1
  have est : statusOf (f &&& errMask) = .fail .hwError (f &&& errMask) := by unfold statusOf; rw [if_neg hff]
  obtain ⟨v, hv⟩ : ∃ v, v = completeProgram (f &&& errMask == 0#32) (wordAddr s.dp.addr oks.length) ws[oks.length]
    ((t.afterWord oks.length ws[oks.length]).withCompletions cs) := ⟨_, rfl⟩
  rw [← hv, est] at e1
  have vo : FmcOpen v.fmc := by rw [hv]; exact fmcAfterWord_open
  have vb : ∀ x : Nat, x < s.dp.addr.toNat + 4 * oks.length ∨ s.dp.addr.toNat + 4 * (oks.length + 1) ≤ x → v.byteAt x = t.byteAt x := by
    intro x hx
    have := hA _ hl
    rw [hv, completeProgram_byteAt (by omega)]
    rfl
  have vf : v = { t with
        mem := v.mem, fmc := v.fmc, dp := { t.dp with i := v.dp.i, w := v.dp.w },
        env := { t.env with completions := cs, drawn := v.env.drawn } } := by rw [hv]; rfl
  refine ⟨v.setFmc { v.fmc with lockst := .lockedK1 }, ?_, FmcOpen.locks vo, ?_, ?_, ?_⟩
  · rw [e, ed, programLoop_cons, e1, Flow.bind_go, if_neg (by simp), Flow.bind_go, lockAfter_open vo]
  · rw [vf, fr]; rfl
  · intro j w hj hjw
    have e2 : (v.setFmc { v.fmc with lockst := .lockedK1 }).wordAt (wordAddr s.dp.addr j) = t.wordAt (wordAddr s.dp.addr j) := by
      apply State.wordAt_of_bytes
      intro k hk
      have := hA j (by omega)
      exact vb _ (by omega)
    rw [e2]
    exact hw j w hj hjw
  · intro x hx
    show v.byteAt x = _
    rw [vb x (by omega)]
    exact hout x (by omega)

/-- A run in flash whose word `oks.length` lies in a protected sector (R228, R266). -/
theorem programRange_protected {ws oks cs : List Word} {s : State} (hc : cfgWf s.cfg = true) (hf : FmcReady s.fmc)
    (hcl : classify s.cfg s.dp.addr = .flashValid) (hb : s.dp.addr.toNat + 4 * ws.length ≤ s.cfg.flashEnd.toNat)
    (hp : ∀ j, j < oks.length → sectorOf s.cfg (wordAddr s.dp.addr j) ∉ s.cfg.wrpProtected)
    (hp' : sectorOf s.cfg (wordAddr s.dp.addr oks.length) ∈ s.cfg.wrpProtected)
    (hcs : s.env.completions = oks ++ cs) (hl : oks.length < ws.length) (hd : ∀ d ∈ oks, DrawOk d) :
    ∃ t, programRange ws s = .go (.fail .hwError srWrperr) t ∧ FmcReady t.fmc ∧
      t = { s with
        mem := t.mem, fmc := t.fmc, dp := { s.dp with i := t.dp.i, w := t.dp.w },
        env := { s.env with completions := cs, drawn := t.env.drawn } } ∧
      (∀ j w, j < oks.length → ws[j]? = some w →
        Programmed s.cfg (s.wordAt (wordAddr s.dp.addr j)) w (t.wordAt (wordAddr s.dp.addr j))) ∧
      (∀ x : Nat, x < s.dp.addr.toNat ∨ s.dp.addr.toNat + 4 * oks.length ≤ x → t.byteAt x = s.byteAt x) := by
  have hr := flash_of_classify hcl
  have hend : s.cfg.flashEnd.toNat < 2 ^ 32 := s.cfg.flashEnd.isLt
  obtain ⟨t, e, ho, fr, hw, hout⟩ := programRange_prefix (ws := ws) hc hf hcl (by omega) hp hcs (by omega) hd
  have c1 : t.cfg = s.cfg := by rw [fr]
  have c2 : t.dp.addr = s.dp.addr := by rw [fr]
  have hA : (wordAddr s.dp.addr oks.length).toNat = s.dp.addr.toNat + 4 * oks.length := wordAddr_toNat (by omega)
  have e1 := programWord_protected (w := ws[oks.length]) (ws := ws.drop (oks.length + 1)) (i := oks.length) ho
    (by rw [c1, c2]; exact classify_flash hc (by omega) (by omega)) (by rw [c1, c2]; exact hp')
  refine ⟨(t.afterWord oks.length ws[oks.length]).setFmc { fmcAfterWord with lockst := .lockedK1 }, ?_, FmcOpen.locks fmcAfterWord_open, ?_,
    hw, hout⟩
  · rw [e, List.drop_eq_getElem_cons hl, programLoop_cons, e1, Flow.bind_go, if_neg (by simp), Flow.bind_go, lockAfter_open fmcAfterWord_open]
    rfl
  · rw [fr]; rfl

end Sys2Proof.Machine
end

