-- ==== Sys2Proof/Laws/Encoding.lean ====
section
/-! SUPPORT. Decoding and encoding (spec 30_encoding.md R100 to R120): what each opcode selects, where a packet's bytes stand in the buffer, and
what a sealed packet's operands and checksum read as there. -/

namespace Sys2Proof.Machine

open Sys2Proof

variable {cfg : Cfg}

/-! ### Opcodes -/

theorem decodeOpcode_unrecognized {n : Byte} {buf : List Byte} {op : Byte} (h : op ∉ opcodes cfg) :
    decodeOpcode cfg n buf op = .error (.unrecognizedOpcode op) := by
  simp only [opcodes, List.mem_cons, not_or] at h
  unfold decodeOpcode
  simp [h]

/-- Nine different opcodes (R9 (5)): each selects its own command, with the operands at the fixed offsets (R114, R116). -/
theorem decodeOpcode_hit (hc : cfgWf cfg = true) (n : Byte) (buf : List Byte) :
    decodeOpcode cfg n buf cfg.opcGetVersion = .ok .getVersion ∧
    decodeOpcode cfg n buf cfg.opcGetHelp = .ok .getHelp ∧
    decodeOpcode cfg n buf cfg.opcGetCid = .ok .getCid ∧
    decodeOpcode cfg n buf cfg.opcGetRdp = .ok .getRdp ∧
    decodeOpcode cfg n buf cfg.opcJumpApp = .ok .jumpApp ∧
    decodeOpcode cfg n buf cfg.opcJumpAddr = .ok (.jumpAddr (addrOperand cfg buf)) ∧
    decodeOpcode cfg n buf cfg.opcErase = .ok .erase ∧
    decodeOpcode cfg n buf cfg.opcWrite = .ok (.write (addrOperand cfg buf) (dataOperand cfg n.toNat buf)) ∧
    decodeOpcode cfg n buf cfg.opcRead = .ok (.read (addrOperand cfg buf) (countOperand cfg buf)) := by
  have hd := (cfgWf_parts hc).2.2.2.2.1
  simp only [opcodes, List.nodup_cons, List.mem_cons, not_or, List.not_mem_nil] at hd
  obtain ⟨⟨h1, h2, h3, h4, h5, h6, h7, h8, -⟩, ⟨i2, i3, i4, i5, i6, i7, i8, -⟩, ⟨j3, j4, j5, j6, j7, j8, -⟩, ⟨k4, k5, k6, k7, k8, -⟩,
    ⟨l5, l6, l7, l8, -⟩, ⟨m6, m7, m8, -⟩, ⟨n7, n8, -⟩, ⟨o8, -⟩, -⟩ := hd
  unfold decodeOpcode
  simp [eq_comm, *]

theorem decodeBuf_legal {n : Byte} {buf : List Byte} (h : 5 ≤ n.toNat) (h' : n.toNat < cfg.rxCap) :
    decodeBuf cfg n buf = decodeOpcode cfg n buf (bufByte cfg buf 1) := by
  unfold decodeBuf
  rw [if_neg (by omega), if_neg (by omega)]

/-! ### Data bytes (R108) -/

@[simp] theorem dataOperand_length (n : Nat) (buf : List Byte) : (dataOperand cfg n buf).length = n - 9 := by
  simp [dataOperand, dataLength]

theorem dataOperand_getElem? {n j : Nat} (buf : List Byte) (h : j < n - 9) :
    (dataOperand cfg n buf)[j]? = some (bufByte cfg buf (6 + j)) := by
  simp [dataOperand, dataLength, h]

/-! ### Packets in the buffer -/

theorem bufByte_set {buf : List Byte} {k : Nat} {b : Byte} (hk : k < buf.length) (x : Nat) :
    bufByte cfg (buf.set k b) x = if x = k then b else bufByte cfg buf x := by
  unfold bufByte
  rw [List.getD_eq_getElem?_getD, List.getElem?_set, List.getD_eq_getElem?_getD]
  split_ifs <;> subst_vars <;> simp_all


/-- The received byte `k` of a packet stands at offset `k + 1` of the buffer (R154). -/
theorem bufByte_receivedBuf {n : Byte} {bs : List Byte} {k : Nat} (hk : k < bs.length) :
    bufByte cfg (receivedBuf cfg n bs) (k + 1) = bs[k] := by
  unfold bufByte receivedBuf
  simp [List.getD_eq_getElem?_getD, List.getElem?_append_left, hk]

/-- The bytes a sealed packet has behind its length byte (R100). -/
def sealedTail (cfg : Cfg) (op : Byte) (payload : List Byte) : List Byte :=
  op :: payload ++ bytesBE (checksum cfg.crcInputLane (BitVec.ofNat 8 (payload.length + 5) :: op :: payload))

theorem sealPacket_eq (cfg : Cfg) (op : Byte) (payload : List Byte) :
    sealPacket cfg op payload = BitVec.ofNat 8 (payload.length + 5) :: sealedTail cfg op payload := rfl

theorem sealedTail_length (cfg : Cfg) (op : Byte) (payload : List Byte) :
    (sealedTail cfg op payload).length = payload.length + 5 := by
  simp [sealedTail]

variable {op : Byte} {payload : List Byte}

/-- A sealed packet decodes as its opcode byte says, from the buffer it lands in, whatever bytes follow (R101, R104). -/
theorem decode_sealPacket (h : payload.length + 5 ≤ 255) (h' : payload.length + 6 ≤ cfg.rxCap) (rest : List Byte) :
    decode cfg (sealPacket cfg op payload ++ rest) =
      decodeOpcode cfg (BitVec.ofNat 8 (payload.length + 5))
        (receivedBuf cfg (BitVec.ofNat 8 (payload.length + 5)) (sealedTail cfg op payload)) op := by
  have hn : (BitVec.ofNat 8 (payload.length + 5)).toNat = payload.length + 5 := by rw [BitVec.toNat_ofNat]; omega
  have hl := sealedTail_length cfg op payload
  rw [sealPacket_eq, List.cons_append]
  simp only [decode]
  rw [hn, if_neg (by omega), if_neg (by rw [List.length_append, hl]; omega), List.take_append_of_le_length (by omega), ← hl,
    List.take_length, hl, decodeBuf_legal (by omega) (by omega)]
  rfl

/-- The payload byte `j` of a sealed packet stands at offset `j + 2` (R104). -/
theorem bufByte_sealed {n : Byte} {j : Nat} (hj : j < payload.length) :
    bufByte cfg (receivedBuf cfg n (sealedTail cfg op payload)) (j + 2) = payload[j] := by
  rw [bufByte_receivedBuf (k := j + 1) (by rw [sealedTail_length]; omega)]
  simp [sealedTail, List.getElem_append_left, hj]

/-- The address operand of a packet whose payload starts with the address (R109, R120). -/
theorem addrOperand_sealed {n : Byte} {a : Word} {more : List Byte} :
    addrOperand cfg (receivedBuf cfg n (sealedTail cfg op (bytesBE a ++ more))) = a := by
  have h := fun j (hj : j < (bytesBE a ++ more).length) => bufByte_sealed (cfg := cfg) (op := op) (n := n) hj
  unfold addrOperand bufWord
  rw [h 0 (by simp), h 1 (by simp; omega), h 2 (by simp; omega), h 3 (by simp; omega)]
  exact be32_byteOf a

/-- The data bytes of a WRITE packet (R108, R120). -/
theorem dataOperand_sealed {n : Byte} {a : Word} {data : List Byte} (hn : n.toNat = 9 + data.length) :
    dataOperand cfg n.toNat (receivedBuf cfg n (sealedTail cfg op (bytesBE a ++ data))) = data := by
  rw [hn]
  apply List.ext_getElem?
  intro j
  by_cases hj : j < data.length
  · rw [dataOperand_getElem? _ (by omega), show 6 + j = 4 + j + 2 by omega, bufByte_sealed (by simp; omega),
      List.getElem_append_right (by simp)]
    simp [hj]
  · rw [List.getElem?_eq_none (by simp; omega), List.getElem?_eq_none (by omega)]

/-- The count byte of a READ packet (R111, R120). -/
theorem countOperand_sealed {n : Byte} {a : Word} {c : Byte} :
    countOperand cfg (receivedBuf cfg n (sealedTail cfg op (bytesBE a ++ [c]))) = c := by
  unfold countOperand
  rw [bufByte_sealed (j := 4) (by simp)]
  rfl

/-! ### The checksum of a sealed packet (R103, R134) -/

/-- The covered bytes are the length byte, the opcode and the payload. -/
theorem coveredBytes_sealed {n : Byte} :
    coveredBytes cfg (payload.length + 5) (receivedBuf cfg n (sealedTail cfg op payload)) = n :: op :: payload := by
  apply List.ext_getElem
  · simp [coveredBytes]
  · intro k h1 h2
    simp only [coveredBytes, List.getElem_map, List.getElem_range]
    match k with
    | 0 => rfl
    | 1 => rfl
    | k + 2 => exact bufByte_sealed (by simpa using h2)

/-- The last four bytes are the checksum of those. -/
theorem receivedChecksum_sealed {n : Byte} :
    receivedChecksum cfg (payload.length + 5) (receivedBuf cfg n (sealedTail cfg op payload)) =
      checksum cfg.crcInputLane (BitVec.ofNat 8 (payload.length + 5) :: op :: payload) := by
  have h : ∀ k, k < 4 → bufByte cfg (receivedBuf cfg n (sealedTail cfg op payload)) (payload.length + 2 + k) =
      byteOf (checksum cfg.crcInputLane (BitVec.ofNat 8 (payload.length + 5) :: op :: payload)) (3 - k) := by
    intro k hk
    rw [show payload.length + 2 + k = payload.length + 1 + k + 1 by omega,
      bufByte_receivedBuf (by rw [sealedTail_length]; omega)]
    unfold sealedTail
    rw [List.getElem_append_right (by simp)]
    simp only [List.length_cons, Nat.add_sub_cancel_left]
    interval_cases k <;> rfl
  unfold receivedChecksum bufWord
  rw [show payload.length + 5 - 3 = payload.length + 2 by omega]
  rw [show payload.length + 2 = payload.length + 2 + 0 from rfl, h 0 (by decide), h 1 (by decide), h 2 (by decide), h 3 (by decide)]
  exact be32_byteOf _

/-! ### Nominal packets -/

theorem nominalN_eq (i : Instr) : i.nominalN = (payloadOf i).length + 5 := by
  cases i <;> simp [Instr.nominalN, payloadOf]
  omega

theorem wf_bounds {i : Instr} (h : i.wf cfg = true) :
    (payloadOf i).length + 5 ≤ 255 ∧ (payloadOf i).length + 6 ≤ cfg.rxCap := by
  simp only [Instr.wf, Bool.and_eq_true, decide_eq_true_eq, nominalN_eq] at h
  omega

theorem nominalN_toNat {i : Instr} (h : i.wf cfg = true) :
    (BitVec.ofNat 8 ((payloadOf i).length + 5)).toNat = (payloadOf i).length + 5 := by
  have := wf_bounds h
  rw [BitVec.toNat_ofNat]
  omega

end Sys2Proof.Machine
end

