-- ==== Sys2Proof/Laws/Framer.lean ====
section
/-! SUPPORT. The framer and the step (spec 41_framer_dispatch.md R150 to R164): what a step is in each phase, and what the two receptions come to
when their bytes are pending. -/

namespace Sys2Proof.Machine

variable {s : State}

/-! ### The step by phase -/

section Step

variable (hf : s.faulted = false) (hc : cfgWf s.cfg = true)

include hf hc

theorem step_running : step s = cycleStep s := by
  unfold step
  rw [if_neg (by rw [hf]; decide), if_pos hc]

theorem step_idle (hp : s.phase = .idle) : step s = .next (receiveLength s) := by
  rw [step_running hf hc]; unfold cycleStep; rw [hp]

theorem step_lengthReceived (hp : s.phase = .lengthReceived) : step s = .next (receiveBody s) := by
  rw [step_running hf hc]; unfold cycleStep; rw [hp]

theorem step_payloadReceived (hp : s.phase = .payloadReceived) : step s = dispatchPacket s := by
  rw [step_running hf hc]; unfold cycleStep; rw [hp]

theorem step_dispatched (hp : s.phase = .dispatched) : step s = resumeHandler s := by
  rw [step_running hf hc]; unfold cycleStep; rw [hp]

end Step

/-! ### The FMC's own step in a wait (R238, R240) -/

/-- A wait ends alike whether the completion is listed for it or the FMC has taken its own step before. -/
theorem awaitFmc_fmcComplete {pos : Pos} {d : Word} (ho : s.fmc.op ≠ .noOp) (h : s.env.completions = []) :
    awaitFmc pos (fmcWillComplete d s) = awaitFmc pos (fmcComplete d s) := by
  rw [awaitFmc_done (s := fmcWillComplete d s) (ds := []) ho (by show s.env.completions ++ [d] = _; rw [h]; rfl),
    awaitFmc_idle (fmcComplete_op d s)]
  congr 2
  unfold State.withCompletions fmcWillComplete
  rw [← h]

/-- So does the handler held there. -/
theorem step_fmcComplete {d : Word} (hf : s.faulted = false) (hc : cfgWf s.cfg = true) (hp : s.phase = .dispatched)
    (hpos : s.pos = .eraseDone ∨ ∃ ws, s.pos = .programDone ws) (ho : s.fmc.op ≠ .noOp) (h : s.env.completions = []) :
    step (fmcWillComplete d s) = step (fmcComplete d s) := by
  have fr := completeOp_frame (d &&& errMask == 0#32) s.fmc.op s
  have e1 : (fmcComplete d s).faulted = s.faulted := by show (completeOp _ _ _).faulted = _; rw [fr]
  have e2 : (fmcComplete d s).cfg = s.cfg := by show (completeOp _ _ _).cfg = _; rw [fr]
  have e3 : (fmcComplete d s).phase = s.phase := by show (completeOp _ _ _).phase = _; rw [fr]
  have e4 : (fmcComplete d s).pos = s.pos := by show (completeOp _ _ _).pos = _; rw [fr]
  have e5 : (fmcComplete d s).dp = s.dp := by show (completeOp _ _ _).dp = _; rw [fr]
  rw [step_dispatched (s := fmcWillComplete d s) hf hc hp, step_dispatched (s := fmcComplete d s) (by rw [e1, hf]) (by rw [e2, hc]) (by rw [e3, hp])]
  unfold resumeHandler
  rw [e4, show (fmcWillComplete d s).pos = s.pos from rfl]
  rcases hpos with hpos | ⟨ws, hpos⟩ <;> rw [hpos]
  · unfold eraseFinish
    simp only [waitIdle_eq, awaitFmc_fmcComplete ho h]
  · unfold programResume programFinish
    simp only [waitIdle_eq, awaitFmc_fmcComplete ho h, e5, show (fmcWillComplete d s).dp = s.dp from rfl]

/-! ### Receptions that deliver -/

/-- A `Recv(n)` with its bytes pending and no choice listed (R13). -/
theorem recv_pending {n : Nat} (h0 : n ≠ 0) (hl : n ≤ s.host.inp.length) (hr : s.env.recvs = []) :
    recv n s = .bytes (s.host.inp.take n) (s.takeInput n) := by
  rcases recv_cases h0 s with ⟨k, rest, h, -⟩ | ⟨-, -, h⟩ | ⟨-, h, -⟩
  · rw [hr] at h; cases h
  · rw [h, hr, List.tail_nil, ← hr]
  · omega

/-- The length byte (R151). -/
theorem receiveLength_pending {n : Byte} {rest : List Byte} (hi : s.host.inp = n :: rest) (hr : s.env.recvs = []) :
    receiveLength s = { s with
      phase := .lengthReceived, buf := n :: List.replicate (s.cfg.rxCap - 1) s.cfg.rxSentinel,
      dp := { s.dp with n := n }, host := { s.host with inp := rest } } := by
  unfold receiveLength
  have h := recv_pending (s := clearBuf s) (n := 1) (by decide)
    (by rw [show (clearBuf s).host.inp = n :: rest from hi]; simp) hr
  simp only [h]
  rw [show (clearBuf s).host.inp = n :: rest from hi]
  simp only [List.take_succ_cons, List.take_zero, List.headD_cons]
  show ({ s with
    phase := .lengthReceived, buf := n :: (List.replicate s.cfg.rxCap s.cfg.rxSentinel).drop 1, dp := { s.dp with n := n },
    host := { s.host with inp := s.host.inp.drop 1 } } : State) = _
  rw [hi]
  simp

/-- The body of a packet that fits (R154). -/
theorem receiveBody_pending {bs rest : List Byte} (hi : s.host.inp = bs ++ rest) (hl : bs.length = s.dp.n.toNat)
    (h0 : s.dp.n.toNat ≠ 0) (hn : s.dp.n.toNat < s.cfg.rxCap) (hr : s.env.recvs = []) :
    receiveBody s = { s with
      phase := .payloadReceived, buf := storeBody s.buf bs, host := { s.host with inp := rest } } := by
  unfold receiveBody
  have h := recv_pending (s := s) h0 (by rw [hi, List.length_append]; omega) hr
  simp only [h]
  rw [if_neg (by show ¬ s.cfg.rxCap ≤ s.dp.n.toNat; omega), ← hl, hi, List.take_left]
  show ({ s with
    phase := .payloadReceived, buf := storeBody s.buf bs, host := { s.host with inp := s.host.inp.drop bs.length } } : State) = _
  rw [hi, List.drop_left]

/-! ### The packet in the buffer -/

/-- The body behind its length byte in a cleared buffer (R150, R154). -/
theorem storeBody_cleared (cfg : Cfg) (n : Byte) (bs : List Byte) :
    storeBody (n :: List.replicate (cfg.rxCap - 1) cfg.rxSentinel) bs = receivedBuf cfg n bs := by
  unfold storeBody receivedBuf
  simp only [List.take_succ_cons, List.take_zero, List.cons_append, List.nil_append, Nat.add_comm 1, List.drop_succ_cons,
    List.drop_replicate]

/-- A sealed packet in the buffer passes the integrity check (R120, R134). -/
theorem checksumOk_sealed {i : Instr} (hw : i.wf s.cfg = true) (hn : s.dp.n = BitVec.ofNat 8 ((payloadOf i).length + 5))
    (hb : s.buf = receivedBuf s.cfg s.dp.n (sealedTail s.cfg (opcodeOf s.cfg i) (payloadOf i))) : s.checksumOk = true := by
  unfold State.checksumOk packetChecksum
  rw [beq_iff_eq, hb, hn, nominalN_toNat hw, coveredBytes_sealed, receivedChecksum_sealed]

end Sys2Proof.Machine
end

