-- ==== Sys2Proof/Laws/Handlers.lean ====
section
/-! SUPPORT. What the parts of a handler keep (spec 44_flash_controller.md R245 to R248): inside a handler the FMC is at rest outside the
sequences, and open inside `ProgramRange`; each part either goes on so, or ends the step in a state that meets the invariant, or
faults in the one way it can. -/

namespace Sys2Proof.Machine

open Sys2Proof.Safety

/-- What holds of a state inside a running handler, but for the FMC. -/
structure InHandler (s : State) : Prop where
  cfg_ok      : cfgWf s.cfg = true
  not_faulted : s.faulted = false
  mem_wf      : Memory.wf s.cfg s.mem
  buf_cap     : s.buf.length = s.cfg.rxCap
  running     : s.phase = .dispatched
  periph_on   : s.periph = { clocks := true, transport := true, checksum := true }

/-- A handler with the FMC at rest. -/
abbrev AtRest (s : State) : Prop := InHandler s ∧ FmcAtRest s.fmc ∧ FmcReservedZero s.fmc

/-- A handler between `Unlock` and `Lock`, nothing in flight. -/
abbrev AtOpen (s : State) : Prop := InHandler s ∧ FmcOpen s.fmc

/-- The only fault of a handler, with what still holds of the state it carries. -/
abbrev Unmapped (f : Fault) : Prop := ∃ u, f = .unmappedAccess u ∧ cfgWf u.cfg = true ∧ Memory.wf u.cfg u.mem

variable {s t : State}

/-- A handler's state after a change of anything but what `InHandler` speaks of. -/
theorem InHandler.congr (h : InHandler s) (hc : t.cfg = s.cfg) (hf : t.faulted = s.faulted) (hm : Memory.wf s.cfg t.mem)
    (hb : t.buf = s.buf) (hp : t.phase = s.phase) (hd : t.periph = s.periph) : InHandler t :=
  ⟨by rw [hc]; exact h.cfg_ok, by rw [hf]; exact h.not_faulted, by rw [hc]; exact hm, by rw [hb, hc]; exact h.buf_cap,
    by rw [hp]; exact h.running, by rw [hd]; exact h.periph_on⟩

/-! ### Ends of a step -/

/-- A handler that stops at a wait, held as its position says (R50, R248). -/
theorem InHandler.held (h : InHandler s) (hr : FmcReservedZero s.fmc) {p : Pos} (hp : HeldProperly s.cfg s.fmc p) : Inv (s.setPos p) :=
  ⟨h.cfg_ok, h.not_faulted, h.mem_wf, h.buf_cap, hr, hp, fun hn => absurd h.running hn,
    fun hn => (nomatch (h.running.symm.trans hn : Phase.dispatched = Phase.payloadReceived)), fun _ => h.periph_on⟩

theorem AtRest.abort (h : AtRest s) (c : Cause) : Inv (s.abort c) :=
  ⟨h.1.cfg_ok, h.1.not_faulted, h.1.mem_wf, h.1.buf_cap, h.2.2, h.2.1, fun _ => rfl, fun hn => (nomatch hn), fun _ => h.1.periph_on⟩

theorem AtRest.finish (h : AtRest s) : Inv s.finish :=
  ⟨h.1.cfg_ok, h.1.not_faulted, h.1.mem_wf, h.1.buf_cap, h.2.2, h.2.1, fun _ => rfl, fun hn => (nomatch hn), fun _ => h.1.periph_on⟩

theorem AtRest.frame (h : AtRest s) (hc : t.cfg = s.cfg) (hf : t.faulted = s.faulted) (hm : t.mem = s.mem) (hb : t.buf = s.buf)
    (hp : t.phase = s.phase) (hd : t.periph = s.periph) (hg : t.fmc = s.fmc) : AtRest t :=
  ⟨h.1.congr hc hf (by rw [hm]; exact h.1.mem_wf) hb hp hd, by rw [hg]; exact h.2.1, by rw [hg]; exact h.2.2⟩

theorem AtOpen.rest (h : AtOpen s) : AtRest (s.setFmc { s.fmc with lockst := .lockedK1 }) :=
  ⟨h.1.congr rfl rfl h.1.mem_wf rfl rfl rfl, (FmcOpen.locks h.2).1, (FmcOpen.locks h.2).2.1⟩

/-! ### Sends -/

section Parts

variable {F : Fault → Prop}

theorem send_keeps (bs : List Byte) (h : AtRest s) : (send bs s).Meets (fun _ t => AtRest t) Inv F := by
  have hr : AtRest (s.sendDrawn.recordSend s.sendChoice bs) := by
    rw [recordSend_frame]
    exact h.frame rfl rfl rfl rfl rfl rfl rfl
  rcases send_cases bs s with e | ⟨-, -, e⟩ <;> rw [e]
  · exact hr
  · exact hr.abort _

theorem sendEach_keeps (bs : List Byte) : ∀ {s : State}, AtRest s → (sendEach bs s).Meets (fun _ t => AtRest t) Inv F := by
  induction bs with
  | nil => exact fun h => h
  | cons b bs ih => exact fun h => (send_keeps [b] h).bind fun _ _ ht => ih ht

theorem checksumPrologue_keeps (nack : Bool) (h : AtRest s) :
    (checksumPrologue nack s).Meets (fun _ t => AtRest t) Inv F := by
  have hr : AtRest s.ranChecksum := h.frame rfl rfl rfl rfl rfl rfl rfl
  unfold checksumPrologue
  split
  · exact hr
  · split
    · exact (send_keeps _ hr).bind fun _ _ ht => ht.abort _
    · exact hr.abort _

/-! ### Memory and completions -/

theorem State.setWordAt_wf (a v : Word) (h : Memory.wf s.cfg s.mem) : Memory.wf s.cfg (s.setWordAt a v).mem :=
  Memory.setWord_wf _ _ h

theorem completeOp_wf (ok : Bool) (op : FmcOp) (h : Memory.wf s.cfg s.mem) : Memory.wf s.cfg (completeOp ok op s).mem := by
  cases op with
  | noOp => exact h
  | program a v => exact Memory.setWord_wf _ _ h
  | erase n =>
    show Memory.wf s.cfg (completeErase ok n s).mem
    unfold completeErase
    split
    · exact h
    · split
      · exact Memory.eraseRange_wf _ _ h
      · exact Memory.scramble_wf _ _ _ h

theorem InHandler.completed (h : InHandler s) (ok : Bool) (op : FmcOp) (f : Fmc) (ds : List Word) :
    InHandler ((completeOp ok op (s.withCompletions ds)).setFmc f) := by
  have e := completeOp_frame ok op (s.withCompletions ds)
  have hw := completeOp_wf (s := s.withCompletions ds) ok op h.mem_wf
  generalize completeOp ok op (s.withCompletions ds) = t at e hw
  rw [e]
  exact h.congr rfl rfl hw rfl rfl rfl

theorem memRead_keeps (pos : Pos) (a : Word) (h : AtRest s) :
    (memRead pos a s).Meets (fun _ t => t = s) Inv Unmapped := by
  unfold memRead
  split
  · rfl
  · rw [awaitFmc_idle h.2.1.1]; rfl
  · exact ⟨_, rfl, h.1.cfg_ok, h.1.mem_wf⟩

/-- A read at an address inside the windows does not fault. -/
theorem memRead_keeps_valid {pos : Pos} {a : Word} (h : AtRest s) (ha : classify s.cfg a ≠ .invalid) :
    (memRead pos a s).Meets (fun _ t => t = s) Inv F := by
  rw [memRead_idle h.2.1.1 ha]; rfl

theorem readLoop_keeps : ∀ (left i : Nat) {s : State}, AtRest s → (readLoop left i s).Meets (fun _ t => AtRest t) Inv Unmapped
  | 0, _, _, h => h
  | left + 1, i, s, h => by
    have hr : AtRest (s.setIndex i) := h.frame rfl rfl rfl rfl rfl rfl rfl
    refine (memRead_keeps _ _ hr).bind fun w t ht => ?_
    subst ht
    exact (sendEach_keeps (s := (s.setIndex i).setDataWord w) _ (hr.frame rfl rfl rfl rfl rfl rfl rfl)).bind fun _ u hu => readLoop_keeps left (i + 1) hu

/-! ### EraseAppSector -/

theorem eraseFinish_keeps (h : InHandler s) (hf : EraseAwaited s.cfg s.fmc) (hr : FmcReservedZero s.fmc) :
    (eraseFinish s).Meets (fun _ t => AtRest t) Inv F := by
  obtain ⟨h1 | ⟨h1, h4⟩, h2, h3, h5⟩ := hf
  · rw [eraseFinish_idle ⟨h3, h5, hr⟩ h1]
    have he := endErase_ready s.fmc
    exact ⟨h.congr rfl rfl h.mem_wf rfl rfl rfl, he.1, he.2.1⟩
  have hop : s.fmc.op ≠ .noOp := by rw [h1]; simp
  have hs : s.fmc.sr = 0#32 := by rw [eq_and_of_and_not hr.1, h4]
  cases hc : s.env.completions with
  | nil =>
    rw [eraseFinish_hold hop hc]
    exact h.held hr (p := .eraseDone) ⟨.inr ⟨h1, h4⟩, h2, h3, h5⟩
  | cons d ds =>
    rw [eraseFinish_done ⟨h3, h5, hr⟩ hop hs hc]
    have he := endErase_ready s.fmc
    exact ⟨h.completed _ _ _ _, he.1, he.2.1⟩

theorem eraseAppSector_keeps (h : AtRest s) : (eraseAppSector s).Meets (fun _ t => AtRest t) Inv F := by
  by_cases hn : s.cfg.appSector < s.cfg.numSectors
  · rcases h.2.1.2.2.2 with hl | hl
    · have hr : FmcReady s.fmc := ⟨h.2.1, h.2.2, hl⟩
      by_cases hp : s.cfg.appSector ∈ s.cfg.wrpProtected
      · rw [eraseAppSector_protected h.1.cfg_ok hn hr hp]
        exact ⟨h.1.congr rfl rfl h.1.mem_wf rfl rfl rfl, (by decide : FmcAtRest fmcAfterSequence),
          (by decide : FmcReservedZero fmcAfterSequence)⟩
      · rw [eraseAppSector_started h.1.cfg_ok hn hr hp]
        have he := erasing_inFlight h.1.cfg_ok hn hr
        exact eraseFinish_keeps (h.1.congr rfl rfl h.1.mem_wf rfl rfl rfl) ⟨.inr ⟨rfl, h.2.1.2.1⟩, hn, rfl, he.2.1⟩ he.2.2
    · rw [eraseAppSector_hard hn h.2.1 hl]; exact h
  · rw [eraseAppSector_range (by omega)]; exact h

/-! ### ProgramRange -/

theorem FmcOpen.reserved {f : Fmc} (h : FmcOpen f) : FmcReservedZero f :=
  ⟨by rw [h.2.2.1, BitVec.zero_and], psize_and_of_disjoint h.2.2.2 (by decide)⟩

theorem programFinish_keeps {ws : List Word} (h : InHandler s) (hf : ProgramAwaited s.cfg s.fmc) (hr : FmcReservedZero s.fmc) :
    (programFinish ws s).Meets (fun _ t => AtOpen t) Inv F := by
  obtain ⟨h1 | ⟨⟨a, v, h1, ha⟩, h4⟩, h3, h5⟩ := hf
  · rw [programFinish_idle ⟨h3, h5, hr⟩ h1]
    exact ⟨h.congr rfl rfl h.mem_wf rfl rfl rfl, FmcProgramming.ends ⟨h3, h5, hr⟩⟩
  have hop : s.fmc.op ≠ .noOp := by rw [h1]; simp
  have hs : s.fmc.sr = 0#32 := by rw [eq_and_of_and_not hr.1, h4]
  cases hc : s.env.completions with
  | nil =>
    rw [programFinish_hold hop hc]
    exact h.held hr (p := .programDone ws) ⟨.inr ⟨⟨a, v, h1, ha⟩, h4⟩, h3, h5⟩
  | cons d ds =>
    rw [programFinish_done ⟨h3, h5, hr⟩ hop hs hc]
    exact ⟨h.completed _ _ _ _, FmcProgramming.ends ⟨h3, h5, hr⟩⟩

theorem afterWord_open {i : Nat} {w : Word} (h : InHandler s) : AtOpen (s.afterWord i w) :=
  ⟨h.congr rfl rfl h.mem_wf rfl rfl rfl, fmcAfterWord_open⟩

theorem programWord_keeps {w : Word} {ws : List Word} {i : Nat} (h : AtOpen s) :
    (programWord w ws i s).Meets (fun _ t => AtOpen t) Inv Unmapped := by
  cases ha : classify s.cfg (wordAddr s.dp.addr i) with
  | ramValid =>
    rw [programWord_ram h.2 ha]
    have hw := afterWord_open (i := i) (w := w) h.1
    exact ⟨hw.1.congr rfl rfl (State.setWordAt_wf _ _ hw.1.mem_wf) rfl rfl rfl, hw.2⟩
  | flashValid =>
    by_cases hp : sectorOf s.cfg (wordAddr s.dp.addr i) ∈ s.cfg.wrpProtected
    · rw [programWord_protected h.2 ha hp]
      exact afterWord_open h.1
    · unfold programWord
      rw [programStart_flash h.2 ha hp]
      simp only [Flow.bind_go]
      exact programFinish_keeps (h.1.congr rfl rfl h.1.mem_wf rfl rfl rfl)
        ⟨.inr ⟨⟨_, _, rfl, ha⟩, by show s.fmc.sr &&& _ = _; rw [h.2.2.2.1, BitVec.zero_and]⟩, h.2.2.1, by
          show crProgramming &&& _ = _; decide⟩
        ⟨by show s.fmc.sr &&& _ = _; rw [h.2.2.2.1, BitVec.zero_and], by show crProgramming &&& _ = _; decide⟩
  | invalid =>
    unfold programWord
    rw [programStart_open h.2]
    unfold memWrite
    rw [show classify (((s.setIndex i).setDataWord w).setFmc _).cfg (wordAddr s.dp.addr i) = .invalid from ha]
    exact ⟨_, rfl, h.1.cfg_ok, h.1.mem_wf⟩

theorem programLoop_keeps : ∀ (ws : List Word) (i : Nat) {s : State}, AtOpen s →
    (programLoop ws i s).Meets (fun _ t => AtOpen t) Inv Unmapped
  | [], _, _, h => h
  | w :: ws, i, s, h => by
    rw [programLoop_cons]
    refine (programWord_keeps h).bind fun st t ht => ?_
    split
    · exact programLoop_keeps ws (i + 1) ht
    · exact ht

theorem lockAfter_keeps {st : Status} (h : AtOpen s) : (lockAfter st s).Meets (fun _ t => AtRest t) Inv F := by
  unfold lockAfter
  rw [lock_of_open h.2]
  exact h.rest

theorem programRange_keeps (ws : List Word) (h : AtRest s) : (programRange ws s).Meets (fun _ t => AtRest t) Inv Unmapped := by
  rcases h.2.1.2.2.2 with hl | hl
  · have hr : FmcReady s.fmc := ⟨h.2.1, h.2.2, hl⟩
    rw [programRange_ready hr]
    have ho : AtOpen (s.setFmc { s.fmc with lockst := .unlocked }) := ⟨h.1.congr rfl rfl h.1.mem_wf rfl rfl rfl, FmcReady.opens hr⟩
    exact (programLoop_keeps ws 0 ho).bind fun _ _ ht => lockAfter_keeps ht
  · rw [programRange_hard h.2.1.1 hl]; exact h

theorem programResume_keeps {ws : List Word} (h : InHandler s) (hf : ProgramAwaited s.cfg s.fmc) (hr : FmcReservedZero s.fmc) :
    (programResume ws s).Meets (fun _ t => AtRest t) Inv Unmapped := by
  unfold programResume
  refine ((programFinish_keeps h hf hr).bind fun st t ht => ?_).bind fun _ _ ht => lockAfter_keeps ht
  split
  · exact programLoop_keeps ws _ ht
  · exact ht

end Parts

end Sys2Proof.Machine
end

