-- ==== Sys2Proof/Laws/PerInstr.lean ====
section
/-! SUPPORT. The per-instruction family `EncodeShape`: the shape of a command's nominal packet (spec 30_encoding.md R100, R104). -/

namespace Sys2Proof.Laws.EncodeShape

open Sys2Proof Sys2Proof.Machine

/-- The nominal packet has `N + 1` bytes: the length byte `N` first, the opcode next, the checksum last (R100, R104). -/
def Statement (i : Instr) : Prop :=
  ∀ cfg : Cfg, (encode cfg i).length = i.nominalN + 1 ∧ (encode cfg i)[0]? = some (BitVec.ofNat 8 i.nominalN) ∧
    (encode cfg i)[1]? = some (opcodeOf cfg i) ∧
    (encode cfg i).drop (i.nominalN - 3) =
      bytesBE (checksum cfg.crcInputLane ((encode cfg i).take (i.nominalN - 3)))

/-- The shape of any sealed packet. -/
theorem of_nominalN {i : Instr} (h : i.nominalN = (payloadOf i).length + 5) : Statement i := by
  intro cfg
  have hl : (BitVec.ofNat 8 ((payloadOf i).length + 5) :: opcodeOf cfg i :: payloadOf i).length = i.nominalN - 3 := by
    simp [h]
  have he : encode cfg i = (BitVec.ofNat 8 ((payloadOf i).length + 5) :: opcodeOf cfg i :: payloadOf i) ++
      bytesBE (checksum cfg.crcInputLane (BitVec.ofNat 8 ((payloadOf i).length + 5) :: opcodeOf cfg i :: payloadOf i)) := rfl
  refine ⟨?_, by rw [he, h]; rfl, rfl, ?_⟩
  · rw [he, List.length_append, hl, bytesBE_length]; omega
  · rw [he, ← hl, List.drop_left, List.take_left]

theorem getVersion : Statement .getVersion := of_nominalN (nominalN_eq _)
theorem getHelp : Statement .getHelp := of_nominalN (nominalN_eq _)
theorem getCid : Statement .getCid := of_nominalN (nominalN_eq _)
theorem getRdp : Statement .getRdp := of_nominalN (nominalN_eq _)
theorem jumpApp : Statement .jumpApp := of_nominalN (nominalN_eq _)
theorem jumpAddr (addr : Word) : Statement (.jumpAddr addr) := of_nominalN (nominalN_eq _)
theorem erase : Statement .erase := of_nominalN (nominalN_eq _)
theorem write (addr : Word) (data : List Byte) : Statement (.write addr data) := of_nominalN (nominalN_eq _)
theorem read (addr : Word) (count : Byte) : Statement (.read addr count) := of_nominalN (nominalN_eq _)

end Sys2Proof.Laws.EncodeShape
end

