-- ==== Sys2Proof/Tests/Slice0.lean ====
section
/-! SUPPORT. The model's own tests: expected values are those of spec/95_test_vectors.md, computed there from the rules; and, for every
statement with hypotheses, a concrete input that meets them. -/

namespace Sys2Proof.Tests

open Sys2Proof Sys2Proof.Machine Sys2Proof.Safety

/- One theorem after another: a thread for each kernel evaluation needs more memory than the check allows. -/
set_option Elab.async false


/-! ## Helpers -/

/-- Reset, with sends that succeed and an FMC whose operations complete with OK (the conventions of spec 95_test_vectors.md). -/
def healthy : State :=
  { State.reset with env := { recvs := [], sends := List.replicate 16 .success, completions := [0#32, 0#32, 0#32], drawn := 0 } }

/-- The packet `p` received under `cfg`, dispatched by the next step. -/
def withPacket (p : List Byte) (s : State) : State := placePacket p s

/-- The state a step or a handler answers, if it answers one. -/
def after (o : Host.Outcome State Fault Refusal) : Option State :=
  match o with
  | .next t => some t
  | .fault _ => none
  | .refused _ => none

/-- The state a fault carries, with the fault's code. -/
def faulted (o : Host.Outcome State Fault Refusal) : Option (Option Nat × State) :=
  match o with
  | .next _ => none
  | .fault f => some (faultCode f, faultState f)
  | .refused _ => none

theorem next_of_after {o : Host.Outcome State Fault Refusal} (h : (after o).isSome = true) : ∃ t, o = .next t := by
  cases o with
  | next t => exact ⟨t, rfl⟩
  | fault f => cases h
  | refused r => cases h

/-- What the host received and how the cycle ended, after one step on the packet `p`. -/
def answer (p : List Byte) (s : State) : Option (List Byte × Option Event) :=
  (after (step (withPacket p s))).map fun t => (t.host.out, t.events.getLast?)

/-- The end of a cycle. -/
abbrev endOk : Option Event := some (.cycleEnd .ok .none)
abbrev endBad (c : Cause) : Option Event := some (.cycleEnd .notOk c)

/-- The packets of spec 95_test_vectors.md. -/
abbrev pVersion : List Byte := [0x05#8, 0x10#8, 0xAF#8, 0xF7#8, 0x24#8, 0xAF#8]
abbrev pHelp : List Byte := [0x05#8, 0x11#8, 0x73#8, 0x9A#8, 0xBE#8, 0x18#8]
abbrev pCid : List Byte := [0x05#8, 0x12#8, 0x13#8, 0xED#8, 0x0C#8, 0x76#8]
abbrev pRdp : List Byte := [0x05#8, 0x13#8, 0xCF#8, 0x80#8, 0x96#8, 0xC1#8]
abbrev pJumpApp : List Byte := [0x05#8, 0x14#8, 0xD3#8, 0x02#8, 0x68#8, 0xAA#8]
abbrev pJumpAddr : List Byte := [0x09#8, 0x15#8, 0x20#8, 0x00#8, 0x01#8, 0x00#8, 0x02#8, 0x0D#8, 0x0C#8, 0xA0#8]
abbrev pErase : List Byte := [0x05#8, 0x16#8, 0x6F#8, 0x18#8, 0x40#8, 0x73#8]
abbrev pWrite : List Byte :=
  [0x0D#8, 0x17#8, 0x08#8, 0x00#8, 0x80#8, 0x00#8, 0xDE#8, 0xAD#8, 0xBE#8, 0xEF#8, 0x9F#8, 0x34#8, 0x25#8, 0x7F#8]
abbrev pRead : List Byte := [0x0A#8, 0x18#8, 0x08#8, 0x00#8, 0x80#8, 0x00#8, 0x01#8, 0x2E#8, 0x30#8, 0xCF#8, 0x4C#8]

/-- Two words of data. -/
abbrev data8 : List Byte := [0x01#8, 0x02#8, 0x03#8, 0x04#8, 0x05#8, 0x06#8, 0x07#8, 0x08#8]

/-! ## WellFormed: each check refuses an ill-formed term -/

theorem test_wf_fits_the_buffer : (Instr.write 0x20000000#32 (List.replicate 90 0#8)).wf cfg0 = true := by decide +kernel
theorem test_wf_refuses_more_than_the_buffer : (Instr.write 0x20000000#32 (List.replicate 91 0#8)).wf cfg0 = false := by decide +kernel
theorem test_wf_refuses_read_in_a_small_buffer : (Instr.read 0x20000000#32 1#8).wf { cfg0 with rxCap := 10 } = false := by decide
theorem test_wf_refuses_more_than_a_byte_of_length :
    (Instr.write 0x20000000#32 (List.replicate 247 0#8)).wf { cfg0 with rxCap := 300 } = false := by decide +kernel
theorem test_cfg0_wf : cfgWf cfg0 = true := by decide +kernel
theorem test_cfgWf_refuses : cfgWf { cfg0 with rxCap := 9 } = false ∧ cfgWf { cfg0 with ramEnd := 0x20000002#32 } = false ∧
    cfgWf { cfg0 with flashEnd := 0x08080004#32 } = false ∧ cfgWf { cfg0 with opcRead := 0x17#8 } = false ∧
    cfgWf { cfg0 with opcGetVersion := 0x0F#8 } = false ∧ cfgWf { cfg0 with chipId := 0x1000#16 } = false ∧
    cfgWf { cfg0 with appBase := 0x0807FFFC#32 } = false ∧ cfgWf { cfg0 with helpList := List.replicate 256 0#8 } = false ∧
    cfgWf { cfg0 with ramBase := 0x20020000#32 } = false := by decide +kernel

/-- R43: the FMC's registers lie outside both windows, so a RAM window that covers `CR` is refused. -/
theorem test_registers_outside : regAddr .keyr = 0x40023C04#32 ∧ regAddr .sr = 0x40023C0C#32 ∧ regAddr .cr = 0x40023C10#32 ∧
    cfgWf { cfg0 with ramBase := 0x40023C10#32, ramEnd := 0x40023C20#32 } = false := by decide +kernel

/-! ## Decoding: packets the spec writes out, byte by byte -/

theorem test_decode_getVersion : decode cfg0 pVersion = .ok .getVersion := by decide +kernel
theorem test_decode_getHelp : decode cfg0 pHelp = .ok .getHelp := by decide +kernel
theorem test_decode_getCid : decode cfg0 pCid = .ok .getCid := by decide +kernel
theorem test_decode_getRdp : decode cfg0 pRdp = .ok .getRdp := by decide +kernel
theorem test_decode_jumpApp : decode cfg0 pJumpApp = .ok .jumpApp := by decide +kernel
theorem test_decode_jumpAddr : decode cfg0 pJumpAddr = .ok (.jumpAddr 0x20000100#32) := by decide +kernel
theorem test_decode_erase : decode cfg0 pErase = .ok .erase := by decide +kernel
theorem test_decode_write : decode cfg0 pWrite = .ok (.write 0x08008000#32 [0xDE#8, 0xAD#8, 0xBE#8, 0xEF#8]) := by decide +kernel
theorem test_decode_read : decode cfg0 pRead = .ok (.read 0x08008000#32 0x01#8) := by decide +kernel

/-- Vectors F1, F4, F6: the lengths and the opcode the decoder rejects by name. -/
theorem test_decode_rejects : decode cfg0 [0x00#8] = .error (.undersize 0x00#8) ∧
    decode cfg0 [0x64#8, 0x55#8] = .error (.oversize 0x64#8) ∧
    decode cfg0 [0x05#8, 0x19#8, 0x8A#8, 0x70#8, 0x26#8, 0x12#8] = .error (.unrecognizedOpcode 0x19#8) ∧
    decode cfg0 [0x05#8, 0x10#8, 0xAF#8, 0xF7#8] = .error .truncated := by decide +kernel

/-- Vectors T11, M18, M29: fields of a short packet land on its checksum bytes. -/
theorem test_decode_short_fields :
    decode cfg0 [0x05#8, 0x15#8, 0x0F#8, 0x6F#8, 0xF2#8, 0x1D#8] = .ok (.jumpAddr 0x0F6FF21D#32) ∧
    decode cfg0 [0x05#8, 0x17#8, 0xB3#8, 0x75#8, 0xDA#8, 0xC4#8] = .ok (.write 0xB375DAC4#32 []) ∧
    decode cfg0 [0x09#8, 0x18#8, 0x08#8, 0x00#8, 0x80#8, 0x00#8, 0xF8#8, 0x3F#8, 0x3E#8, 0x9C#8] = .ok (.read 0x08008000#32 0xF8#8) := by
  decide +kernel

theorem test_encode : encode cfg0 .getVersion = pVersion ∧ encode cfg0 .getHelp = pHelp ∧ encode cfg0 .getCid = pCid ∧
    encode cfg0 .getRdp = pRdp ∧ encode cfg0 .jumpApp = pJumpApp ∧ encode cfg0 (.jumpAddr 0x20000100#32) = pJumpAddr ∧
    encode cfg0 .erase = pErase ∧ encode cfg0 (.write 0x08008000#32 [0xDE#8, 0xAD#8, 0xBE#8, 0xEF#8]) = pWrite ∧
    encode cfg0 (.read 0x08008000#32 0x01#8) = pRead := by decide +kernel

theorem test_decodeTableWord : decodeTableWord 8 0x16 = some .erase ∧ decodeTableWord 48 0x010080000818 = some (.read 0x08008000#32 0x01#8) ∧
    decodeTableWord 8 0x19 = none := by decide +kernel

/-! ## Checksum Engine (V1) -/

theorem test_checksum_v1 : checksum .high [] = 0xFFFFFFFF#32 ∧ checksum .high [0x00#8] = 0xC704DD7B#32 ∧
    checksum .high [0xFF#8] = 0x48647D00#32 ∧ checksum .high [0x01#8] = 0x1B6947CC#32 ∧ checksum .high [0x80#8] = 0x61E2E066#32 ∧
    checksum .high [0x05#8, 0x10#8] = 0xAFF724AF#32 := by decide +kernel
theorem test_checksum_digits : checksum .high [0x31#8, 0x32#8, 0x33#8, 0x34#8, 0x35#8, 0x36#8, 0x37#8, 0x38#8, 0x39#8] =
    0x1F2F3790#32 := by decide +kernel
theorem test_checksum_low_lane : checksum .low [0x05#8, 0x10#8] = 0x4CEC8427#32 ∧ checksum .low [0x80#8] = 0xAE083D95#32 := by
  decide +kernel

/-! ## Address Validator (X6) -/

theorem test_classify_x6 : classify cfg0 0x1FFFFFFF#32 = .invalid ∧ classify cfg0 0x20000000#32 = .ramValid ∧
    classify cfg0 0x2001FFFF#32 = .ramValid ∧ classify cfg0 0x20020000#32 = .invalid ∧ classify cfg0 0x07FFFFFF#32 = .invalid ∧
    classify cfg0 0x08000000#32 = .flashValid ∧ classify cfg0 0x0807FFFF#32 = .flashValid ∧
    classify cfg0 0x08080000#32 = .invalid ∧ classify cfg0 0x40023C10#32 = .invalid := by decide +kernel

/-! ## Framing (V2), through the host's bytes -/

/-- A step that answers a next state. -/
def stepped (s : State) : State := (after (step s)).getD s

/-- F2: five bytes are consumed, then PROTOCOL_VIOLATION. -/
theorem test_undersize_f2 :
    let t := stepped (stepped (stepped (hostSends [0x04#8, 0x10#8, 0xAA#8, 0xBB#8, 0xCC#8] healthy)))
    (t.host.inp, t.host.out, t.phase, t.events.getLast?) = ([], [], .idle, endBad .protocolViolation) := by decide +kernel

/-- F4: an oversize body is consumed whole, and the buffer stays as it was. -/
theorem test_oversize_f4 :
    let t := stepped (stepped (hostSends (0x64#8 :: List.replicate 100 0x55#8) healthy))
    (t.host.inp, t.host.out, t.buf, t.events.getLast?) =
      ([], [], 0x64#8 :: List.replicate 99 0x00#8, endBad .protocolViolation) := by decide +kernel

/-- F9: the transport fails on the body, having delivered two bytes of it. -/
theorem test_transport_failure_f9 :
    let t := stepped (stepped (hostChoosesRecv (.fail 2) (hostChoosesRecv .deliver (hostSends pVersion healthy))))
    (t.host.inp, t.host.out, t.events.getLast?) = ([0xF7#8, 0x24#8, 0xAF#8], [], endBad .transportFailure) := by decide +kernel

/-- F11: with too few bytes the body's reception holds. -/
theorem test_hold_f11 :
    let t := stepped (hostSends [0x05#8, 0x10#8, 0xAF#8, 0xF7#8] healthy)
    (t.phase, t.host.inp, decide (stepped t = t)) = (.lengthReceived, [0x10#8, 0xAF#8, 0xF7#8], true) := by decide +kernel

/-- F7: an unimplemented opcode with a bad checksum is UNRECOGNIZED_OPCODE. -/
theorem test_unrecognized_f7 :
    answer [0x05#8, 0x1A#8, 0xEA#8, 0x07#8, 0x94#8, 0x7D#8] healthy = some ([], endBad .unrecognizedOpcode) := by decide +kernel

/-- F12: an extra byte before the checksum is ignored. -/
theorem test_extra_byte_f12 : answer [0x06#8, 0x10#8, 0x77#8, 0x64#8, 0x1E#8, 0xBC#8, 0x92#8] healthy =
    some ([0xDD#8, 0x04#8, 0x01#8, 0x02#8, 0x03#8, 0x04#8], endOk) := by decide +kernel

/-! ## Commands (V3, V4, V5) -/

theorem test_getVersion_i1 : answer pVersion healthy = some ([0xDD#8, 0x04#8, 0x01#8, 0x02#8, 0x03#8, 0x04#8], endOk) := by
  decide +kernel
theorem test_getVersion_bad_i5 : answer [0x05#8, 0x10#8, 0xAF#8, 0xF7#8, 0x24#8, 0xAE#8] healthy =
    some ([], endBad .checksumMismatch) := by decide +kernel
theorem test_getHelp_i2 : answer pHelp healthy =
    some ([0xDD#8, 0x09#8, 0x10#8, 0x11#8, 0x12#8, 0x13#8, 0x14#8, 0x15#8, 0x16#8, 0x17#8, 0x18#8], endOk) := by decide +kernel
theorem test_getHelp_empty_i9 : answer pHelp { healthy with cfg := { cfg0 with helpList := [] } } = some ([0xDD#8, 0x00#8], endOk) := by
  decide +kernel
theorem test_getCid_i3 : answer pCid healthy = some ([0xDD#8, 0x02#8, 0x31#8, 0x04#8], endOk) := by decide +kernel
theorem test_getCid_i8 : answer pCid { healthy with cfg := { cfg0 with chipId := 0x0FFF#16 } } =
    some ([0xDD#8, 0x02#8, 0xFF#8, 0x0F#8], endOk) := by decide +kernel
theorem test_getRdp_i4 : answer pRdp healthy = some ([0xDD#8, 0x01#8, 0xAA#8], endOk) := by decide +kernel

/-- T1: the flash is erased. -/
theorem test_jumpApp_t1 : (after (step (withPacket pJumpApp healthy))).map (fun t => (t.host.out, t.events.drop 1, t.phase)) =
    some ([0xDD#8, 0x00#8], [.deinit .clocks, .deinit .transport, .deinit .checksum, .transfer (some 0xFFFFFFFF#32) 0xFFFFFFFF#32],
      .transferred) := by decide +kernel

/-- T2: the two words at the application base, each little-endian in memory. -/
theorem test_jumpApp_t2 :
    let s := (healthy.setWordAt 0x08008000#32 0x20020000#32).setWordAt 0x08008004#32 0x08008101#32
    (after (step (withPacket pJumpApp s))).map (fun t => (t.events.getLast?, t.periph)) =
      some (some (.transfer (some 0x20020000#32) 0x08008101#32), { clocks := false, transport := false, checksum := false }) := by
  decide +kernel

/-- T4: a RAM address, bit 0 set on transfer; no peripheral is switched off. -/
theorem test_jumpAddr_t4 : (after (step (withPacket pJumpAddr healthy))).map (fun t => (t.host.out, t.events.getLast?, t.periph)) =
    some ([0xDD#8, 0x00#8], some (.transfer none 0x20000101#32), { clocks := true, transport := true, checksum := true }) := by
  decide +kernel

/-- T6: the first address past RAM; the ACK is sent all the same. -/
theorem test_jumpAddr_t6 : answer [0x09#8, 0x15#8, 0x20#8, 0x02#8, 0x00#8, 0x00#8, 0x56#8, 0x41#8, 0x16#8, 0x66#8] healthy =
    some ([0xDD#8, 0x00#8], endBad .invalidAddress) := by decide +kernel

/-- M1: the application sector is erased, its neighbour is not. -/
theorem test_erase_m1 :
    let s := (healthy.setWordAt 0x08008000#32 0x12345678#32).setWordAt 0x0800C000#32 0xCAFEBABE#32
    (after (step (withPacket pErase s))).map (fun t => (t.host.out, t.events.getLast?, t.wordAt 0x08008000#32, t.wordAt 0x0800C000#32)) =
      some ([0xDD#8, 0x00#8], endOk, 0xFFFFFFFF#32, 0xCAFEBABE#32) := by decide +kernel

/-- M3: a protected sector. -/
theorem test_erase_m3 :
    (after (step (withPacket pErase { healthy with cfg := { cfg0 with wrpProtected := [2] } }))).map
      (fun t => (t.host.out, t.events.getLast?, t.fmc)) =
      some ([0xDD#8, 0x00#8], endBad (.hardwareOperationFailure (.fail .hwError 0x10#32)), fmcAfterSequence) := by decide +kernel

/-- M7: the word, most significant byte first on the wire, least significant byte lowest in memory; V6.2's last `CR`. -/
theorem test_write_m7 : (after (step (withPacket pWrite healthy))).map
    (fun t => (t.host.out, t.events.getLast?, t.wordAt 0x08008000#32, t.byteAt 0x08008000, t.fmc.readCr)) =
      some ([0xDD#8, 0x01#8, 0x4F#8], endOk, 0xDEADBEEF#32, 0xEF#8, 0x80000200#32) := by decide +kernel

/-- M17: programming a word that is not erased leaves the AND. -/
theorem test_write_m17 :
    (after (exec (.write 0x08008000#32 [0xFF#8, 0xFF#8, 0x00#8, 0x00#8])
      (withPacket pWrite (healthy.setWordAt 0x08008000#32 0x0F0F0F0F#32)))).map
      (fun t => t.wordAt 0x08008000#32) = some 0x0F0F0000#32 := by decide +kernel

/-- M8 after M7: the bytes come back. -/
theorem test_read_m8 :
    answer pRead (healthy.setWordAt 0x08008000#32 0xDEADBEEF#32) =
      some ([0xDD#8, 0x01#8, 0xDE#8, 0xAD#8, 0xBE#8, 0xEF#8], endOk) := by decide +kernel

/-- M27: the second word lies past the flash: the first is sent, then UNMAPPED_ACCESS. -/
theorem test_read_m27 :
    (faulted (step (withPacket [0x0A#8, 0x18#8, 0x08#8, 0x07#8, 0xFF#8, 0xFC#8, 0x02#8, 0x5B#8, 0x7F#8, 0xCA#8, 0x0B#8] healthy))).map
      (fun p => (p.1, p.2.host.out, p.2.faulted)) =
      some (some 1, [0xDD#8, 0x02#8, 0xFF#8, 0xFF#8, 0xFF#8, 0xFF#8], true) := by decide +kernel

/-! ## The FMC (V6) and reset -/

/-- V6.3, each row from LOCKED_K1. -/
theorem test_lock_v6_3 :
    let key := fun (v : Word) (l : LockState) => keyEffect cfg0 l v
    key 0xCDEF89AB#32 (key 0x45670123#32 .lockedK1) = .unlocked ∧ key 0xCDEF89AB#32 .lockedK1 = .lockedHard ∧
    key 0x45670123#32 (key 0x45670123#32 .lockedK1) = .lockedHard ∧ lockEffect (key 0x45670123#32 .lockedK1) = .lockedK1 ∧
    key 0xCDEF89AB#32 (key 0x45670123#32 .lockedHard) = .lockedHard := by decide

/-- V6.4: OPERR and WRPERR are collected and cleared. -/
theorem test_waitIdle_v6_4 : waitIdle .eraseIdle (healthy.setFmc { healthy.fmc with sr := 0x12#32 }) =
    .go (.fail .hwError 0x12#32) healthy := by decide +kernel

/-- V6.1, steps 7 and 8: `CR` while sector 2 is erased. -/
theorem test_cr_v6_1 :
    (after ((eraseStart (healthy.setFmc { healthy.fmc with lockst := .unlocked })).outcome)).map (fun t => (t.fmc.readCr, t.fmc.readSr, t.fmc.op)) =
      some (0x00010212#32, 0x00010000#32, .erase 2) := by decide +kernel

/-- R52: what reset leaves. -/
theorem test_reset : State.reset.phase = .idle ∧ State.reset.crcReg = 0xFFFFFFFF#32 ∧ State.reset.fmc.readCr = 0x80000000#32 ∧
    State.reset.fmc.readSr = 0#32 ∧ State.reset.wordAt 0x08000000#32 = 0xFFFFFFFF#32 := by decide +kernel

/-- A word placed for the fetch is the instruction the next step runs. -/
theorem test_withFetchWord : after (step (healthy.withFetchWord 8 0x13)) = after (exec .getRdp (dispatched (withPacket pRdp healthy))) := by decide +kernel

/-- R330, R331: a READ cut by a power cycle in its third send leaves the host a prefix of the reply; of a send that failed before the
cut it holds what that failure let through. -/
theorem test_powerCycleInside_read :
    (powerCycleInside [.success, .success] 0 0 false (withPacket pRead healthy)).host.out = [0xDD#8, 0x01#8, 0xFF#8] ∧
    (powerCycleInside [.success, .success] 1 0 false (withPacket pRead healthy)).host.out = [0xDD#8, 0x01#8, 0xFF#8, 0xFF#8] ∧
    (powerCycleInside [.failure 1, .success] 1 0 false (withPacket pRead healthy)).host.out = [0xDD#8, 0xFF#8, 0xFF#8] := by decide +kernel

/-- R330: a WRITE of one word cut before its program, or before its program has started, leaves the word as it was; cut after it,
programmed; a WRITE of two words cut before the second one starts leaves the first programmed. -/
theorem test_powerCycleInside_write :
    (powerCycleInside [] 2 1 false (withPacket pWrite healthy)).wordAt 0x08008000#32 = 0xFFFFFFFF#32 ∧
    (powerCycleInside [.success] 0 1 false (withPacket pWrite healthy)).wordAt 0x08008000#32 = 0xDEADBEEF#32 ∧
    (powerCycleInside [.success] 0 0 true (withPacket pWrite healthy)).wordAt 0x08008000#32 = 0xFFFFFFFF#32 ∧
    (powerCycleInside [.success] 0 1 true (withPacket (encode cfg0 (.write 0x08008000#32 data8)) healthy)).mem =
      (healthy.setWordAt 0x08008000#32 0x01020304#32).mem := by decide +kernel

/-- R238: the FMC's own step completes the erase a handler waits for, which the handler then finds done. -/
theorem test_fmcCompletes :
    let t := stepped (withPacket pErase { healthy with env := { healthy.env with completions := [] } })
    (t.fmc.op, (fmcComplete 0#32 t).fmc.op, (stepped (fmcComplete 0#32 t)).events.getLast?) = (.erase 2, .noOp, endOk) := by decide +kernel

/-! ## Inputs that meet the hypotheses of the statements -/

/-- The state of the `test_witness_` theorems: a packet received, with the given configuration, sends and completions. -/
def received (p : List Byte) (sends : List SendDraw) (completions : List Word) : State :=
  withPacket p { healthy with env := { healthy.env with sends := sends, completions := completions } }

abbrev good : SendDraw := .success

theorem test_witness_DecodeEncodeRoundTrip : cfgWf cfg0 = true ∧ Instr.wf cfg0 .erase = true ∧
    Instr.wf cfg0 (.read 0x20000000#32 255#8) = true ∧ Instr.wf cfg0 (.write 0x20000000#32 (List.replicate 90 0#8)) = true := by
  decide +kernel

theorem test_witness_EncodedPacketPassesTheCheck : cfgWf healthy.cfg = true ∧ Instr.wf healthy.cfg .getRdp = true := by decide +kernel

theorem test_witness_OpcodeByteAloneSelects :
    5 ≤ (5#8).toNat ∧ (5#8).toNat < cfg0.rxCap ∧ 5 ≤ (99#8).toNat ∧ (99#8).toNat < cfg0.rxCap ∧
    decodeBuf cfg0 5#8 pErase = .ok .erase ∧ bufByte cfg0 pErase 1 ∈ opcodes cfg0 ∧
    bufByte cfg0 [0x05#8, 0x19#8] 1 ∉ opcodes cfg0 := by decide +kernel

theorem test_witness_OperandsStandAtFixedOffsets : cfgWf cfg0 = true ∧ 5 ≤ (9#8).toNat ∧ (9#8).toNat < cfg0.rxCap ∧
    bufByte cfg0 pJumpAddr 1 = cfg0.opcJumpAddr ∧ bufByte cfg0 pRead 1 = cfg0.opcRead ∧ bufByte cfg0 pWrite 1 = cfg0.opcWrite := by
  decide +kernel

theorem test_witness_SingleBitErrorsAreDetected :
    let s := received pVersion [] []
    s.checksumOk = true ∧ 5 ≤ s.dp.n.toNat ∧ s.dp.n.toNat < s.buf.length ∧ ∀ k ∈ [1, 2, 5], 1 ≤ k ∧ k ≤ s.dp.n.toNat := by
  decide +kernel

theorem test_witness_BadChecksumAborts :
    let s := received [0x05#8, 0x10#8, 0xAF#8, 0xF7#8, 0x24#8, 0xAE#8] [good] []
    s.checksumOk = false ∧ nacks .getVersion = false ∧ nacks (.read 0#32 0#8) = true ∧ s.env.sends = .success :: [] := by
  decide +kernel

theorem test_witness_StepRunsTheDecodedCommand :
    let s := received pErase [] []
    s.faulted = false ∧ cfgWf s.cfg = true ∧ s.phase = .payloadReceived ∧ decodeBuf s.cfg s.dp.n s.buf = .ok .erase := by
  decide +kernel

theorem test_witness_PacketFromTheHostRuns :
    let s := hostSends (encode cfg0 .getCid ++ [0x05#8]) healthy
    s.faulted = false ∧ cfgWf s.cfg = true ∧ Instr.wf s.cfg .getCid = true ∧ s.phase = .idle ∧ s.pos = .start ∧ s.env.recvs = [] ∧
    s.host.inp = encode s.cfg .getCid ++ [0x05#8] := by decide +kernel

theorem test_witness_LengthByteReception :
    let s := hostSends [0x05#8, 0x10#8] healthy
    s.faulted = false ∧ cfgWf s.cfg = true ∧ s.phase = .idle ∧ s.host.inp = 0x05#8 :: [0x10#8] ∧ s.env.recvs = [] ∧
    (hostChoosesRecv (.fail 1) s).env.recvs = .fail 1 :: [] := by decide +kernel

/-- The body's reception at its least length, 0, and its greatest, `RX_CAP − 1`. -/
theorem test_witness_BodyReception :
    let s := fun n : Nat => ({ hostSends (List.replicate 99 0x55#8) healthy with
      phase := .lengthReceived, dp := { healthy.dp with n := BitVec.ofNat 8 n } } : State)
    (∀ n ∈ [0, 99], (s n).faulted = false ∧ cfgWf (s n).cfg = true ∧ (s n).phase = .lengthReceived ∧
      (s n).buf.length = (s n).cfg.rxCap ∧ (s n).dp.n.toNat < (s n).cfg.rxCap ∧ (s n).dp.n.toNat ≤ (s n).host.inp.length ∧
      (s n).env.recvs = []) ∧
    (s 99).dp.n.toNat ≠ 0 ∧ (hostChoosesRecv (.fail 3) (s 99)).env.recvs = .fail 3 :: [] := by decide +kernel

/-- An oversize body at its least length, `RX_CAP`, and its greatest, 255. -/
theorem test_witness_OversizeBodyIsDiscarded :
    let s := fun n : Nat => ({ hostSends (List.replicate 255 0x55#8) healthy with
      phase := .lengthReceived, dp := { healthy.dp with n := BitVec.ofNat 8 n } } : State)
    (∀ n ∈ [100, 255], (s n).faulted = false ∧ cfgWf (s n).cfg = true ∧ (s n).phase = .lengthReceived ∧
      (s n).cfg.rxCap - 1 < (s n).dp.n.toNat ∧ (s n).dp.n.toNat ≤ (s n).host.inp.length ∧ (s n).env.recvs = []) ∧
    (hostChoosesRecv (.fail 3) (s 100)).env.recvs = .fail 3 :: [] := by decide +kernel

theorem test_witness_UndersizePacketAborts :
    let s := fun n : Nat => ({ received pErase [] [] with dp := { healthy.dp with n := BitVec.ofNat 8 n } } : State)
    ∀ n ∈ [0, 4], (s n).faulted = false ∧ cfgWf (s n).cfg = true ∧ (s n).phase = .payloadReceived ∧ (s n).dp.n.toNat < 5 := by
  decide +kernel

theorem test_witness_UnrecognizedOpcodeAborts :
    let s := received [0x05#8, 0x19#8, 0x8A#8, 0x70#8, 0x26#8, 0x12#8] [] []
    s.faulted = false ∧ cfgWf s.cfg = true ∧ s.phase = .payloadReceived ∧ 5 ≤ s.dp.n.toNat ∧ s.dp.n.toNat ≤ s.cfg.rxCap - 1 ∧
    bufByte s.cfg s.buf 1 ∉ opcodes s.cfg := by decide +kernel

theorem test_witness_IdleWithoutInputHolds : healthy.faulted = false ∧ cfgWf healthy.cfg = true ∧ healthy.phase = .idle ∧
    healthy.host.inp = [] ∧ healthy.env.recvs = [] := by decide +kernel

theorem test_witness_EndedRunsTakeNoStep :
    let s := { healthy with faulted := true }
    let t := { healthy with phase := .transferred }
    (s.faulted = true ∧ Move s (powerCycle s)) ∧ (t.phase = .transferred ∧ Move t (powerCycle t)) ∧
    t.faulted = false ∧ cfgWf t.cfg = true :=
  ⟨⟨rfl, .powerCycle _⟩, ⟨rfl, .powerCycle _⟩, by decide +kernel⟩

theorem test_witness_CyclesKeepNoProtocolState :
    let t : State := { healthy with buf := [0x17#8], dp := { healthy.dp with addr := 0x20000000#32, i := 7 }, crcReg := 0#32 }
    healthy.phase = .idle ∧ SameOutside healthy t ∧ healthy ≠ t := by decide +kernel

theorem test_witness_FailedSendsChangeNoPath : (received pErase [good] []).cfg.sendFailPolicy = .ignore ∧
    [SendDraw.failure 1].length = (received pErase [good] []).env.sends.length := by decide +kernel

theorem test_witness_FailedSendUnderAbortEndsTheCycle :
    let s := { received pWrite [.failure 1] [] with cfg := { cfg0 with sendFailPolicy := .abort } }
    s.cfg.sendFailPolicy = .abort ∧ s.checksumOk = true ∧
    (classify s.cfg 0x08008000#32 ≠ .invalid ∧ (0x08008000#32).toNat % 4 = 0) ∧ s.env.sends = .failure 1 :: [] := by decide +kernel

/-- The hypotheses the four information commands share. -/
theorem test_witness_GetVersionReplies : (received pVersion [good, good] []).checksumOk = true ∧
    (received pVersion [good, good] []).env.sends = .success :: .success :: [] := by decide +kernel
theorem test_witness_GetHelpReplies : (received pHelp [good, good] []).checksumOk = true ∧
    (received pHelp [good, good] []).env.sends = .success :: .success :: [] := by decide +kernel
theorem test_witness_GetCidReplies : (received pCid [good, good] []).checksumOk = true ∧
    (received pCid [good, good] []).env.sends = .success :: .success :: [] := by decide +kernel
theorem test_witness_GetRdpReplies : (received pRdp [good, good] []).checksumOk = true ∧
    (received pRdp [good, good] []).env.sends = .success :: .success :: [] := by decide +kernel

theorem test_witness_JumpAppTransfers :
    let s := received pJumpApp [good] []
    cfgWf s.cfg = true ∧ s.checksumOk = true ∧ s.fmc.op = .noOp ∧ s.env.sends = .success :: [] := by decide +kernel

theorem test_witness_JumpAddrTransfersOrAborts :
    let s := received pJumpAddr [good] []
    s.checksumOk = true ∧ s.env.sends = .success :: [] ∧ classify s.cfg 0x2001FFFF#32 ≠ .invalid ∧
    classify s.cfg 0x20020000#32 = .invalid := by decide +kernel

theorem test_witness_ClassifyIsTheTwoWindows : cfgWf cfg0 = true := by decide +kernel

theorem test_witness_RamStoreIsImmediate : (0x20000000#32).toNat % 4 = 0 ∧ classify healthy.cfg 0x20000000#32 = .ramValid ∧
    (0x2001FFFC#32).toNat % 4 = 0 ∧ classify healthy.cfg 0x2001FFFC#32 = .ramValid := by decide +kernel

theorem test_witness_UnmappedAccessFaults : classify healthy.cfg 0x08080000#32 = .invalid := by decide +kernel

theorem test_witness_InvalidAddressTouchesNoHardware :
    (classify cfg0 0x20020000#32 = .invalid ∧ ∃ t, exec (.jumpAddr 0x20020000#32) (received pJumpAddr [good] []) = .next t) ∧
    ((0x08008001#32).toNat % 4 ≠ 0 ∧ ∃ t, exec (.read 0x08008001#32 1#8) (received pRead [good] []) = .next t) ∧
    ((0x08008002#32).toNat % 4 ≠ 0 ∧ ∃ t, exec (.write 0x08008002#32 []) (received pWrite [good] []) = .next t) :=
  ⟨⟨by decide +kernel, next_of_after (by decide +kernel)⟩, ⟨by decide +kernel, next_of_after (by decide +kernel)⟩,
    ⟨by decide +kernel, next_of_after (by decide +kernel)⟩⟩

/-- Each clause of the lock state machine; the key values and their neighbours. -/
theorem test_witness_KeyWritesMoveTheLock :
    let s := fun l : LockState => healthy.setFmc { healthy.fmc with lockst := l }
    (s .lockedK1).fmc.lockst = .lockedK1 ∧ 0x45670123#32 = (s .lockedK1).cfg.key1 ∧ 0x45670124#32 ≠ (s .lockedK1).cfg.key1 ∧
    (s .lockedK2).fmc.lockst = .lockedK2 ∧ 0xCDEF89AB#32 = (s .lockedK2).cfg.key2 ∧ 0x45670123#32 ≠ (s .lockedK2).cfg.key2 ∧
    (s .lockedHard).fmc.lockst = .lockedHard ∧ (s .unlocked).fmc.lockst = .unlocked := by decide +kernel

theorem test_witness_CrWriteWhileLocked :
    let s := healthy.setFmc { healthy.fmc with lockst := .lockedK2 }
    s.fmc.op = .noOp ∧ s.fmc.lockst ≠ .unlocked := by decide +kernel

theorem test_witness_CrWriteWhileUnlocked :
    let s := healthy.setFmc { healthy.fmc with lockst := .unlocked }
    let t := healthy.setFmc { healthy.fmc with lockst := .unlocked, op := .erase 2 }
    s.fmc.op = .noOp ∧ s.fmc.lockst = .unlocked ∧ (0x8300037F#32).getLsbD 16 = false ∧ t.fmc.op ≠ .noOp := by decide +kernel

/-- Sector 7, the last, sector 8, the first that does not exist, and a protected one; SER alone, and SER with PG. -/
theorem test_witness_StrtStartsTheErase :
    let s := healthy.setFmc { healthy.fmc with lockst := .unlocked }
    let p := { s with cfg := { cfg0 with wrpProtected := [7] } }
    let erases := fun v : Word => v.getLsbD 1 = true ∧ v.getLsbD 0 = false ∧ v.getLsbD 2 = false
    s.fmc.op = .noOp ∧ s.fmc.lockst = .unlocked ∧ (0x0001023A#32).getLsbD 16 = true ∧ (0x00010242#32).getLsbD 16 = true ∧
    erases 0x0001023A#32 ∧ (0x0001023A#32).toNat / 8 % 16 < s.cfg.numSectors ∧
    (0x0001023A#32).toNat / 8 % 16 ∉ s.cfg.wrpProtected ∧ (0x0001023A#32).toNat / 8 % 16 ∈ p.cfg.wrpProtected ∧
    s.cfg.numSectors ≤ (0x00010242#32).toNat / 8 % 16 ∧ ¬ erases 0x00010213#32 := by decide +kernel

/-- Each row of R228; the first and the last word of sector 2. -/
theorem test_witness_FlashBusWrite :
    let f := { healthy.fmc with lockst := .unlocked, cr := 0x00000201#32 }
    let wide := fun f : Fmc => f.cr.toNat / 256 % 4 = 2
    let barred := fun f : Fmc => f.cr.getLsbD 0 = false ∨ f.lockst ≠ .unlocked ∨ f.cr.getLsbD 1 = true
    cfgWf cfg0 = true ∧ (0x08008000#32).toNat % 4 = 0 ∧ classify cfg0 0x08008000#32 = .flashValid ∧ barred healthy.fmc ∧ barred { f with cr := 0x00000203#32 } ∧ barred { f with lockst := .lockedK2 } ∧
    (¬ barred { f with cr := 0x00000101#32 } ∧ ¬ wide { f with cr := 0x00000101#32 }) ∧
    (¬ barred f ∧ wide f ∧ ({ f with op := .erase 2 } : Fmc).op ≠ .noOp ∧ f.op = .noOp) ∧
    cfg0.sectors[2]? = some ⟨0x08008000#32, 0x4000⟩ ∧ (0x0800BFFC#32).toNat % 4 = 0 ∧ (0x0800BFFC#32).toNat < (0x08008000#32).toNat + 0x4000 ∧
    2 ∉ cfg0.wrpProtected ∧ 2 ∈ ({ cfg0 with wrpProtected := [2] } : Cfg).wrpProtected := by decide +kernel

/-- The bit positions the statement tells apart, and the last one. -/
theorem test_witness_SrWriteClearsWhatIsWrittenOne : ∀ k ∈ [0, 1, 2, 4, 8, 9, 16, 31], k < 32 := by decide

theorem test_witness_CompletedErase :
    let s := healthy.setFmc { healthy.fmc with op := .erase 7 }
    cfgWf s.cfg = true ∧ s.fmc.op = .erase 7 ∧ s.cfg.sectors[7]? = some ⟨0x08060000#32, 0x20000⟩ ∧ DrawOk 0x1#32 ∧ ¬ DrawOk 0x100#32 := by
  decide +kernel

theorem test_witness_CompletedProgram :
    let s := healthy.setFmc { healthy.fmc with op := .program 0x0807FFFC#32 1#32 }
    s.fmc.op = .program 0x0807FFFC#32 1#32 ∧ DrawOk 0#32 ∧ s.cfg.programOverwrite = .and ∧ s.wordAt 0x0807FFFC#32 = 0xFFFFFFFF#32 := by
  decide +kernel

theorem test_witness_WaitIdleCollectsAndClears :
    let s := { healthy.setFmc { healthy.fmc with op := .erase 2 } with env := { healthy.env with completions := [] } }
    healthy.fmc.op = .noOp ∧ s.fmc.op ≠ .noOp ∧ s.env.completions = [] := by decide +kernel

theorem test_witness_UnlockSucceedsOrFails :
    let f := fun l : LockState => (healthy.setFmc { healthy.fmc with lockst := l }).fmc.lockst
    f .lockedK1 = .lockedK1 ∧ f .unlocked = .unlocked ∧ f .lockedHard = .lockedHard := by decide

/-! ### ERASE -/

abbrev appSector0 : Sector := ⟨0x08008000#32, 0x4000⟩

theorem test_witness_EraseClearsTheSector :
    let s := received pErase [good] [0#32]
    cfgWf s.cfg = true ∧ s.checksumOk = true ∧ FmcReady s.fmc ∧ s.cfg.sectors[s.cfg.appSector]? = some appSector0 ∧
    s.cfg.appSector ∉ s.cfg.wrpProtected ∧ s.env.sends = .success :: [] ∧ s.env.completions = 0#32 :: [] ∧ DrawOk 0#32 := by
  decide +kernel

/-- The three clauses: `APP_SECTOR = 8` of eight sectors, LOCKED_HARD, and a protected sector. -/
theorem test_witness_EraseFailsBeforeStarting :
    let s := received pErase [good] []
    let t := { s with cfg := { cfg0 with appSector := 8 } }
    let h := s.setFmc { s.fmc with lockst := .lockedHard }
    let p := { s with cfg := { cfg0 with wrpProtected := [2] } }
    (cfgWf t.cfg = true ∧ t.checksumOk = true ∧ t.env.sends = .success :: [] ∧ t.cfg.numSectors ≤ t.cfg.appSector) ∧
    (cfgWf h.cfg = true ∧ h.checksumOk = true ∧ h.cfg.appSector < h.cfg.numSectors ∧ FmcAtRest h.fmc ∧ h.fmc.lockst = .lockedHard) ∧
    (cfgWf p.cfg = true ∧ p.checksumOk = true ∧ FmcReady p.fmc ∧ p.cfg.appSector ∈ p.cfg.wrpProtected) := by decide +kernel

theorem test_witness_EraseFailsAtCompletion :
    let s := received pErase [good] [0x2#32]
    cfgWf s.cfg = true ∧ s.checksumOk = true ∧ FmcReady s.fmc ∧ s.cfg.sectors[s.cfg.appSector]? = some appSector0 ∧
    s.cfg.appSector ∉ s.cfg.wrpProtected ∧ s.env.sends = .success :: [] ∧ s.env.completions = 0x2#32 :: [] ∧ ¬ DrawOk 0x2#32 := by
  decide +kernel

/-- ERASE, and WRITE held at its first word and at its last. -/
theorem test_witness_HeldHandlersGoOnWhereTheyStopped :
    let s := dispatched (received pErase [good] [])
    let w := dispatched (received pWrite [good] [0#32])
    (cfgWf s.cfg = true ∧ s.faulted = false ∧ s.phase = .dispatched ∧ s.checksumOk = true ∧ FmcReady s.fmc ∧
      s.env.sends = .success :: [] ∧ s.cfg.appSector < s.cfg.numSectors ∧ s.cfg.appSector ∉ s.cfg.wrpProtected ∧
      s.env.completions = []) ∧
    (cfgWf w.cfg = true ∧ w.faulted = false ∧ w.phase = .dispatched ∧ w.checksumOk = true ∧ FmcReady w.fmc ∧
      w.env.sends = .success :: [] ∧ (0x0807FFF8#32).toNat % 4 = 0 ∧ classify w.cfg 0x0807FFF8#32 = .flashValid ∧
      (0x0807FFF8#32).toNat + 4 * (data8.length / 4) ≤ w.cfg.flashEnd.toNat ∧ w.env.completions = [0#32] ∧
      [0#32].length < data8.length / 4 ∧ ([0#32].all fun d => decide (DrawOk d)) = true) ∧
    (∀ i, i < data8.length / 4 → Unprotected w.cfg (wordAddr 0x0807FFF8#32 i)) ∧
    (s.env.completions = [] ∧ ([] : List Word).length < data8.length / 4) :=
  ⟨by decide +kernel, by decide +kernel, fun _ _ _ _ _ _ _ => List.not_mem_nil, by decide +kernel⟩

theorem test_witness_EraseTwiceLeavesTheSectorErased :
    let s := received pErase [good, good] [0#32, 0#32]
    cfgWf s.cfg = true ∧ s.checksumOk = true ∧ FmcReady s.fmc ∧ s.cfg.sectors[s.cfg.appSector]? = some appSector0 ∧
    s.cfg.appSector ∉ s.cfg.wrpProtected ∧ s.env.sends = .success :: .success :: [] ∧ s.env.completions = 0#32 :: 0#32 :: [] ∧
    DrawOk 0#32 := by decide +kernel

/-! ### WRITE -/

theorem test_witness_WriteRefusesABadAddress :
    let s := received pWrite [good] []
    s.checksumOk = true ∧ s.env.sends = .success :: [] ∧ classify s.cfg 0x20020000#32 = .invalid ∧ (0x08008002#32).toNat % 4 ≠ 0 := by
  decide +kernel

/-- The last two words of RAM. -/
theorem test_witness_WriteToRamStoresTheWords :
    let s := received pWrite [good, good] []
    cfgWf s.cfg = true ∧ s.checksumOk = true ∧ FmcReady s.fmc ∧ (0x2001FFF8#32).toNat % 4 = 0 ∧ classify s.cfg 0x2001FFF8#32 = .ramValid ∧
    (0x2001FFF8#32).toNat + 4 * (data8.length / 4) ≤ s.cfg.ramEnd.toNat ∧ s.env.sends = .success :: .success :: [] := by decide +kernel

/-- The last two words of flash. -/
theorem test_witness_WriteToFlashProgramsTheWords :
    let s := received pWrite [good, good] [0#32, 0#32]
    (cfgWf s.cfg = true ∧ s.checksumOk = true ∧ FmcReady s.fmc ∧ (0x0807FFF8#32).toNat % 4 = 0 ∧
      classify s.cfg 0x0807FFF8#32 = .flashValid ∧ (0x0807FFF8#32).toNat + 4 * (data8.length / 4) ≤ s.cfg.flashEnd.toNat) ∧
    (∀ i, i < data8.length / 4 → Unprotected s.cfg (wordAddr 0x0807FFF8#32 i)) ∧
    s.env.sends = .success :: .success :: [] ∧ s.env.completions = [0#32, 0#32] ++ [] ∧
    [0#32, 0#32].length = data8.length / 4 ∧ ([0#32, 0#32].all fun d => decide (DrawOk d)) = true :=
  ⟨by decide +kernel, fun _ _ _ _ _ _ _ => List.not_mem_nil, by decide +kernel⟩

/-- The second of two words fails at its completion; and the second, the first of sector 3, lies in a protected sector. -/
theorem test_witness_WriteStopsAtTheFirstFailure :
    let s := received pWrite [good, good] [0#32, 0x40#32]
    let p := { received pWrite [good, good] [0#32] with cfg := { cfg0 with wrpProtected := [3] } }
    (cfgWf s.cfg = true ∧ s.checksumOk = true ∧ FmcReady s.fmc ∧ (0x0800BFFC#32).toNat % 4 = 0 ∧
      classify s.cfg 0x0800BFFC#32 = .flashValid ∧ (0x0800BFFC#32).toNat + 4 * (data8.length / 4) ≤ s.cfg.flashEnd.toNat ∧
      [0#32].length < data8.length / 4 ∧ s.env.sends = .success :: .success :: []) ∧
    (cfgWf p.cfg = true ∧ p.checksumOk = true ∧ FmcReady p.fmc ∧ classify p.cfg 0x0800BFFC#32 = .flashValid ∧
      (0x0800BFFC#32).toNat + 4 * (data8.length / 4) ≤ p.cfg.flashEnd.toNat ∧ p.env.sends = .success :: .success :: []) ∧
    ([0#32].all fun d => decide (DrawOk d)) = true ∧
    (∀ i, i < [0#32].length → Unprotected s.cfg (wordAddr 0x0800BFFC#32 i)) ∧
    (∀ i, i < [0#32].length → Unprotected p.cfg (wordAddr 0x0800BFFC#32 i)) ∧
    (Unprotected s.cfg (wordAddr 0x0800BFFC#32 1) ∧ s.env.completions = [0#32] ++ 0x40#32 :: [] ∧ ¬ DrawOk 0x40#32) ∧
    (p.cfg.sectors[3]? = some ⟨0x0800C000#32, 0x4000⟩ ∧ (0x0800C000#32).toNat ≤ (0x0800BFFC#32).toNat + 4 * [0#32].length ∧
      (0x0800BFFC#32).toNat + 4 * [0#32].length < (0x0800C000#32).toNat + 0x4000 ∧ 3 ∈ p.cfg.wrpProtected ∧
      p.env.completions = [0#32] ++ []) := by
  refine ⟨by decide +kernel, by decide +kernel, by decide +kernel, fun _ _ _ _ _ _ _ => List.not_mem_nil, fun i hi n x hx h1 h2 hn => ?_,
    ⟨fun _ _ _ _ _ => List.not_mem_nil, by decide +kernel⟩, by decide +kernel⟩
  have hi : i = 0 := by simpa using hi
  have hn : n = 3 := by simpa using hn
  subst hi hn
  have hx : x = ⟨0x0800C000#32, 0x4000⟩ := (Option.some.inj hx).symm
  subst hx
  revert h1
  decide +kernel

theorem test_witness_WriteWithoutUnlockProgramsNothing :
    let s := (received pWrite [good, good] []).setFmc { healthy.fmc with lockst := .lockedHard }
    s.checksumOk = true ∧ s.fmc.op = .noOp ∧ s.fmc.lockst = .lockedHard ∧ (0x08008000#32).toNat % 4 = 0 ∧
    classify s.cfg 0x08008000#32 ≠ .invalid ∧ s.env.sends = .success :: .success :: [] := by decide +kernel

theorem test_witness_WritePastTheEndOfRamFaults :
    let s := received pWrite [good] []
    cfgWf s.cfg = true ∧ s.checksumOk = true ∧ FmcReady s.fmc ∧ (0x2001FFFC#32).toNat % 4 = 0 ∧ classify s.cfg 0x2001FFFC#32 = .ramValid ∧
    s.cfg.ramEnd.toNat < (0x2001FFFC#32).toNat + 4 * (data8.length / 4) ∧ classify s.cfg s.cfg.ramEnd = .invalid ∧
    s.env.sends = .success :: [] := by decide +kernel

/-! ### READ -/

/-- The last word of flash, and a count of 0. -/
theorem test_witness_ReadSendsTheWords :
    let s := received pRead (List.replicate 5 good) []
    s.checksumOk = true ∧ s.fmc.op = .noOp ∧ (0x0807FFFC#32).toNat % 4 = 0 ∧ classify s.cfg 0x0807FFFC#32 ≠ .invalid ∧
    (∀ i, i < (1#8).toNat → classify s.cfg (wordAddr 0x0807FFFC#32 i) ≠ .invalid) ∧
    s.env.sends = List.replicate (1 + 4 * (1#8).toNat) .success ++ [] ∧
    (∀ i, i < (0#8).toNat → classify s.cfg (wordAddr 0x0807FFFC#32 i) ≠ .invalid) := by decide +kernel

theorem test_witness_ReadRefusesABadAddress :
    let s := received pRead [good] []
    s.checksumOk = true ∧ s.env.sends = .success :: [] ∧ classify s.cfg 0x20020000#32 = .invalid ∧ (0x08008001#32).toNat % 4 ≠ 0 := by
  decide +kernel

theorem test_witness_ReadPastTheWindowsFaults :
    let s := received pRead (List.replicate 5 good) []
    s.checksumOk = true ∧ s.fmc.op = .noOp ∧ (0x0807FFFC#32).toNat % 4 = 0 ∧ 1 < (2#8).toNat ∧
    (∀ i, i < 1 → classify s.cfg (wordAddr 0x0807FFFC#32 i) ≠ .invalid) ∧ classify s.cfg (wordAddr 0x0807FFFC#32 1) = .invalid ∧
    s.env.sends = List.replicate (1 + 4 * 1) .success ++ [] := by decide +kernel

/-- A RAM range, an erased flash range, and a later state in which the READ runs. -/
theorem test_witness_WriteThenReadReturnsTheBytes :
    let s := received pWrite [good, good] [0#32, 0#32]
    let u := received pRead (List.replicate 9 good) []
    (cfgWf s.cfg = true ∧ s.checksumOk = true ∧ FmcReady s.fmc ∧ (0x08008000#32).toNat % 4 = 0 ∧ data8.length % 4 = 0 ∧
      data8.length / 4 ≤ 255 ∧ s.env.sends = .success :: .success :: [] ∧ s.env.completions = [0#32, 0#32] ++ []) ∧
    (classify s.cfg 0x2001FFF8#32 = .ramValid ∧ (0x2001FFF8#32).toNat + data8.length ≤ s.cfg.ramEnd.toNat) ∧
    (classify s.cfg 0x08008000#32 = .flashValid ∧ (0x08008000#32).toNat + data8.length ≤ s.cfg.flashEnd.toNat ∧
      [0#32, 0#32].length = data8.length / 4 ∧ ([0#32, 0#32].all fun d => decide (DrawOk d)) = true) ∧
    (∀ i, i < data8.length / 4 → s.wordAt (wordAddr 0x08008000#32 i) = 0xFFFFFFFF#32 ∧
      Unprotected s.cfg (wordAddr 0x08008000#32 i)) ∧
    (u.fmc.op = .noOp ∧ u.checksumOk = true ∧ u.env.sends = List.replicate (1 + data8.length) .success ++ []) := by
  refine ⟨by decide +kernel, by decide +kernel, by decide +kernel, fun i hi => ⟨?_, fun _ _ _ _ _ => List.not_mem_nil⟩, by decide +kernel⟩
  have hi : i < 2 := hi
  interval_cases i <;> decide +kernel

/-! ### Reset and the invariant -/

theorem test_witness_PowerCycleResetsAllButFlash :
    let e := healthy.setFmc { healthy.fmc with op := .erase 2 }
    let p := healthy.setFmc { healthy.fmc with op := .program 0x08008000#32 0#32 }
    cfgWf healthy.cfg = true ∧ inFlash healthy.cfg 0x0807FFFF = true ∧ healthy.fmc.op = .noOp ∧
    (p.fmc.op = .program 0x08008000#32 0#32 ∧ (0x08008000#32).toNat + 4 ≤ 0x08008004) ∧
    (e.fmc.op = .erase 2 ∧ e.cfg.sectors[2]? = some appSector0 ∧ appSector0.base.toNat + appSector0.size ≤ 0x0800C000) := by
  decide +kernel

theorem test_witness_InvariantHoldsAtReset : cfgWf cfg0 = true ∧ Memory.wf cfg0 [(0x08008000, 0x12#8)] := by decide +kernel

/-- An application sector's erase in flight, as a handler holds it. -/
def held : State :=
  { dispatched (received pErase [] []) with
    pos := .eraseDone, fmc := { lockst := .unlocked, op := .erase 2, sr := 0#32, cr := 0x00000212#32 } }

/-- The invariant holds at reset under `CFG0`, and in a held handler. -/
theorem test_inv_reset : Inv healthy :=
  ⟨by decide +kernel, rfl, by decide +kernel, by decide +kernel, by decide +kernel, (by decide +kernel : FmcAtRest healthy.fmc),
    fun _ => rfl, (nomatch ·), fun _ => rfl⟩

theorem test_inv_held : Inv held :=
  ⟨by decide +kernel, rfl, by decide +kernel, by decide +kernel, by decide +kernel,
    (by decide +kernel : EraseAwaited held.cfg held.fmc), fun h => absurd rfl h, (nomatch ·), fun _ => rfl⟩

theorem test_witness_EveryStepKeepsTheInvariant : (Inv healthy ∧ ∃ t, step healthy = .next t) ∧ (Inv held ∧ ∃ t, step held = .next t) :=
  ⟨⟨test_inv_reset, next_of_after (by decide +kernel)⟩, ⟨test_inv_held, next_of_after (by decide +kernel)⟩⟩

theorem test_witness_EveryMoveKeepsTheInvariant : (Inv healthy ∧ Move healthy (hostSends pErase healthy)) ∧
    (Inv held ∧ Move held (fmcComplete 0#32 held)) :=
  ⟨⟨test_inv_reset, .hostSends (by decide) _⟩, ⟨test_inv_held, .fmcCompletes (by decide +kernel) (by decide +kernel) _⟩⟩

theorem test_witness_OnlyReadAndWriteCanFault : Inv healthy ∧ Inv held := ⟨test_inv_reset, test_inv_held⟩

end Sys2Proof.Tests
end

section
/-! PROOFS. Memory (spec 20_memory.md): the two windows of the Address Validator (R71), a store in RAM (R75), and an access outside both
windows (R77). -/

namespace Sys2Proof.Machine

/-! ### The Address Validator as equivalences (R71) -/

section Windows

variable {cfg : Cfg} {a : Word}

theorem classify_eq_ramValid_iff :
    classify cfg a = .ramValid ↔ cfg.ramBase.toNat ≤ a.toNat ∧ a.toNat < cfg.ramEnd.toNat :=
  ⟨ram_of_classify, fun h => classify_ram h.1 h.2⟩

/-- RAM is looked up first, so this half needs that the windows do not overlap (R9 (2)). -/
theorem classify_eq_flashValid_iff (hw : cfgWf cfg = true) :
    classify cfg a = .flashValid ↔ cfg.flashBase.toNat ≤ a.toNat ∧ a.toNat < cfg.flashEnd.toNat :=
  ⟨flash_of_classify, fun h => classify_flash hw h.1 h.2⟩

theorem classify_eq_invalid_iff : classify cfg a = .invalid ↔ classify cfg a ≠ .ramValid ∧ classify cfg a ≠ .flashValid := by
  cases classify cfg a <;> decide

end Windows

/-! ### Bus accesses by region (R75, R77) -/

section Accesses

variable {s : State} {a : Word}

theorem memWrite_ram (v : Word) (h : classify s.cfg a = .ramValid) : memWrite a v s = .go () (s.setWordAt a v) := by
  simp only [memWrite, h]

theorem memWrite_invalid (v : Word) (h : classify s.cfg a = .invalid) : memWrite a v s = .fault (s.raise .unmappedAccess) := by
  simp only [memWrite, h]

theorem memRead_invalid (pos : Pos) (h : classify s.cfg a = .invalid) : memRead pos a s = .fault (s.raise .unmappedAccess) := by
  simp only [memRead, h]

/-- A byte outside the four of the stored word is not changed (R75). -/
theorem State.byteAt_setWordAt_of_outside (v : Word) {x : Nat} (h : x < a.toNat ∨ a.toNat + 4 ≤ x) :
    (s.setWordAt a v).byteAt x = s.byteAt x := by
  rw [State.byteAt_setWordAt, if_neg (by omega)]

end Accesses

/-! ### The obligations -/

/-- Settles O27: the validator tests the RAM window, then the flash window, and a well-formed configuration keeps them apart. -/
theorem classifyIsTheTwoWindows : Obligations.ClassifyIsTheTwoWindows := by
  intro cfg a hw
  refine ⟨classify_eq_ramValid_iff, classify_eq_flashValid_iff hw, ?_⟩
  rw [← classify_eq_ramValid_iff, ← classify_eq_flashValid_iff hw]
  exact classify_eq_invalid_iff

/-- Settles O28: the store is `setWordAt`, whose reads the laws of memory give; the alignment is not needed. -/
theorem ramStoreIsImmediate : Obligations.RamStoreIsImmediate := by
  intro s a v _ hram
  exact ⟨s.setWordAt a v, memWrite_ram v hram, rfl, State.wordAt_setWordAt_self s a v,
    fun _ hx => State.byteAt_setWordAt_of_outside v hx⟩

/-- Settles O29: both accesses classify the address before anything else. -/
theorem unmappedAccessFaults : Obligations.UnmappedAccessFaults :=
  fun _ pos _ v h => ⟨memRead_invalid pos h, memWrite_invalid v h⟩

end Sys2Proof.Machine
end

section
/-! PROOFS. Decoding (spec 30_encoding.md): the opcode byte alone selects the command (R114). -/

namespace Sys2Proof.Machine

section Opcodes

variable {cfg : Cfg} {n op : Byte} {buf : List Byte}

/-- The map's first row with the byte answers, and with a command of that opcode (R114), also where two opcodes are equal: `cfgWf` is
not asked, which `decodeOpcode_hit` needs. -/
theorem decodeOpcode_of_mem (hmem : op ∈ opcodes cfg) :
    ∃ i, decodeOpcode cfg n buf op = .ok i ∧ opcodeOf cfg i = op := by
  unfold decodeOpcode
  split_ifs
  case neg => exact absurd hmem (by simp [opcodes, *])
  all_goals exact ⟨_, rfl, Eq.symm ‹_›⟩

theorem opcodeOf_of_decodeOpcode {i : Instr} (h : decodeOpcode cfg n buf op = .ok i) : opcodeOf cfg i = op := by
  by_cases hmem : op ∈ opcodes cfg
  · obtain ⟨k, hk, hop⟩ := decodeOpcode_of_mem (n := n) (buf := buf) hmem
    obtain rfl : k = i := Except.ok.inj (hk.symm.trans h)
    exact hop
  · cases (decodeOpcode_unrecognized hmem).symm.trans h

end Opcodes

/-- Settles O4: a legal length passes both length checks, and what is left reads the opcode byte alone. -/
theorem opcodeByteAloneSelects : Obligations.OpcodeByteAloneSelects := by
  intro cfg n buf hlow hcap
  rw [decodeBuf_legal hlow hcap]
  exact ⟨fun _ => opcodeOf_of_decodeOpcode, fun hmem => (decodeOpcode_of_mem hmem).imp fun _ h => h.1, decodeOpcode_unrecognized⟩

end Sys2Proof.Machine
end

section
/-! PROOFS. Reception (spec 41_framer_dispatch.md R150 to R157): what each reception comes to under any list of the host's choices, and the
packet of an unmapped opcode. -/

namespace Sys2Proof.Machine

/-! ### `Recv` by its three conditions (R13) -/

section Recv

variable {s : State} {n : Nat}

/-- The host has chosen no failure for the coming `Recv` (R13). -/
abbrev State.RecvUnfailed (s : State) : Prop := ∀ k r, s.env.recvs ≠ .fail k :: r

/-- The state of a `Recv(n)` that delivers: its bytes are taken, and the host's choice with them; `Recv(0)` takes none. -/
def State.afterRecv (s : State) (n : Nat) : State :=
  { s with
    host := { s.host with inp := s.host.inp.drop n }
    env := { s.env with recvs := if n = 0 then s.env.recvs else s.env.recvs.tail } }

/-- The state of a `Recv(n)` that the host makes fail, `k` bytes consumed at most and the choices `r` left. -/
def State.afterFailedRecv (s : State) (n k : Nat) (r : List RecvDraw) : State :=
  { s with host := { s.host with inp := s.host.inp.drop (min k n) }, env := { s.env with recvs := r } }

/-- The three conditions a `Recv` can meet. -/
theorem recv_conditions (s : State) (n : Nat) :
    (n ≠ 0 ∧ ∃ k r, s.env.recvs = .fail k :: r) ∨
    ((n ≠ 0 → s.RecvUnfailed) ∧ n ≤ s.host.inp.length) ∨
    (s.RecvUnfailed ∧ s.host.inp.length < n) := by
  by_cases h0 : n = 0
  · exact .inr (.inl ⟨fun h => absurd h0 h, by omega⟩)
  · rcases recv_cases h0 s with ⟨k, r, hr, -⟩ | ⟨hr, hl, -⟩ | ⟨hr, hl, -⟩
    · exact .inl ⟨h0, k, r, hr⟩
    · exact .inr (.inl ⟨fun _ => hr, hl⟩)
    · exact .inr (.inr ⟨hr, hl⟩)

theorem recv_fail {k : Nat} {r : List RecvDraw} (h0 : n ≠ 0) (hr : s.env.recvs = .fail k :: r) :
    recv n s = .failed (s.afterFailedRecv n k r) := by
  rcases recv_cases h0 s with ⟨k', r', hr', h⟩ | ⟨hu, -⟩ | ⟨hu, -⟩
  · obtain ⟨⟨rfl⟩, rfl⟩ := List.cons.inj (hr.symm.trans hr')
    exact h
  · exact absurd hr (hu k r)
  · exact absurd hr (hu k r)

theorem recv_deliver (hu : n ≠ 0 → s.RecvUnfailed) (hl : n ≤ s.host.inp.length) :
    recv n s = .bytes (s.host.inp.take n) (s.afterRecv n) := by
  by_cases h0 : n = 0
  · subst h0; rfl
  · rcases recv_cases h0 s with ⟨k, r, hr, -⟩ | ⟨-, -, h⟩ | ⟨-, hl', -⟩
    · exact absurd hr (hu h0 k r)
    · rw [h, State.afterRecv, if_neg h0]; rfl
    · omega

theorem recv_wait (hu : s.RecvUnfailed) (hl : s.host.inp.length < n) : recv n s = .waiting := by
  rcases recv_cases (by omega : n ≠ 0) s with ⟨k, r, hr, -⟩ | ⟨-, hl', -⟩ | ⟨-, -, h⟩
  · exact absurd hr (hu k r)
  · omega
  · exact h

end Recv

/-! ### The length byte (R150, R151) -/

section Length

variable {s : State}

theorem receiveLength_deliver {n : Byte} {rest : List Byte} (hi : s.host.inp = n :: rest) (hu : s.RecvUnfailed) :
    receiveLength s = { s with
      phase := .lengthReceived, buf := n :: List.replicate (s.cfg.rxCap - 1) s.cfg.rxSentinel,
      dp := { s.dp with n := n }, host := { s.host with inp := rest }, env := { s.env with recvs := s.env.recvs.tail } } := by
  have h : recv 1 (clearBuf s) = .bytes [n] ((clearBuf s).afterRecv 1) := by
    rw [recv_deliver (s := clearBuf s) (fun _ => hu) (by simp [hi])]
    simp [hi]
  unfold receiveLength
  simp only [h]
  simp [State.afterRecv, State.setBuf, State.setLength, State.setPhase, clearBuf, hi]

theorem receiveLength_fail {k : Nat} {r : List RecvDraw} (hr : s.env.recvs = .fail k :: r) :
    receiveLength s = ((clearBuf s).afterFailedRecv 1 k r).abort .transportFailure := by
  unfold receiveLength
  simp only [recv_fail (s := clearBuf s) Nat.one_ne_zero hr]

theorem receiveLength_wait (hi : s.host.inp = []) (hu : s.RecvUnfailed) : receiveLength s = clearBuf s := by
  unfold receiveLength
  simp only [recv_wait (s := clearBuf s) (n := 1) hu (by simp [hi])]

end Length

/-! ### The body (R152, R154) -/

section Body

variable {s : State}

theorem receiveBody_fail {k : Nat} {r : List RecvDraw} (h0 : s.dp.n.toNat ≠ 0) (hr : s.env.recvs = .fail k :: r) :
    receiveBody s = (s.afterFailedRecv s.dp.n.toNat k r).abort .transportFailure := by
  unfold receiveBody
  simp only [recv_fail h0 hr]

theorem receiveBody_wait (hu : s.RecvUnfailed) (hl : s.host.inp.length < s.dp.n.toNat) : receiveBody s = s := by
  unfold receiveBody
  simp only [recv_wait hu hl]

section Delivered

variable (hu : s.dp.n.toNat ≠ 0 → s.RecvUnfailed) (hl : s.dp.n.toNat ≤ s.host.inp.length)

include hu hl

theorem receiveBody_deliver :
    receiveBody s =
      if s.cfg.rxCap ≤ s.dp.n.toNat then (s.afterRecv s.dp.n.toNat).abort .protocolViolation
      else ((s.afterRecv s.dp.n.toNat).setBuf (storeBody s.buf (s.host.inp.take s.dp.n.toNat))).setPhase .payloadReceived := by
  unfold receiveBody
  simp only [recv_deliver hu hl]
  rfl

theorem receiveBody_store (hn : s.dp.n.toNat < s.cfg.rxCap) :
    receiveBody s =
      ((s.afterRecv s.dp.n.toNat).setBuf (storeBody s.buf (s.host.inp.take s.dp.n.toNat))).setPhase .payloadReceived := by
  rw [receiveBody_deliver hu hl, if_neg (Nat.not_le.mpr hn)]

theorem receiveBody_oversize (hn : s.cfg.rxCap ≤ s.dp.n.toNat) :
    receiveBody s = (s.afterRecv s.dp.n.toNat).abort .protocolViolation := by
  rw [receiveBody_deliver hu hl, if_pos hn]

end Delivered

end Body

/-! ### Where the body stands (R154) -/

section Store

variable {buf bs : List Byte}

theorem storeBody_length (h : bs.length < buf.length) : (storeBody buf bs).length = buf.length := by
  simp only [storeBody, List.length_append, List.length_take, List.length_drop]
  omega

theorem storeBody_getElem?_inside (h : buf ≠ []) {k : Nat} (h1 : 1 ≤ k) (hk : k ≤ bs.length) :
    (storeBody buf bs)[k]? = bs[k - 1]? := by
  have hpos : 0 < buf.length := List.length_pos_iff.mpr h
  have ht : (buf.take 1).length = 1 := by rw [List.length_take]; omega
  rw [storeBody, List.getElem?_append_left (by rw [List.length_append]; omega), List.getElem?_append_right (by omega), ht]

theorem storeBody_getElem?_outside (h : buf ≠ []) {k : Nat} (hk : k = 0 ∨ bs.length < k) :
    (storeBody buf bs)[k]? = buf[k]? := by
  have hpos : 0 < buf.length := List.length_pos_iff.mpr h
  have ht : (buf.take 1).length = 1 := by rw [List.length_take]; omega
  rcases hk with rfl | hk
  · rw [storeBody, List.append_assoc, List.getElem?_append_left (by omega), List.getElem?_take_of_lt Nat.one_pos]
  · rw [storeBody, List.getElem?_append_right (by rw [List.length_append]; omega), List.getElem?_drop, List.length_append, ht,
      Nat.add_sub_cancel' (by omega)]

end Store

/-! ### The obligations -/

/-- Settles O11: the step of an IDLE state is `receiveLength`, which delivers or fails as the first listed choice says. -/
theorem lengthByteReception : Obligations.LengthByteReception := by
  intro s hf hc hp
  rw [step_idle hf hc hp]
  exact ⟨fun n rest hi hu => congrArg _ (receiveLength_deliver hi hu), fun k r hr => congrArg _ (receiveLength_fail hr)⟩

/-- Settles O12: the step of a LENGTH_RECEIVED state is `receiveBody`; a delivered body is stored by `storeBody`, whose offsets the
lemmas above give. -/
theorem bodyReception : Obligations.BodyReception := by
  intro s hf hc hp hbuf hn
  rw [step_lengthReceived hf hc hp]
  refine ⟨fun hl hu => ⟨_, rfl, ?_⟩, fun k r h0 hr => congrArg _ (receiveBody_fail h0 hr)⟩
  have hlen : (s.host.inp.take s.dp.n.toNat).length = s.dp.n.toNat := List.length_take_of_le hl
  have hne : s.buf ≠ [] := List.ne_nil_of_length_pos (by omega)
  rw [receiveBody_store (fun _ => hu) hl hn]
  refine ⟨rfl, (storeBody_length (by omega)).trans hbuf, fun k h1 hk => ?_, fun k hk => ?_⟩
  · exact (storeBody_getElem?_inside hne h1 (by omega)).trans (List.getElem?_take_of_lt (by omega))
  · exact storeBody_getElem?_outside hne (by omega)

/-- Settles O13: an oversize length is at least `RX_CAP`, so not 0, and the `Recv` takes a choice of the host's. -/
theorem oversizeBodyIsDiscarded : Obligations.OversizeBodyIsDiscarded := by
  intro s hf hc hp hn
  have h0 : s.dp.n.toNat ≠ 0 := by omega
  rw [step_lengthReceived hf hc hp]
  refine ⟨fun hl hu => ?_, fun k r hr => congrArg _ (receiveBody_fail h0 hr)⟩
  rw [receiveBody_oversize (fun _ => hu) hl (by omega), State.afterRecv, if_neg h0]
  rfl

/-- Settles O15: a legal length leaves the opcode byte to `decodeOpcode`, which finds it in no row of the map. -/
theorem unrecognizedOpcodeAborts : Obligations.UnrecognizedOpcodeAborts := by
  intro s hf hc hp hlow hcap hop
  have hn : s.dp.n.toNat < s.cfg.rxCap := by have := cfgWf_cap hc; omega
  have hd := (decodeBuf_legal hlow hn).trans (decodeOpcode_unrecognized hop)
  rw [step_payloadReceived hf hc hp, dispatchPacket, hd]
  rfl

end Sys2Proof.Machine
end

section
/-! PROOFS. No protocol state across cycles (spec 41_framer_dispatch.md R163). Two machines that agree outside `buf`, `dp` and `crc_reg` need to
agree there only on what a later step reads, which the phase and the position say: nothing in IDLE, the packet until it is dispatched, and
then the few registers the position of a held handler goes on with. `Alike` says so; every step keeps it. -/

namespace Sys2Proof.Machine

open Sys2Proof.Safety

/-! ### What a later step reads -/

/-- The registers the loops of `ProgramRange` and `ReadRange` go on with (R266, R267). -/
def cursor (d : Datapath) : Word × Nat := (d.addr, d.i)

/-- The received packet is the same in both: the buffer and its length. -/
def PacketAlike (s t : State) : Prop := t.buf = s.buf ∧ t.dp.n = s.dp.n

/-- What a handler at a position reads of `buf` and `dp` before it writes them is the same in both. -/
def HeldAlike (s t : State) : Pos → Prop
  | .start         => PacketAlike s t
  | .eraseIdle     => True
  | .eraseDone     => True
  | .programIdle _ => cursor t.dp = cursor s.dp
  | .programDone _ => cursor t.dp = cursor s.dp
  | .readWord _    => cursor t.dp = cursor s.dp
  | .jumpMsp       => True
  | .jumpEntry     => t.dp.msp = s.dp.msp

/-- What the steps from a phase on read of `buf` and `dp` before they write them is the same in both. -/
def ReadsAlike (s t : State) : Phase → Prop
  | .idle            => True
  | .lengthReceived  => PacketAlike s t
  | .payloadReceived => PacketAlike s t
  | .dispatched      => HeldAlike s t s.pos
  | .responded       => True
  | .transferred     => True

/-- Two states from which the steps go on alike. -/
structure Alike (s t : State) : Prop where
  outside : SameOutside s t
  reads   : ReadsAlike s t s.phase

/-- Two states inside one handler that agree on the registers `f` looks at. -/
structure Within {β : Type} (f : Datapath → β) (s t : State) : Prop where
  outside : SameOutside s t
  phase   : s.phase = .dispatched
  regs    : f t.dp = f s.dp

/-- The registers `f` looks at are all that a handler held at the position reads. -/
def Serves {β : Type} (f : Datapath → β) (p : Pos) : Prop := ∀ s t : State, f t.dp = f s.dp → HeldAlike s t p

/-- No register at all. -/
abbrev noRegs (_ : Datapath) : Unit := ()

variable {s t : State}

theorem refill_of_sameOutside (h : SameOutside s t) : ∃ b d c, t = s.refill b d c := by
  have e := congrArg (State.refill t.buf t.dp t.crcReg) h
  exact ⟨t.buf, t.dp, t.crcReg, e⟩

/-! ### Ends of a cycle: nothing is read any more -/

theorem abort_alike (h : SameOutside s t) (c : Cause) : Alike (s.abort c) (t.abort c) := by
  obtain ⟨b, d, r, rfl⟩ := refill_of_sameOutside h
  exact ⟨rfl, trivial⟩

theorem finish_alike (h : SameOutside s t) : Alike s.finish t.finish := by
  obtain ⟨b, d, r, rfl⟩ := refill_of_sameOutside h
  exact ⟨rfl, trivial⟩

theorem transfer_alike (h : SameOutside s t) (msp : Option Word) (w : Word) : Alike (transfer msp w s) (transfer msp w t) := by
  obtain ⟨b, d, r, rfl⟩ := refill_of_sameOutside h
  exact ⟨rfl, trivial⟩

theorem deinitialise_sameOutside (h : SameOutside s t) : SameOutside (deinitialise s) (deinitialise t) := by
  obtain ⟨b, d, r, rfl⟩ := refill_of_sameOutside h
  exact rfl

theorem debugNote_sameOutside (h : SameOutside s t) : SameOutside (debugNote s) (debugNote t) := by
  obtain ⟨b, d, r, rfl⟩ := refill_of_sameOutside h
  exact rfl

/-! ### Inside a handler -/

section Handler

variable {α β γ : Type} {f : Datapath → β}

theorem Within.cfg (h : Within f s t) : t.cfg = s.cfg := by
  obtain ⟨b, d, r, rfl⟩ := refill_of_sameOutside h.outside
  exact rfl

/-- A register write: `f'` looks at what was written and at what agreed before. -/
theorem Within.setDp {f' : Datapath → γ} (h : Within f s t) (g : Datapath → Datapath)
    (hg : ∀ d e, f e = f d → f' (g e) = f' (g d)) : Within f' { s with dp := g s.dp } { t with dp := g t.dp } := by
  obtain ⟨b, d, r, rfl⟩ := refill_of_sameOutside h.outside
  exact ⟨rfl, h.phase, hg _ _ h.regs⟩

theorem Within.setIndex (h : Within Datapath.addr s t) (i : Nat) : Within cursor (s.setIndex i) (t.setIndex i) :=
  h.setDp (fun d => { d with i := i }) fun _ _ e => congrArg (·, i) e

theorem Within.setDataWord (h : Within cursor s t) (w : Word) : Within cursor (s.setDataWord w) (t.setDataWord w) :=
  h.setDp (fun d => { d with w := w }) fun _ _ e => e

theorem Within.setAddr (h : Within f s t) (a : Word) : Within Datapath.addr (s.setAddr a) (t.setAddr a) :=
  h.setDp (fun d => { d with addr := a }) fun _ _ _ => rfl

theorem Within.addr (h : Within cursor s t) : Within Datapath.addr s t := ⟨h.outside, h.phase, congrArg Prod.fst h.regs⟩

theorem Within.index (h : Within cursor s t) : t.dp.i = s.dp.i := congrArg Prod.snd h.regs

/-- What the FMC does commutes with a change of `buf`, `dp` and `crc_reg`; where it holds, `f` must serve the position. -/
theorem Within.fmc {x : State → Flow α} (h : Within f s t) (hx : ∀ φ, Inert φ → x (φ s) = (x s).map φ)
    (hf : (x s).Framed (Serves f) s) : Flow.Agrees (Within f) Alike (x s) (x t) := by
  obtain ⟨b, d, r, rfl⟩ := refill_of_sameOutside h.outside
  have hregs : ∀ u, FmcFrame s u → f (u.refill b d r).dp = f u.dp := fun u fr => by rw [fr.dp]; exact h.regs
  refine Flow.Agrees.of_map (hx _ (inert_refill b d r)) hf (fun u fr => ⟨rfl, fr.phase.trans h.phase, hregs u fr⟩)
    fun u fr hp => ⟨rfl, ?_⟩
  rw [fr.phase.trans h.phase]
  exact hp u _ (hregs u fr)

/-- A `Send` looks at the configuration and the host's choices alone (R14). -/
theorem Within.send (h : Within f s t) (bs : List Byte) : Flow.Agrees (Within f) Alike (send bs s) (send bs t) := by
  obtain ⟨b, d, r, rfl⟩ := refill_of_sameOutside h.outside
  have hd : (s.refill b d r).sendDrawn = s.sendDrawn.refill b d r := by
    cases hs : s.env.sends <;> simp [State.sendDrawn, State.refill, hs]
  have hgo : Within f (s.sendDrawn.recordSend s.sendChoice bs) ((s.sendDrawn.refill b d r).recordSend s.sendChoice bs) :=
    ⟨rfl, by simpa using h.phase, by simpa [State.refill] using h.regs⟩
  unfold Machine.send
  rw [hd, show (s.refill b d r).cfg = s.cfg from rfl, show (s.refill b d r).sendChoice = s.sendChoice from rfl]
  cases s.cfg.sendFailPolicy with
  | ignore => exact ⟨rfl, hgo⟩
  | abort =>
    cases hc : s.sendChoice with
    | success => exact ⟨rfl, hc ▸ hgo⟩
    | failure k => exact abort_alike (hc ▸ hgo).outside _

theorem Within.sendEach (bs : List Byte) : ∀ {s t : State}, Within f s t →
    Flow.Agrees (Within f) Alike (sendEach bs s) (sendEach bs t) := by
  induction bs with
  | nil => exact fun h => ⟨rfl, h⟩
  | cons b bs ih => exact fun h => (h.send [b]).bind fun _ _ _ h => ih h

/-- The checksum prologue reads the packet, and writes `crc_reg` without reading it (R133, R158). -/
theorem checksumPrologue_alike (nack : Bool) (h : Within Datapath.n s t) (hb : t.buf = s.buf) :
    Flow.Agrees (Within noRegs) Alike (checksumPrologue nack s) (checksumPrologue nack t) := by
  have hk : t.checksumOk = s.checksumOk := by
    unfold State.checksumOk
    rw [hb, h.cfg, show t.dp.n = s.dp.n from h.regs]
  have hran : Within noRegs s.ranChecksum t.ranChecksum := by
    obtain ⟨b, d, r, rfl⟩ := refill_of_sameOutside h.outside
    exact ⟨rfl, h.phase, rfl⟩
  cases ho : s.checksumOk with
  | true =>
    rw [checksumPrologue_ok ho, checksumPrologue_ok (hk.trans ho)]
    exact ⟨rfl, hran⟩
  | false =>
    cases nack with
    | false =>
      rw [checksumPrologue_silent ho, checksumPrologue_silent (hk.trans ho)]
      exact abort_alike hran.outside _
    | true =>
      rw [checksumPrologue_nack ho, checksumPrologue_nack (hk.trans ho)]
      exact (hran.send _).bind fun _ _ _ h => abort_alike h.outside _

/-! ### Erase, program and read -/

theorem eraseFromIdle_framed {P : Pos → Prop} (s : State) (h1 : P .eraseIdle) (h2 : P .eraseDone) : (eraseFromIdle s).Framed P s := by
  unfold eraseFromIdle
  refine Flow.Framed.bind (waitIdle_framed s h1) fun _ t => Flow.Framed.bind (unlock_framed t) fun st u => ?_
  split
  · exact Flow.Framed.bind (eraseStart_framed u) fun _ v => eraseFinish_framed v h2
  · exact Flow.Framed.bind (lock_framed u) fun _ v => FmcFrame.refl v

theorem serves_eraseIdle : Serves f .eraseIdle := fun _ _ _ => trivial
theorem serves_eraseDone : Serves f .eraseDone := fun _ _ _ => trivial
theorem serves_programIdle (ws : List Word) : Serves cursor (.programIdle ws) := fun _ _ h => h
theorem serves_programDone (ws : List Word) : Serves cursor (.programDone ws) := fun _ _ h => h
theorem serves_readWord (left : Nat) : Serves cursor (.readWord left) := fun _ _ h => h
theorem serves_jumpMsp : Serves f .jumpMsp := fun _ _ _ => trivial
theorem serves_jumpEntry : Serves Datapath.msp .jumpEntry := fun _ _ h => h

theorem programStart_alike (h : Within Datapath.addr s t) (w : Word) (ws : List Word) (i : Nat) :
    Flow.Agrees (Within cursor) Alike (programStart w ws i s) (programStart w ws i t) := by
  refine Flow.Agrees.bind (((h.setIndex i).setDataWord w).fmc (fun _ hi => hi.waitIdle _ _)
    (waitIdle_framed _ (serves_programIdle (w :: ws)))) fun _ u v h => ?_
  refine (h.fmc (fun _ hi => hi.modifyCr _ programFields) (modifyCr_framed _ _)).bind fun _ u v h => ?_
  rw [show v.dp.addr = u.dp.addr from h.addr.regs]
  exact h.fmc (fun _ hi => hi.memWrite _ _ w) (memWrite_framed _ _ _)

theorem programFinish_alike (h : Within cursor s t) (ws : List Word) :
    Flow.Agrees (Within cursor) Alike (programFinish ws s) (programFinish ws t) :=
  h.fmc (fun _ hi => hi.programFinish _ ws) (programFinish_framed _ (serves_programDone ws))

theorem lockAfter_alike (h : Within f s t) (st : Status) : Flow.Agrees (Within f) Alike (lockAfter st s) (lockAfter st t) :=
  h.fmc (fun _ hi => hi.lockAfter _ st) (lockAfter_framed _ st)

theorem programLoop_alike : ∀ (ws : List Word) (i : Nat) {s t : State}, Within Datapath.addr s t →
    Flow.Agrees (Within Datapath.addr) Alike (programLoop ws i s) (programLoop ws i t)
  | [], _, _, _, h => ⟨rfl, h⟩
  | w :: ws, i, _, _, h => by
    refine (programStart_alike h w ws i).bind fun _ _ _ h => (programFinish_alike h ws).bind fun st u v h => ?_
    split
    · exact programLoop_alike ws (i + 1) h.addr
    · exact ⟨rfl, h.addr⟩

theorem programRange_alike (h : Within Datapath.addr s t) (ws : List Word) :
    Flow.Agrees (Within Datapath.addr) Alike (programRange ws s) (programRange ws t) := by
  refine (h.fmc (fun _ hi => hi.unlock _) (unlock_framed _)).bind fun st u v h => ?_
  split
  · exact (programLoop_alike ws 0 h).bind fun st _ _ h => lockAfter_alike h st
  · exact lockAfter_alike h st

theorem programResume_alike (h : Within cursor s t) (ws : List Word) :
    Flow.Agrees (Within Datapath.addr) Alike (programResume ws s) (programResume ws t) := by
  unfold programResume
  rw [h.index]
  refine Flow.Agrees.bind ((programFinish_alike h ws).bind fun st u v h => ?_) fun st _ _ h => lockAfter_alike h st
  split
  · exact programLoop_alike ws (s.dp.i + 1) h.addr
  · exact ⟨rfl, h.addr⟩

theorem readLoop_alike : ∀ (left i : Nat) {s t : State}, Within Datapath.addr s t →
    Flow.Agrees (Within Datapath.addr) Alike (readLoop left i s) (readLoop left i t)
  | 0, _, _, _, h => ⟨rfl, h⟩
  | left + 1, i, s, t, h => by
    unfold readLoop
    rw [show t.dp.addr = s.dp.addr from h.regs]
    refine ((h.setIndex i).fmc (fun _ hi => hi.memRead _ _ _) (memRead_framed _ (serves_readWord _) _)).bind fun w _ _ h => ?_
    exact ((h.setDataWord w).sendEach _).bind fun _ _ _ h => readLoop_alike left (i + 1) h.addr

/-! ### Tails of handlers -/

theorem Within.setStatus (h : Within f s t) (st : Status) : Within noRegs (s.setStatus st) (t.setStatus st) :=
  h.setDp (fun d => { d with st := st }) fun _ _ _ => rfl

theorem eraseTail_alike (h : Within f s t) (st : Status) : Flow.Agrees Alike Alike (eraseTail st s) (eraseTail st t) := by
  have h' := (h.setStatus st).outside
  unfold eraseTail
  split
  · exact ⟨rfl, finish_alike h'⟩
  · exact ⟨rfl, abort_alike h' _⟩

theorem writeTail_alike (h : Within f s t) (st : Status) : Flow.Agrees Alike Alike (writeTail st s) (writeTail st t) := by
  unfold writeTail
  split
  · exact ((h.setStatus st).send _).bind fun _ _ _ h => ⟨rfl, finish_alike h.outside⟩
  · exact ((h.setStatus st).send _).bind fun _ _ _ h => ⟨rfl, abort_alike h.outside _⟩

theorem jumpAppEntry_alike (h : Within Datapath.msp s t) : Flow.Agrees Alike Alike (jumpAppEntry s) (jumpAppEntry t) := by
  unfold jumpAppEntry
  rw [h.cfg]
  refine (h.fmc (fun _ hi => hi.memRead _ _ _) (memRead_framed _ serves_jumpEntry _)).bind fun w u v h => ⟨rfl, ?_⟩
  have h' : Within Datapath.msp (u.setDataWord w) (v.setDataWord w) := h.setDp (fun d => { d with w := w }) fun _ _ e => e
  rw [show v.dp.msp = u.dp.msp from h.regs]
  exact transfer_alike (deinitialise_sameOutside h'.outside) _ w

theorem jumpAppMsp_alike (h : Within noRegs s t) : Flow.Agrees Alike Alike (jumpAppMsp s) (jumpAppMsp t) := by
  unfold jumpAppMsp
  rw [h.cfg]
  exact (h.fmc (fun _ hi => hi.memRead _ _ _) (memRead_framed _ serves_jumpMsp _)).bind fun w _ _ h =>
    jumpAppEntry_alike (h.setDp (fun d => { d with msp := w }) fun _ _ _ => rfl)

end Handler

/-! ### Commands -/

theorem outcome_alike {x y : Flow Unit} (h : Flow.Agrees Alike Alike x y) : OutcomesAgree Alike x.outcome y.outcome := by
  cases x <;> cases y <;> first | exact h.elim | skip
  · exact h.2
  · exact h
  · exact h

section Commands

variable (h : Within Datapath.n s t) (hb : t.buf = s.buf)

include h hb

/-- Every command begins with the prologue, and five with the ACK after it (R158, R159). -/
theorem acked_alike (len : Byte) {k : State → Flow Unit}
    (hk : ∀ {u v : State}, Within noRegs u v → Flow.Agrees Alike Alike (k u) (k v)) :
    OutcomesAgree Alike
      ((checksumPrologue false s).bind fun _ s => (sendAck len s).bind fun _ s => k s).outcome
      ((checksumPrologue false t).bind fun _ s => (sendAck len s).bind fun _ s => k s).outcome :=
  outcome_alike ((checksumPrologue_alike false h hb).bind fun _ _ _ h => (h.send _).bind fun _ _ _ h => hk h)

theorem infoReply_alike (payload : Cfg → List Byte) :
    OutcomesAgree Alike (infoReply (payload s.cfg) s).outcome (infoReply (payload t.cfg) t).outcome := by
  rw [h.cfg]
  exact acked_alike h hb _ fun h => (h.send _).bind fun _ _ _ h => ⟨rfl, finish_alike h.outside⟩

theorem execJumpAddr_alike (a : Word) : OutcomesAgree Alike (execJumpAddr a s) (execJumpAddr a t) := by
  refine acked_alike h hb _ fun h => ?_
  rw [h.cfg]
  split
  · exact ⟨rfl, abort_alike (h.setAddr a).outside _⟩
  · exact ⟨rfl, transfer_alike (h.setAddr a).outside _ _⟩

theorem execErase_alike : OutcomesAgree Alike (execErase s) (execErase t) :=
  acked_alike h hb _ fun h =>
    (h.fmc (fun _ hi => hi.eraseAppSector _) (eraseAppSector_framed _ serves_eraseIdle serves_eraseDone)).bind fun st _ _ h =>
      eraseTail_alike h st

theorem execWrite_alike (a : Word) (data : List Byte) : OutcomesAgree Alike (execWrite a data s) (execWrite a data t) := by
  refine outcome_alike ((checksumPrologue_alike true h hb).bind fun _ u v h => ?_)
  have ha := h.setAddr a
  dsimp only
  rw [ha.cfg]
  split
  · exact (ha.send _).bind fun _ _ _ h => ⟨rfl, abort_alike h.outside _⟩
  · refine (ha.send _).bind fun _ _ _ h => ?_
    have hd := h.setDp (f' := Datapath.addr) (fun d => { d with dlen := data.length }) fun _ _ e => e
    exact (programRange_alike hd _).bind fun st _ _ h => writeTail_alike h st

theorem execRead_alike (a : Word) (c : Byte) : OutcomesAgree Alike (execRead a c s) (execRead a c t) := by
  refine outcome_alike ((checksumPrologue_alike true h hb).bind fun _ u v h => ?_)
  have ha : Within Datapath.addr ((u.setAddr a).setCount c) ((v.setAddr a).setCount c) :=
    (h.setAddr a).setDp (fun d => { d with count := c }) fun _ _ e => e
  dsimp only
  rw [ha.cfg]
  split
  · exact (ha.send _).bind fun _ _ _ h => ⟨rfl, abort_alike (debugNote_sameOutside h.outside) _⟩
  · exact (ha.send _).bind fun _ _ _ h => (readLoop_alike c.toNat 0 h).bind fun _ _ _ h => ⟨rfl, finish_alike h.outside⟩

theorem exec_alike (i : Instr) : OutcomesAgree Alike (exec i s) (exec i t) := by
  cases i with
  | getVersion => exact infoReply_alike h hb versionBytes
  | getHelp => exact infoReply_alike h hb Cfg.helpList
  | getCid => exact infoReply_alike h hb chipIdBytes
  | getRdp => exact infoReply_alike h hb (fun cfg => [cfg.rdpByte])
  | jumpApp => exact acked_alike h hb _ jumpAppMsp_alike
  | jumpAddr a => exact execJumpAddr_alike h hb a
  | erase => exact execErase_alike h hb
  | write a data => exact execWrite_alike h hb a data
  | read a c => exact execRead_alike h hb a c

end Commands

/-! ### The step -/

/-- IDLE clears the buffer, and the length byte it receives is the first of the packet (R150, R151). -/
theorem receiveLength_alike (h : SameOutside s t) (hp : s.phase = .idle) : Alike (receiveLength s) (receiveLength t) := by
  obtain ⟨b, d, r, rfl⟩ := refill_of_sameOutside h
  rcases recv_conditions s 1 with ⟨-, k, rs, hr⟩ | ⟨hu, hl⟩ | ⟨hu, hl⟩
  · rw [receiveLength_fail hr, receiveLength_fail (s := s.refill b d r) hr]
    exact abort_alike rfl _
  · obtain ⟨n, rest, hi⟩ := List.exists_cons_of_length_pos hl
    rw [receiveLength_deliver hi (hu Nat.one_ne_zero), receiveLength_deliver (s := s.refill b d r) hi (hu Nat.one_ne_zero)]
    exact ⟨rfl, rfl, rfl⟩
  · have hi := List.length_eq_zero_iff.mp (Nat.lt_one_iff.mp hl)
    rw [receiveLength_wait hi hu, receiveLength_wait (s := s.refill b d r) hi hu]
    exact ⟨rfl, by rw [clearBuf_phase, hp]; trivial⟩

/-- The body goes behind the length byte, wherever a `Recv` of as many bytes delivers (R152, R154). -/
theorem receiveBody_alike (h : SameOutside s t) (hp : s.phase = .lengthReceived) (hk : PacketAlike s t) :
    Alike (receiveBody s) (receiveBody t) := by
  obtain ⟨b, d, r, rfl⟩ := refill_of_sameOutside h
  obtain ⟨rfl, hn⟩ : b = s.buf ∧ d.n = s.dp.n := hk
  have hdn : (s.refill s.buf d r).dp.n = s.dp.n := hn
  rcases recv_conditions s s.dp.n.toNat with ⟨h0, k, rs, hr⟩ | ⟨hu, hl⟩ | ⟨hu, hl⟩
  · rw [receiveBody_fail h0 hr, receiveBody_fail (s := s.refill s.buf d r) (hdn ▸ h0) hr, hdn]
    exact abort_alike rfl _
  · rw [receiveBody_deliver hu hl, receiveBody_deliver (s := s.refill s.buf d r) (hdn ▸ hu) (hdn ▸ hl), hdn,
      show (s.refill s.buf d r).cfg = s.cfg from rfl]
    split
    · exact abort_alike rfl _
    · exact ⟨rfl, rfl, hn⟩
  · rw [receiveBody_wait hu hl, receiveBody_wait (s := s.refill s.buf d r) hu (hdn ▸ hl)]
    exact ⟨rfl, by rw [hp]; exact ⟨rfl, hn⟩⟩

theorem dispatchPacket_alike (h : SameOutside s t) (hk : PacketAlike s t) :
    OutcomesAgree Alike (dispatchPacket s) (dispatchPacket t) := by
  obtain ⟨b, d, r, rfl⟩ := refill_of_sameOutside h
  obtain ⟨rfl, hn⟩ : b = s.buf ∧ d.n = s.dp.n := hk
  have hd : Within Datapath.n (dispatched s) (dispatched (s.refill s.buf d r)) := ⟨rfl, rfl, hn⟩
  unfold dispatchPacket
  rw [show decodeBuf (s.refill s.buf d r).cfg (s.refill s.buf d r).dp.n (s.refill s.buf d r).buf = decodeBuf s.cfg s.dp.n s.buf from
    congrArg (decodeBuf s.cfg · s.buf) hn]
  cases decodeBuf s.cfg s.dp.n s.buf with
  | ok i => exact exec_alike hd rfl i
  | error e => cases e <;> exact abort_alike rfl _

/-- A held handler goes on with the registers its position reads (R50). -/
theorem resumeHandler_alike (h : SameOutside s t) (hp : s.phase = .dispatched) (hk : HeldAlike s t s.pos) :
    OutcomesAgree Alike (resumeHandler s) (resumeHandler t) := by
  have hpos : t.pos = s.pos := by
    obtain ⟨b, d, r, rfl⟩ := refill_of_sameOutside h
    exact rfl
  have h0 : Within noRegs s t := ⟨h, hp, rfl⟩
  unfold resumeHandler
  rw [hpos]
  generalize s.pos = p at hk
  cases p with
  | start => exact dispatchPacket_alike h hk
  | eraseIdle =>
    exact outcome_alike ((h0.fmc (fun _ hi => hi.eraseFromIdle _)
      (eraseFromIdle_framed _ serves_eraseIdle serves_eraseDone)).bind fun st _ _ h => eraseTail_alike h st)
  | eraseDone =>
    exact outcome_alike ((h0.fmc (fun _ hi => hi.eraseFinish _) (eraseFinish_framed _ serves_eraseDone)).bind fun st _ _ h =>
      eraseTail_alike h st)
  | programIdle ws =>
    have hc : Within cursor s t := ⟨h, hp, hk⟩
    rw [hc.index]
    exact outcome_alike (((programLoop_alike ws _ hc.addr).bind fun st _ _ h => lockAfter_alike h st).bind fun st _ _ h =>
      writeTail_alike h st)
  | programDone ws =>
    have hc : Within cursor s t := ⟨h, hp, hk⟩
    exact outcome_alike ((programResume_alike hc ws).bind fun st _ _ h => writeTail_alike h st)
  | readWord left =>
    have hc : Within cursor s t := ⟨h, hp, hk⟩
    rw [hc.index]
    exact outcome_alike ((readLoop_alike left _ hc.addr).bind fun _ _ _ h => ⟨rfl, finish_alike h.outside⟩)
  | jumpMsp => exact outcome_alike (jumpAppMsp_alike h0)
  | jumpEntry => exact outcome_alike (jumpAppEntry_alike ⟨h, hp, hk⟩)

theorem cycleStep_alike (h : Alike s t) : OutcomesAgree Alike (cycleStep s) (cycleStep t) := by
  obtain ⟨ho, hk⟩ := h
  have hphase : t.phase = s.phase := by
    obtain ⟨b, d, r, rfl⟩ := refill_of_sameOutside ho
    exact rfl
  unfold cycleStep
  rw [hphase]
  generalize hp : s.phase = p at hk
  cases p with
  | idle => exact receiveLength_alike ho hp
  | lengthReceived => exact receiveBody_alike ho hp hk
  | payloadReceived => exact dispatchPacket_alike ho hk
  | dispatched => exact resumeHandler_alike ho hp hk
  | responded =>
    obtain ⟨b, d, r, rfl⟩ := refill_of_sameOutside ho
    exact ⟨rfl, trivial⟩
  | transferred => exact ⟨ho, by rw [hp]; trivial⟩

theorem step_alike (h : Alike s t) : OutcomesAgree Alike (step s) (step t) := by
  have hstep := cycleStep_alike h
  obtain ⟨b, d, r, rfl⟩ := refill_of_sameOutside h.outside
  unfold step
  rw [show (s.refill b d r).faulted = s.faulted from rfl, show (s.refill b d r).cfg = s.cfg from rfl]
  split
  · rfl
  · split
    · exact hstep
    · rfl

/-! ### Runs -/

theorem outcomesAgree_cases {R : State → State → Prop} {x y : Host.Outcome State Fault Refusal} (h : OutcomesAgree R x y) :
    (∃ s t, x = .next s ∧ y = .next t ∧ R s t) ∨ (∃ f g, x = .fault f ∧ y = .fault g ∧ faultCode f = faultCode g) ∨
    ∃ r, x = .refused r ∧ y = .refused r := by
  cases x <;> cases y <;> first | exact h.elim | skip
  · exact .inl ⟨_, _, rfl, rfl, h⟩
  · exact .inr (.inl ⟨_, _, rfl, rfl, h⟩)
  · exact .inr (.inr ⟨_, rfl, congrArg _ (Eq.symm h)⟩)

section Run

variable {M : Host.Core} {k : Nat} {s u : M.State} {f : M.Fault} {r : M.Refusal}

theorem run_succ_next (h : M.step s = .next u) : M.run (k + 1) s = M.run k u := by rw [Host.Core.run, h]

theorem run_succ_fault (h : M.step s = .fault f) : M.run (k + 1) s = .fault f := by rw [Host.Core.run, h]

theorem run_succ_refused (h : M.step s = .refused r) : M.run (k + 1) s = .refused r := by rw [Host.Core.run, h]

end Run

/-- Every step keeps `Alike`, so any number of steps ends alike. -/
theorem run_sameOutside (k : Nat) : ∀ {s t : State}, Alike s t →
    OutcomesAgree SameOutside (Sys2Proof.core.run k s) (Sys2Proof.core.run k t) := by
  induction k with
  | zero => exact fun h => h.outside
  | succ k ih =>
    intro s t h
    rcases outcomesAgree_cases (step_alike h) with ⟨u, v, hs, ht, h'⟩ | ⟨f, g, hs, ht, h'⟩ | ⟨r, hs, ht⟩
    · rw [run_succ_next (M := Sys2Proof.core) hs, run_succ_next (M := Sys2Proof.core) ht]
      exact ih h'
    · rw [run_succ_fault (M := Sys2Proof.core) hs, run_succ_fault (M := Sys2Proof.core) ht]
      exact h'
    · rw [run_succ_refused (M := Sys2Proof.core) hs, run_succ_refused (M := Sys2Proof.core) ht]
      rfl

/-! ### The obligation -/

/-- Settles O18: in IDLE nothing of `buf`, `dp` and `crc_reg` is read any more, so the two states are `Alike`. -/
theorem cyclesKeepNoProtocolState : Obligations.CyclesKeepNoProtocolState :=
  fun _ _ k hp h => run_sameOutside k ⟨h, by rw [hp]; trivial⟩

end Sys2Proof.Machine
end

section
/-! PROOFS. The information commands (spec 42_info_commands.md R180 to R187): the reply that all four share, written out as one state, and
the version bytes. -/

namespace Sys2Proof.Machine

/-- The whole of an information command whose checksum passes and whose two sends succeed (R180, R182, R184, R186): only the end of the
cycle, `crc_reg`, the ACK and the payload at the host, the three events and the choices used. -/
theorem infoReply_good_eq {payload : List Byte} {s : State} {ds : List SendDraw} (hk : s.checksumOk = true)
    (hs : s.env.sends = .success :: .success :: ds) :
    infoReply payload s = .go () { s with
      phase := .idle, pos := .start, crcReg := packetChecksum s.cfg s.dp.n.toNat s.buf,
      host := { s.host with out := s.host.out ++ byteAck :: BitVec.ofNat 8 payload.length :: payload },
      events := s.events ++ [.sent [byteAck, BitVec.ofNat 8 payload.length], .sent payload, .cycleEnd .ok .none],
      env := { s.env with sends := ds } } := by
  rw [infoReply_good hk hs]
  simp [State.sent, State.finish, State.setPhase, State.setPos, State.emit, State.ranChecksum]

/-! ### The obligation -/

/-- Settles O21: the shared reply, with the four bytes of `versionBytes` as its payload. -/
theorem getVersionReplies : Obligations.GetVersionReplies :=
  fun _ _ hk hs => congrArg Flow.outcome (infoReply_good_eq hk hs)

end Sys2Proof.Machine
end

section
/-! PROOFS. Control transfer (spec 43_control_transfer.md R200 to R208): the two vector words of a well-formed configuration can be read, and
each command behind its ACK is one transfer or one abort. -/

namespace Sys2Proof.Machine

/-- Both vector words lie in a window (R9 (8)). -/
theorem appBase_words_valid {cfg : Cfg} (hw : cfgWf cfg = true) :
    classify cfg cfg.appBase ≠ .invalid ∧ classify cfg (cfg.appBase + 4#32) ≠ .invalid := by
  obtain ⟨-, -, -, -, -, happ, -⟩ := cfgWf_parts hw
  simp only [appBaseWf, Bool.and_eq_true, bne_iff_ne, beq_iff_eq] at happ
  obtain ⟨⟨-, hbase⟩, hnext⟩ := happ
  exact ⟨hbase, hnext ▸ hbase⟩

section Handlers

variable {s : State} {addr : Word} {ds : List SendDraw}

/-! ### JUMP_APP from its reads on (R200) -/

/-- The transfer behind `Deinitialise` as one state: the three units off, in their order, before the transfer event (R202, R203). -/
theorem transfer_deinitialise (msp : Option Word) (target : Word) :
    transfer msp target (deinitialise s) = { s with
      phase := .transferred, pos := .start, periph := { clocks := false, transport := false, checksum := false },
      events := s.events ++ [.deinit .clocks, .deinit .transport, .deinit .checksum, .transfer msp target] } := by
  simp [transfer, deinitialise, State.emit, State.setPhase, State.setPos]

/-- With the FMC idle neither read of the vector is held, and the registers written between them change no word (R74). -/
theorem jumpAppMsp_idle (hw : cfgWf s.cfg = true) (ho : s.fmc.op = .noOp) :
    let msp := s.wordAt s.cfg.appBase
    let entry := s.wordAt (s.cfg.appBase + 4#32)
    jumpAppMsp s = .go () (transfer (some msp) entry (deinitialise ((s.setMsp msp).setDataWord entry))) := by
  obtain ⟨hbase, hnext⟩ := appBase_words_valid hw
  intro msp entry
  unfold jumpAppMsp jumpAppEntry
  rw [memRead_idle ho hbase, Flow.bind_go]
  exact congrArg (Flow.bind · _) (memRead_idle (s := s.setMsp msp) ho hnext)

/-! ### Both commands behind their ACK (R200, R205) -/

section Acked

variable (hk : s.checksumOk = true) (hs : s.env.sends = .success :: ds)

include hk hs

/-- The words JUMP_APP hands over are those of memory before the command: the ACK changes none. -/
theorem execJumpApp_idle (hw : cfgWf s.cfg = true) (ho : s.fmc.op = .noOp) :
    let msp := s.wordAt s.cfg.appBase
    let entry := s.wordAt (s.cfg.appBase + 4#32)
    execJumpApp s = .next (transfer (some msp) entry
      (deinitialise (((s.ranChecksum.sent [byteAck, 0#8] ds).setMsp msp).setDataWord entry))) := by
  unfold execJumpApp
  rw [checksumPrologue_ok hk, Flow.bind_go, ack_good hs, Flow.bind_go]
  exact congrArg Flow.outcome (jumpAppMsp_idle (s := s.ranChecksum.sent [byteAck, 0#8] ds) hw ho)

/-- JUMP_ADDR looks at the address only behind its ACK (R207). -/
theorem execJumpAddr_acked :
    let acked := s.ranChecksum.sent [byteAck, 0#8] ds
    execJumpAddr addr s = Flow.outcome (
      if classify s.cfg addr = .invalid then .go () ((acked.setAddr addr).abort .invalidAddress)
      else .go () (transfer none (addr ||| 1#32) (acked.setAddr addr))) := by
  unfold execJumpAddr
  rw [checksumPrologue_ok hk, Flow.bind_go, ack_good hs, Flow.bind_go]
  rfl

end Acked

end Handlers

/-! ### The obligations -/

/-- Settles O25: with the FMC idle the handler is one transfer behind its ACK, and `transfer_deinitialise` orders the events. -/
theorem jumpAppTransfers : Obligations.JumpAppTransfers := by
  intro s ds hw hk ho hs
  refine (execJumpApp_idle hk hs hw ho).trans ?_
  rw [transfer_deinitialise]
  simp [State.setMsp, State.setDataWord, State.sent, State.ranChecksum]

/-- Settles O26: behind the ACK the handler branches on the Address Validator alone. -/
theorem jumpAddrTransfersOrAborts : Obligations.JumpAddrTransfersOrAborts := by
  intro s addr ds hk hs acked
  constructor
  · intro hvalid
    refine (execJumpAddr_acked hk hs).trans ?_
    rw [if_neg hvalid]
    simp [acked, transfer, State.sent, State.setAddr, State.emit, State.setPhase, State.setPos, State.ranChecksum]
  · intro hinvalid
    refine (execJumpAddr_acked hk hs).trans ?_
    rw [if_pos hinvalid]
    simp [acked, State.abort, State.sent, State.setAddr, State.emit, State.setPhase, State.setPos, State.ranChecksum]

end Sys2Proof.Machine
end

section
/-! PROOFS. The flash memory controller (spec 44_flash_controller.md R221 to R230): a bus write to flash in the rows' own terms, the bits
of `SR` across a write, and the lock state machine. -/

namespace Sys2Proof.Machine

/-! ### Register fields by their bits (R45, R46) -/

theorem hasBits_twoPow (r : Word) {k : Nat} (hk : k < 32) : hasBits r (BitVec.twoPow 32 k) = r.getLsbD k := by
  have hne : BitVec.twoPow 32 k ≠ 0#32 := fun h => by
    simpa [BitVec.getLsbD_twoPow, hk] using congrArg (BitVec.getLsbD · k) h
  rw [hasBits, BitVec.and_twoPow]
  cases r.getLsbD k <;> simp [hne]

theorem hasBits_crPg (r : Word) : hasBits r crPg = r.getLsbD 0 := hasBits_twoPow r (k := 0) (by decide)

theorem hasBits_crSer (r : Word) : hasBits r crSer = r.getLsbD 1 := hasBits_twoPow r (k := 1) (by decide)

theorem psizeOf_toNat (r : Word) : (psizeOf r).toNat = r.toNat / 256 % 4 := by
  simp [psizeOf, BitVec.extractLsb'_toNat, Nat.shiftRight_eq_div_pow]

theorem psizeOf_eq_two_iff (r : Word) : psizeOf r = 0b10#2 ↔ r.toNat / 256 % 4 = 2 := by
  rw [← BitVec.toNat_inj, psizeOf_toNat]
  rfl

/-! ### A bus write to flash (R228) -/

/-- The condition of R228's first row: PG is 0, LOCK reads 1, or SER is 1. -/
abbrev Fmc.StoreBarred (f : Fmc) : Prop := f.cr.getLsbD 0 = false ∨ f.lockst ≠ .unlocked ∨ f.cr.getLsbD 1 = true

/-- PSIZE is 10, the width of a word (R228). -/
abbrev Fmc.StoreWide (f : Fmc) : Prop := f.cr.toNat / 256 % 4 = 2

theorem Fmc.storeBarred_iff {f : Fmc} :
    (!hasBits f.cr crPg || f.locked || hasBits f.cr crSer) = true ↔ f.StoreBarred := by
  simp only [hasBits_crPg, hasBits_crSer, Bool.or_eq_true, Bool.not_eq_true', Fmc.locked_eq_true, or_assoc]

section Store

variable {s : State} {a v : Word}

theorem memWrite_flashValid (ha : classify s.cfg a = .flashValid) : memWrite a v s = flashWrite a v s := by
  simp only [memWrite, ha]

theorem flashWrite_barred (hb : s.fmc.StoreBarred) : flashWrite a v s = .go () (s.setFmc (s.fmc.raiseFlags srPgserr)) := by
  rw [flashWrite, if_pos (Fmc.storeBarred_iff.mpr hb)]

/-- Past the first row the program size is looked at. -/
theorem flashWrite_narrow (hb : ¬ s.fmc.StoreBarred) (hn : ¬ s.fmc.StoreWide) :
    flashWrite a v s = .go () (s.setFmc (s.fmc.raiseFlags srPgperr)) := by
  rw [flashWrite, if_neg (Fmc.storeBarred_iff.not.mpr hb), if_pos ((psizeOf_eq_two_iff _).not.mpr hn)]

/-- Past the first two rows only the operation in flight and the sector's protection are looked at. -/
theorem flashWrite_wide (hb : ¬ s.fmc.StoreBarred) (hn : s.fmc.StoreWide) :
    flashWrite a v s =
      if s.fmc.busy then .fault (s.raise .undefinedFmcAccess)
      else if sectorOf s.cfg a ∈ s.cfg.wrpProtected then .go () (s.setFmc (s.fmc.raiseFlags srWrperr))
      else .go () (s.setFmc { s.fmc with op := .program a v }) := by
  rw [flashWrite, if_neg (Fmc.storeBarred_iff.not.mpr hb), if_neg (not_not.mpr ((psizeOf_eq_two_iff _).mpr hn))]

end Store

/-! ### The bits of `SR` (R45, R229, R230) -/

theorem srStored_getLsbD : ∀ k < 32,
    srStored.getLsbD k = (k == 0 || k == 1 || k == 4 || k == 5 || k == 6 || k == 7 || k == 8) := by decide

theorem Fmc.readSr_getLsbD_busy (f : Fmc) : f.readSr.getLsbD 16 = f.busy := by
  rw [Fmc.readSr, BitVec.getLsbD_or, BitVec.getLsbD_and, show srStored.getLsbD 16 = false by decide, Bool.and_false]
  cases f.busy <;> decide

/-- Away from BSY a bit of `SR` reads as it is stored, and the reserved ones read 0. -/
theorem Fmc.readSr_getLsbD_stored (f : Fmc) {k : Nat} (hk : k ≠ 16) :
    f.readSr.getLsbD k = (f.sr.getLsbD k && srStored.getLsbD k) := by
  have hb : (if f.busy then srBsy else 0#32).getLsbD k = false := by
    rw [show srBsy = BitVec.twoPow 32 16 by decide]
    split
    · simp [BitVec.getLsbD_twoPow, hk.symm]
    · exact BitVec.getLsbD_zero
  rw [Fmc.readSr, BitVec.getLsbD_or, BitVec.getLsbD_and, hb, Bool.or_false]

theorem Fmc.writeSr_busy (f : Fmc) (v : Word) : (f.writeSr v).busy = f.busy := rfl

theorem Fmc.writeSr_getLsbD (f : Fmc) (v : Word) {k : Nat} (hk : k < 32) :
    (f.writeSr v).sr.getLsbD k = (f.sr.getLsbD k && !(v.getLsbD k && srStored.getLsbD k)) := by
  simp [Fmc.writeSr, hk]

/-- A stored bit is cleared where it is written 1; BSY and the reserved bits do not see the write. -/
theorem Fmc.readSr_writeSr_getLsbD (f : Fmc) (v : Word) {k : Nat} (hk : k < 32) :
    (f.writeSr v).readSr.getLsbD k = (f.readSr.getLsbD k && !(srStored.getLsbD k && v.getLsbD k)) := by
  by_cases h : k = 16
  · subst h
    rw [Fmc.readSr_getLsbD_busy, Fmc.readSr_getLsbD_busy, Fmc.writeSr_busy, show srStored.getLsbD 16 = false by decide]
    simp
  · rw [Fmc.readSr_getLsbD_stored _ h, Fmc.readSr_getLsbD_stored _ h, Fmc.writeSr_getLsbD _ _ hk,
      Bool.and_comm (srStored.getLsbD k) (v.getLsbD k), Bool.and_right_comm]

/-! ### The lock state machine (R221, R223) -/

theorem writeKeyr_unlocked {v : Word} {s : State} (h : s.fmc.lockst = .unlocked) :
    writeKeyr v s = .fault (s.raise .undefinedFmcAccess) := by
  simp only [writeKeyr, h]

/-! ### The obligations -/

/-- Settles O35: `flashWrite` takes the rows in their order, and `sectorOf` names the one sector that holds the address. -/
theorem flashBusWrite : Obligations.FlashBusWrite := by
  intro s a v hw _ ha holds barred wide
  have hsector : ∀ {n x}, holds n x → sectorOf s.cfg a = n := fun h => sectorOf_eq hw h.1 h.2.1 h.2.2
  have hidle : s.fmc.op = .noOp → ¬ s.fmc.busy = true := fun ho => ne_true_of_eq_false (Fmc.busy_eq_false.mpr ho)
  rw [memWrite_flashValid ha]
  refine ⟨flashWrite_barred, flashWrite_narrow, fun hb hn ho => ?busy, ?sector, fun n x hb hn ho hx hp => ?protectedSector,
    fun n x hb hn ho hx hp => ?starts⟩
  case busy => exact (flashWrite_wide hb hn).trans (if_pos (Fmc.busy_eq_true.mpr ho))
  case sector =>
    obtain ⟨n, x, hx⟩ := exists_sector hw ha
    exact ⟨n, x, hx, fun m y hy => (hsector hy).symm.trans (hsector hx)⟩
  case protectedSector =>
    rw [flashWrite_wide hb hn, if_neg (hidle ho), hsector hx, if_pos hp]
    rfl
  case starts =>
    rw [flashWrite_wide hb hn, if_neg (hidle ho), hsector hx, if_neg hp]
    rfl

/-- Settles O36: the bits a write can clear are the stored ones, EOP and the error flags. -/
theorem srWriteClearsWhatIsWrittenOne : Obligations.SrWriteClearsWhatIsWrittenOne := fun f v k hk =>
  ⟨srStored_getLsbD k hk ▸ f.readSr_writeSr_getLsbD v hk, (f.writeSr v).readSr_getLsbD_busy⟩

/-- Settles O31: outside UNLOCKED the write is `keyEffect` on the lock alone, whose rows these are. -/
theorem keyWritesMoveTheLock : Obligations.KeyWritesMoveTheLock := by
  intro s v moved
  have hmoved : ∀ l, s.fmc.lockst ≠ .unlocked → keyEffect s.cfg s.fmc.lockst v = l → writeKeyr v s = moved l := by
    rintro _ hl rfl
    exact writeKeyr_locked hl
  refine ⟨fun hl hv => ?_, fun hl hv => ?_, fun hl hv => ?_, fun hl hv => ?_, fun hl => ?_, writeKeyr_unlocked⟩
  all_goals exact hmoved _ (by simp [hl]) (by simp [keyEffect, *])

end Sys2Proof.Machine
end

section
/-! PROOFS. WRITE and READ (spec 45_memory_commands.md R270 to R282): the refusal of a bad address, a WRITE that cannot unlock the FMC, and a
READ whose words all lie in the windows. -/

namespace Sys2Proof.Machine

/-! ### The end of a cycle as one state (R160, R311) -/

theorem State.abort_eq (s : State) (c : Cause) :
    s.abort c = { s with phase := .idle, pos := .start, events := s.events ++ [.cycleEnd .notOk c] } := rfl

theorem State.finish_eq (s : State) :
    s.finish = { s with phase := .idle, pos := .start, events := s.events ++ [.cycleEnd .ok .none] } := rfl

/-! ### The loop of READ as a whole (R267, R282) -/

/-- With the FMC idle and every word inside a window, the loop sends the `k` words from `dp.addr` on, and no word is held or faults. -/
theorem readLoop_all {s : State} {k : Nat} {ds : List SendDraw} (ho : s.fmc.op = .noOp)
    (hw : ∀ i, i < k → classify s.cfg (wordAddr s.dp.addr i) ≠ .invalid) (hs : s.env.sends = goodSends (4 * k) ++ ds) :
    let bytes := (List.range k).flatMap fun i => bytesBE (s.wordAt (wordAddr s.dp.addr i))
    ∃ i w, readLoop k 0 s = .go () { s with
      dp := { s.dp with i := i, w := w }, host := { s.host with out := s.host.out ++ bytes },
      events := s.events ++ bytes.map fun b => .sent [b], env := { s.env with sends := ds } } := by
  obtain ⟨t, hloop, ht⟩ := readLoop_good k 0 0 s ds ho (by simpa using hw) hs
  simp only [Nat.zero_add] at ht
  exact ⟨t.dp.i, t.dp.w, hloop.trans (congrArg (Flow.go ()) ht)⟩

section Handlers

variable {s : State} {a : Word} {ds : List SendDraw} (hk : s.checksumOk = true)

include hk

/-! ### A refused address (R272, R280) -/

section Refused

variable (hs : s.env.sends = .success :: ds) (hb : badRangeAddr s.cfg a = true)

include hs hb

/-- WRITE of a bad address: `X`, with no ACK before it, and the abort (R272). -/
theorem execWrite_refused (data : List Byte) :
    execWrite a data s = .next (((s.ranChecksum.setAddr a).sent [byteX] ds).abort .invalidAddress) := by
  unfold execWrite
  rw [checksumPrologue_ok hk, Flow.bind_go, if_pos (by exact hb), send_success (s := s.ranChecksum.setAddr a) hs, Flow.bind_go,
    Flow.outcome_go]

/-- READ of a bad address: `E`, with no ACK before it, the debug note, and the abort (R280). -/
theorem execRead_refused (count : Byte) :
    execRead a count s =
      .next ((debugNote (((s.ranChecksum.setAddr a).setCount count).sent [byteE] ds)).abort .invalidAddress) := by
  unfold execRead
  rw [checksumPrologue_ok hk, Flow.bind_go, if_pos (by exact hb), send_success (s := (s.ranChecksum.setAddr a).setCount count) hs,
    Flow.bind_go, Flow.outcome_go]

end Refused

/-! ### A good address with the FMC idle -/

section Idle

variable (ho : s.fmc.op = .noOp) (hc : classify s.cfg a ≠ .invalid) (ha : a.toNat % 4 = 0)

include ho hc ha

/-- WRITE under LOCKED_HARD: between the ACK and the status byte `ProgramRange` changes nothing (R276). -/
theorem execWrite_hard (data : List Byte) (hl : s.fmc.lockst = .lockedHard) (hs : s.env.sends = .success :: .success :: ds) :
    let acked := ((s.ranChecksum.setAddr a).sent [byteAck, 1#8] (.success :: ds)).setDlen data.length
    let st : Status := .fail .unlockFailed 0#32
    execWrite a data s = .next (((acked.setStatus st).sent [byteE] ds).abort (.hardwareOperationFailure st)) := by
  intro acked st
  have hrange : programRange (dataWords data) acked = .go st acked := programRange_hard ho hl
  have htail : writeTail st acked = _ := writeTail_fail (by decide) rfl
  rw [execWrite_acked hk hs hc ha, hrange, Flow.bind_go, htail, Flow.outcome_go]

/-- READ of `count` words inside the windows: behind the ACK the loop sends them all, and the cycle ends well (R279). -/
theorem execRead_words (count : Byte) (hw : ∀ i, i < count.toNat → classify s.cfg (wordAddr a i) ≠ .invalid)
    (hs : s.env.sends = .success :: (goodSends (4 * count.toNat) ++ ds)) :
    let bytes := (List.range count.toNat).flatMap fun i => bytesBE (s.wordAt (wordAddr a i))
    let acked := ((s.ranChecksum.setAddr a).setCount count).sent [byteAck, count] (goodSends (4 * count.toNat) ++ ds)
    ∃ i w, execRead a count s = .next (State.finish { acked with
      dp := { acked.dp with i := i, w := w }, host := { acked.host with out := acked.host.out ++ bytes },
      events := acked.events ++ bytes.map fun b => .sent [b], env := { acked.env with sends := ds } }) := by
  intro bytes acked
  obtain ⟨i, w, hloop⟩ := readLoop_all (s := acked) ho hw rfl
  exact ⟨i, w, by rw [execRead_acked hk hs hc ha, hloop]; rfl⟩

end Idle

end Handlers

/-! ### The obligations -/

/-- Settles O46: either ground is a bad range address, which WRITE refuses before its ACK. -/
theorem writeRefusesABadAddress : Obligations.WriteRefusesABadAddress := by
  intro s a data ds hk hs hb
  rw [exec, execWrite_refused hk hs (badRangeAddr_iff.mpr hb), State.abort_eq]
  simp [State.sent, State.ranChecksum, State.setAddr]

/-- Settles O53: as for WRITE; the note and the count of draws are those of `debugNote`. -/
theorem readRefusesABadAddress : Obligations.ReadRefusesABadAddress := by
  intro s a count ds hk hs hb
  refine ⟨Config.freeNote s.env.drawn, s.env.drawn + 1, ?_⟩
  rw [exec, execRead_refused hk hs (badRangeAddr_iff.mpr hb), State.abort_eq]
  simp [State.sent, State.ranChecksum, State.setAddr, State.setCount, debugNote, State.emit]

/-- Settles O50: the hard-locked FMC refuses `Unlock` and does not see `Lock`. -/
theorem writeWithoutUnlockProgramsNothing : Obligations.WriteWithoutUnlockProgramsNothing := by
  intro s a data ds hk ho hl ha hc hs
  rw [exec, execWrite_hard hk ho hc ha data hl hs, State.abort_eq]
  simp [State.sent, State.ranChecksum, State.setAddr, State.setDlen, State.setStatus]

/-- Settles O52: the first send is the ACK, and the `4 · count` others are those of the loop's words. -/
theorem readSendsTheWords : Obligations.ReadSendsTheWords := by
  intro s a count ds hk ho ha hc hw hs
  have hs' : s.env.sends = .success :: (goodSends (4 * count.toNat) ++ ds) := by
    rw [hs, Nat.add_comm, List.replicate_succ, List.cons_append]
  obtain ⟨i, w, he⟩ := execRead_words hk ho hc ha count hw hs'
  refine ⟨_, he, ?_⟩
  rw [State.finish_eq]
  simp [State.sent, State.ranChecksum, State.setAddr, State.setCount]

end Sys2Proof.Machine
end

section
/-! PROOFS. Exceptions (spec 60_exceptions.md R303): every handler is the checksum prologue and a rest, so a prologue that ends the step is
the whole command. -/

namespace Sys2Proof.Machine

open Sys2Proof.Safety

/-- Every handler begins with the prologue, NACKing as `nacks` says, before it does anything else (R158, R303). -/
theorem exec_eq_prologue_bind (i : Instr) (s : State) :
    ∃ k : Unit → State → Flow Unit, exec i s = ((checksumPrologue (nacks i) s).bind k).outcome := by
  cases i with
  | getVersion | getHelp | getCid | getRdp | jumpApp | jumpAddr _ | erase | write _ _ | read _ _ => exact ⟨_, rfl⟩

/-- A command whose prologue ends the step leaves the prologue's state. -/
theorem exec_of_prologue_stop {i : Instr} {nack : Bool} {s t : State} (hn : nacks i = nack)
    (h : checksumPrologue nack s = .stop t) : exec i s = .next t := by
  obtain ⟨k, hk⟩ := exec_eq_prologue_bind i s
  rw [hk, hn, h, Flow.bind_stop, Flow.outcome_stop]

/-- On a mismatch a prologue whose NACK is sent aborts the cycle behind it (R303). -/
theorem checksumPrologue_nack_sent {s : State} {ds : List SendDraw} (hk : s.checksumOk = false)
    (hs : s.env.sends = .success :: ds) :
    checksumPrologue true s = .stop ((s.ranChecksum.sent [byteNack] ds).abort .checksumMismatch) := by
  rw [checksumPrologue_nack hk, send_success (s := s.ranChecksum) hs, Flow.bind_go]

/-! ### The obligation -/

/-- Settles O8: on a mismatch the prologue ends the step, silently or behind its NACK, so no handler comes to its rest. -/
theorem badChecksumAborts : Obligations.BadChecksumAborts := by
  intro i s hk
  constructor
  · intro hn
    rw [exec_of_prologue_stop hn (checksumPrologue_silent hk), State.abort_eq]
    rfl
  · intro hn ds hs
    rw [exec_of_prologue_stop hn (checksumPrologue_nack_sent hk hs), State.abort_eq]
    simp [State.sent, State.ranChecksum, byteNack]

end Sys2Proof.Machine
end

section
/-! PROOFS. Encoding (spec 30_encoding.md R100 to R120): a command's nominal packet, decoded from the bytes or from the buffer it was received
into, and the operands at their fixed offsets. -/

namespace Sys2Proof.Machine

section Sealed

variable {cfg : Cfg} {i : Instr}

/-- The opcode and the payload of a nominal packet, in the buffer it lands in, select the command with its operands (R114, R120). -/
theorem decodeOpcode_sealed (hc : cfgWf cfg = true) (hw : i.wf cfg = true) {n : Byte}
    (hn : n = BitVec.ofNat 8 ((payloadOf i).length + 5)) :
    decodeOpcode cfg n (receivedBuf cfg n (sealedTail cfg (opcodeOf cfg i) (payloadOf i))) (opcodeOf cfg i) = .ok i := by
  obtain ⟨hVersion, hHelp, hCid, hRdp, hApp, hAddr, hErase, hWrite, hRead⟩ :=
    decodeOpcode_hit hc n (receivedBuf cfg n (sealedTail cfg (opcodeOf cfg i) (payloadOf i)))
  have hlen : n.toNat = (payloadOf i).length + 5 := hn ▸ nominalN_toNat hw
  cases i with
  | getVersion => exact hVersion
  | getHelp => exact hHelp
  | getCid => exact hCid
  | getRdp => exact hRdp
  | jumpApp => exact hApp
  | jumpAddr a =>
    have ha : addrOperand cfg (receivedBuf cfg n (sealedTail cfg cfg.opcJumpAddr (bytesBE a))) = a := by
      simpa using addrOperand_sealed (cfg := cfg) (op := cfg.opcJumpAddr) (n := n) (a := a) (more := [])
    exact hAddr.trans (by rw [opcodeOf, payloadOf, ha])
  | erase => exact hErase
  | write a data =>
    have hdata : n.toNat = 9 + data.length := by rw [hlen, payloadOf, List.length_append, bytesBE_length]; omega
    exact hWrite.trans (by rw [opcodeOf, payloadOf, addrOperand_sealed, dataOperand_sealed hdata])
  | read a c => exact hRead.trans (by rw [opcodeOf, payloadOf, addrOperand_sealed, countOperand_sealed])

/-- A nominal packet is its length byte and what stands behind it (R100). -/
theorem encode_eq : encode cfg i = BitVec.ofNat 8 ((payloadOf i).length + 5) :: sealedTail cfg (opcodeOf cfg i) (payloadOf i) := rfl

end Sealed

/-! ### The obligations -/

/-- Settles O1: the packet decodes by its opcode byte from the buffer it lands in, where its payload stands at the operands' offsets. -/
theorem decodeEncodeRoundTrip : Obligations.DecodeEncodeRoundTrip := by
  intro cfg i rest hc hw
  obtain ⟨hbyte, hcap⟩ := wf_bounds hw
  rw [encode, decode_sealPacket hbyte hcap]
  exact decodeOpcode_sealed hc hw rfl

/-- Settles O2: the placed packet is a sealed one in the buffer of its own length byte. -/
theorem encodedPacketPassesTheCheck : Obligations.EncodedPacketPassesTheCheck :=
  fun s i _ hw => checksumOk_sealed (s := placePacket (encode s.cfg i) s) hw rfl rfl

/-- Settles O5: a legal length leaves the choice to the opcode byte, and no operand looks at the length but WRITE's data. -/
theorem operandsStandAtFixedOffsets : Obligations.OperandsStandAtFixedOffsets := by
  intro cfg n buf hc hlow hcap b addr
  obtain ⟨-, -, -, -, -, hAddr, -, hWrite, hRead⟩ := decodeOpcode_hit hc n buf
  rw [decodeBuf_legal hlow hcap]
  refine ⟨fun hop => ?_, fun hop => ?_, fun hop => ⟨dataOperand cfg n.toNat buf, ?_, dataOperand_length _ _, fun j => ?_⟩⟩
  · rw [show bufByte cfg buf 1 = _ from hop]; exact hAddr
  · rw [show bufByte cfg buf 1 = _ from hop]; exact hRead
  · rw [show bufByte cfg buf 1 = _ from hop]; exact hWrite
  · exact dataOperand_getElem? buf

/-- Settles O3: each of the six is the nominal packet of its command, so the round trip and the check hold of it. -/
theorem writtenOutPacketsDecode : Obligations.WrittenOutPacketsDecode := by
  have hc : cfgWf cfg0 = true := by decide +kernel
  have decoded : ∀ {p : List Byte} (i : Instr), i.wf cfg0 = true → encode cfg0 i = p → decode cfg0 p = .ok i := by
    rintro _ i hw rfl
    simpa using decodeEncodeRoundTrip cfg0 i [] hc hw
  have passes : ∀ {p : List Byte} (i : Instr), i.wf cfg0 = true → encode cfg0 i = p →
      (placePacket p State.reset).checksumOk = true := by
    rintro _ i hw rfl
    exact encodedPacketPassesTheCheck State.reset i hc hw
  refine ⟨decoded _ ?_ ?_, decoded _ ?_ ?_, decoded _ ?_ ?_, decoded _ ?_ ?_, decoded _ ?_ ?_, decoded _ ?_ ?_,
    passes .getVersion ?_ ?_, passes .jumpApp ?_ ?_, passes (.jumpAddr 0x20000100#32) ?_ ?_, passes .erase ?_ ?_,
    passes (.write 0x08008000#32 [0xDE#8, 0xAD#8, 0xBE#8, 0xEF#8]) ?_ ?_, passes (.read 0x08008000#32 0x01#8) ?_ ?_⟩ <;>
    decide +kernel

end Sys2Proof.Machine
end

section
/-! PROOFS. The invariant (spec 44_flash_controller.md R245 to R248; 60_exceptions.md R309): every step goes on to a state that meets it, or is
the UNMAPPED_ACCESS of a READ or a WRITE; so does every other move, a power cycle at any place among them. -/

namespace Sys2Proof.Safety

open Sys2Proof.Machine

variable {s t : State}

/-! ### What the invariant gives -/

/-- A state in which no handler is held: the FMC is at rest. -/
theorem Inv.atRest (h : Inv s) (hpos : s.pos = .start) : FmcAtRest s.fmc := by
  have hheld := h.held
  rwa [hpos] at hheld

theorem Inv.pos_eq_start {p : Phase} (h : Inv s) (hp : s.phase = p) (hne : p ≠ .dispatched) : s.pos = .start :=
  h.pos_start (hp ▸ hne)

theorem Inv.periph_of {p : Phase} (h : Inv s) (hp : s.phase = p) (hne : p ≠ .transferred) :
    s.periph = { clocks := true, transport := true, checksum := true } :=
  h.periph_on (hp ▸ hne)

/-- The framer's changes, of the buffer, the length, the phase, the port and the draws, keep the invariant when what they leave in the buffer
fits it. -/
theorem Inv.framed {p : Phase} (h : Inv s) (hp : s.phase = p) (hidle : p ≠ .dispatched) (hrun : p ≠ .transferred) (hcfg : t.cfg = s.cfg)
    (hfaulted : t.faulted = s.faulted) (hmem : t.mem = s.mem) (hfmc : t.fmc = s.fmc) (hpos : t.pos = .start)
    (hperiph : t.periph = s.periph) (hbuf : t.buf.length = s.cfg.rxCap)
    (hfits : t.phase = .payloadReceived → t.dp.n.toNat < s.cfg.rxCap) : Inv t where
  cfg_ok := hcfg ▸ h.cfg_ok
  not_faulted := hfaulted.trans h.not_faulted
  mem_wf := by rw [hcfg, hmem]; exact h.mem_wf
  buf_cap := by rw [hbuf, hcfg]
  reserved := hfmc ▸ h.reserved
  held := by rw [hpos, hfmc]; exact h.atRest (h.pos_eq_start hp hidle)
  pos_start := fun _ => hpos
  fits := by rwa [hcfg]
  periph_on := fun _ => hperiph.trans (h.periph_of hp hrun)

/-- All a power cycle needs of a state: its configuration and its memory. -/
abbrev Cyclable (s : State) : Prop := cfgWf s.cfg = true ∧ Memory.wf s.cfg s.mem

theorem Inv.cyclable (h : Inv s) : Cyclable s := ⟨h.cfg_ok, h.mem_wf⟩

/-- The policy for failed sends is no part of what R9 asks of a configuration, nor of where memory is. -/
theorem Cyclable.setPolicy (h : Cyclable s) (p : SendFailPolicy) (host : HostPort) (faulted : Bool) (env : Env) :
    Cyclable { s with cfg := { s.cfg with sendFailPolicy := p }, host := host, faulted := faulted, env := env } := h

theorem Inv.setPolicy (h : Inv s) (p : SendFailPolicy) (env : Env) :
    Inv { s with cfg := { s.cfg with sendFailPolicy := p }, env := env } where
  cfg_ok := h.cfg_ok
  not_faulted := h.not_faulted
  mem_wf := h.mem_wf
  buf_cap := h.buf_cap
  reserved := h.reserved
  held := by
    have hheld := h.held
    revert hheld
    cases s.pos <;> exact id
  pos_start := h.pos_start
  fits := h.fits
  periph_on := h.periph_on

end Sys2Proof.Safety

namespace Sys2Proof.Machine

open Sys2Proof.Safety

variable {s t : State}

/-! ### Outside a handler -/

theorem clearBuf_length : (clearBuf s).buf.length = s.cfg.rxCap := List.length_replicate

theorem receiveLength_keeps (h : Inv s) (hp : s.phase = .idle) : Inv (receiveLength s) := by
  have hpos := h.pos_eq_start hp (by decide)
  have hcap := cfgWf_cap h.cfg_ok
  rcases recv_conditions s 1 with ⟨-, k, r, hr⟩ | ⟨hu, hl⟩ | ⟨hu, hl⟩
  · rw [receiveLength_fail hr]
    exact h.framed hp (by decide) (by decide) rfl rfl rfl rfl rfl rfl clearBuf_length (nomatch ·)
  · obtain ⟨n, rest, hi⟩ := List.exists_cons_of_length_pos hl
    rw [receiveLength_deliver hi (hu Nat.one_ne_zero)]
    refine h.framed hp (by decide) (by decide) rfl rfl rfl rfl hpos rfl ?_ (nomatch ·)
    rw [List.length_cons, List.length_replicate]
    omega
  · rw [receiveLength_wait (List.length_eq_zero_iff.mp (Nat.lt_one_iff.mp hl)) hu]
    exact h.framed hp (by decide) (by decide) rfl rfl rfl rfl hpos rfl clearBuf_length fun hr => absurd (hp.symm.trans hr) (by decide)

theorem receiveBody_keeps (h : Inv s) (hp : s.phase = .lengthReceived) : Inv (receiveBody s) := by
  have hpos := h.pos_eq_start hp (by decide)
  have hcap := cfgWf_cap h.cfg_ok
  have habort : ∀ (u : State) (c : Cause), u.cfg = s.cfg → u.faulted = s.faulted → u.mem = s.mem → u.fmc = s.fmc →
      u.periph = s.periph → u.buf = s.buf → Inv (u.abort c) := fun u c h1 h2 h3 h4 h5 h6 =>
    h.framed hp (by decide) (by decide) h1 h2 h3 h4 rfl h5 ((congrArg List.length h6).trans h.buf_cap) (nomatch ·)
  rcases recv_conditions s s.dp.n.toNat with ⟨h0, k, r, hr⟩ | ⟨hu, hl⟩ | ⟨hu, hl⟩
  · rw [receiveBody_fail h0 hr]
    exact habort _ _ rfl rfl rfl rfl rfl rfl
  · rw [receiveBody_deliver hu hl]
    split
    · exact habort _ _ rfl rfl rfl rfl rfl rfl
    · next hn =>
      refine h.framed hp (by decide) (by decide) rfl rfl rfl rfl hpos rfl ?_ fun _ => Nat.not_le.mp hn
      have hlen : (s.host.inp.take s.dp.n.toNat).length = s.dp.n.toNat := List.length_take_of_le hl
      have hbuf := h.buf_cap
      exact (storeBody_length (by omega)).trans hbuf
  · rw [receiveBody_wait hu hl]
    exact h

/-! ### Commands -/

section Commands

variable {F : Fault → Prop}

theorem AtRest.transferred (h : AtRest s) (msp : Option Word) (target : Word) : Inv (transfer msp target s) :=
  ⟨h.1.cfg_ok, h.1.not_faulted, h.1.mem_wf, h.1.buf_cap, h.2.2, h.2.1, fun _ => rfl, (nomatch ·), fun hn => absurd rfl hn⟩

theorem AtRest.deinitTransfer (h : AtRest s) (msp : Option Word) (target : Word) : Inv (transfer msp target (deinitialise s)) := by
  rw [transfer_deinitialise]
  exact ⟨h.1.cfg_ok, h.1.not_faulted, h.1.mem_wf, h.1.buf_cap, h.2.2, h.2.1, fun _ => rfl, (nomatch ·), fun hn => absurd rfl hn⟩

theorem infoReply_keeps (payload : List Byte) (h : AtRest s) : (infoReply payload s).Meets (fun _ t => Inv t) Inv F :=
  (checksumPrologue_keeps _ h).bind fun _ _ h => (send_keeps _ h).bind fun _ _ h => (send_keeps _ h).bind fun _ _ h => h.finish

theorem jumpAppEntry_keeps (h : AtRest s) : (jumpAppEntry s).Meets (fun _ t => Inv t) Inv F := by
  refine (memRead_keeps_valid h (appBase_words_valid h.1.cfg_ok).2).bind fun w t ht => ?_
  subst ht
  have h' : AtRest (t.setDataWord w) := h.frame rfl rfl rfl rfl rfl rfl rfl
  exact h'.deinitTransfer _ _

theorem jumpAppMsp_keeps (h : AtRest s) : (jumpAppMsp s).Meets (fun _ t => Inv t) Inv F := by
  refine (memRead_keeps_valid h (appBase_words_valid h.1.cfg_ok).1).bind fun w t ht => ?_
  subst ht
  exact jumpAppEntry_keeps (h.frame rfl rfl rfl rfl rfl rfl rfl)

theorem eraseTail_keeps (st : Status) (h : AtRest s) : (eraseTail st s).Meets (fun _ t => Inv t) Inv F := by
  have h' : AtRest (s.setStatus st) := h.frame rfl rfl rfl rfl rfl rfl rfl
  unfold eraseTail
  split
  · exact h'.finish
  · exact h'.abort _

theorem writeTail_keeps (st : Status) (h : AtRest s) : (writeTail st s).Meets (fun _ t => Inv t) Inv F := by
  have h' : AtRest (s.setStatus st) := h.frame rfl rfl rfl rfl rfl rfl rfl
  unfold writeTail
  split
  · exact (send_keeps _ h').bind fun _ _ h => h.finish
  · exact (send_keeps _ h').bind fun _ _ h => h.abort _

/-- A flow that ends every step in a state that meets the invariant, and faults as `F` allows, as a step's outcome. -/
theorem outcome_keeps {x : Flow Unit} (h : x.Meets (fun _ t => Inv t) Inv F) :
    (∃ t, x.outcome = .next t ∧ Inv t) ∨ ∃ f, x.outcome = .fault f ∧ F f :=
  h.outcome (fun _ h => h) fun _ h => h

/-- The commands whose ranges are not checked beyond their start (R73). -/
abbrev RangeCommand (i : Instr) : Prop := (∃ a d, i = .write a d) ∨ ∃ a c, i = .read a c

/-- A command run with the FMC at rest ends in a state that meets the invariant, or is the UNMAPPED_ACCESS of a READ or a WRITE. -/
theorem exec_keeps (i : Instr) (h : AtRest s) :
    (∃ t, exec i s = .next t ∧ Inv t) ∨ ∃ f, exec i s = .fault f ∧ Unmapped f ∧ RangeCommand i := by
  cases i with
  | getVersion => exact outcome_keeps (infoReply_keeps _ h)
  | getHelp => exact outcome_keeps (infoReply_keeps _ h)
  | getCid => exact outcome_keeps (infoReply_keeps _ h)
  | getRdp => exact outcome_keeps (infoReply_keeps _ h)
  | jumpApp =>
    exact outcome_keeps ((checksumPrologue_keeps _ h).bind fun _ _ h => (send_keeps _ h).bind fun _ _ h => jumpAppMsp_keeps h)
  | jumpAddr a =>
    refine outcome_keeps ((checksumPrologue_keeps _ h).bind fun _ _ h => (send_keeps _ h).bind fun _ u h => ?_)
    have h' : AtRest (u.setAddr a) := h.frame rfl rfl rfl rfl rfl rfl rfl
    split
    · exact h'.abort _
    · exact h'.transferred _ _
  | erase =>
    exact outcome_keeps ((checksumPrologue_keeps _ h).bind fun _ _ h => (send_keeps _ h).bind fun _ _ h =>
      (eraseAppSector_keeps h).bind fun st _ h => eraseTail_keeps st h)
  | write a data =>
    refine outcome_keeps ((checksumPrologue_keeps _ h).bind fun _ u h => ?_)
    have h' : AtRest (u.setAddr a) := h.frame rfl rfl rfl rfl rfl rfl rfl
    dsimp only
    split
    · exact (send_keeps _ h').bind fun _ _ h => h.abort _
    · refine (send_keeps _ h').bind fun _ v h => ?_
      have hd : AtRest (v.setDlen data.length) := h.frame rfl rfl rfl rfl rfl rfl rfl
      exact ((programRange_keeps _ hd).mono (fun _ _ h => h) (fun _ h => h) fun _ hf => ⟨hf, .inl ⟨a, data, rfl⟩⟩).bind fun st _ h =>
        writeTail_keeps st h
  | read a count =>
    refine outcome_keeps ((checksumPrologue_keeps _ h).bind fun _ u h => ?_)
    have h' : AtRest ((u.setAddr a).setCount count) := h.frame rfl rfl rfl rfl rfl rfl rfl
    dsimp only
    split
    · exact (send_keeps _ h').bind fun _ v h =>
        AtRest.abort (s := debugNote v) (h.frame rfl rfl rfl rfl rfl rfl rfl) _
    · exact (send_keeps _ h').bind fun _ _ h =>
        ((readLoop_keeps _ _ h).mono (fun _ _ h => h) (fun _ h => h) fun _ hf => ⟨hf, .inr ⟨a, count, rfl⟩⟩).bind fun _ _ h => h.finish

end Commands

/-! ### The step -/

/-- What a step that faults was about to run: a READ or a WRITE in the buffer, or a WRITE held in a program (R309). -/
abbrev RangeStep (s : State) : Prop :=
  (s.phase = .payloadReceived ∨ s.phase = .dispatched) ∧
  ((∃ a d, decodeBuf s.cfg s.dp.n s.buf = .ok (.write a d)) ∨ (∃ a c, decodeBuf s.cfg s.dp.n s.buf = .ok (.read a c)) ∨
    ∃ ws, s.pos = .programDone ws)

/-- An outcome that keeps the invariant, but for the UNMAPPED_ACCESS of a READ or a WRITE. -/
def Kept (s : State) (x : Host.Outcome State Fault Refusal) : Prop :=
  (∃ t, x = .next t ∧ Inv t) ∨ ∃ f, x = .fault f ∧ Unmapped f ∧ RangeStep s

theorem dispatchPacket_keeps (h : Inv s) (hp : s.phase = .payloadReceived ∨ s.phase = .dispatched) (hpos : s.pos = .start) :
    Kept s (dispatchPacket s) := by
  have hon : s.periph = { clocks := true, transport := true, checksum := true } := by
    rcases hp with hp | hp <;> exact h.periph_of hp (by decide)
  have hd : AtRest (dispatched s) :=
    ⟨⟨h.cfg_ok, h.not_faulted, h.mem_wf, h.buf_cap, rfl, hon⟩, h.atRest hpos, h.reserved⟩
  have habort : ∀ c, Inv (s.abort c) := fun c =>
    ⟨h.cfg_ok, h.not_faulted, h.mem_wf, h.buf_cap, h.reserved, h.atRest hpos, fun _ => rfl, (nomatch ·), fun _ => hon⟩
  unfold dispatchPacket
  cases hdec : decodeBuf s.cfg s.dp.n s.buf with
  | ok i =>
    rcases exec_keeps i hd with ⟨t, ht, hinv⟩ | ⟨f, hf, hu, ⟨a, d, rfl⟩ | ⟨a, c, rfl⟩⟩
    · exact .inl ⟨t, ht, hinv⟩
    · exact .inr ⟨f, hf, hu, hp, .inl ⟨a, d, hdec⟩⟩
    · exact .inr ⟨f, hf, hu, hp, .inr (.inl ⟨a, c, hdec⟩)⟩
  | error e =>
    cases e with
    | truncated => exact .inl ⟨_, rfl, habort _⟩
    | oversize n => exact .inl ⟨_, rfl, habort _⟩
    | undersize n => exact .inl ⟨_, rfl, habort _⟩
    | unrecognizedOpcode op => exact .inl ⟨_, rfl, hd.abort _⟩

/-- A held handler stands in one of the two waits that hold, or at its first line (R248). -/
theorem resumeHandler_keeps (h : Inv s) (hp : s.phase = .dispatched) : Kept s (resumeHandler s) := by
  have hin : InHandler s := ⟨h.cfg_ok, h.not_faulted, h.mem_wf, h.buf_cap, hp, h.periph_of hp (by decide)⟩
  have hheld := h.held
  unfold resumeHandler
  cases hpos : s.pos with
  | start => exact dispatchPacket_keeps h (.inr hp) hpos
  | eraseDone =>
    rw [hpos] at hheld
    exact .inl ((outcome_keeps (F := fun _ => False) ((eraseFinish_keeps hin hheld h.reserved).bind fun st _ h =>
      eraseTail_keeps st h)).resolve_right fun ⟨_, _, hf⟩ => hf)
  | programDone ws =>
    rw [hpos] at hheld
    exact (outcome_keeps ((programResume_keeps hin hheld h.reserved).bind fun st _ h => writeTail_keeps st h)).imp_right
      fun ⟨f, hf, hu⟩ => ⟨f, hf, hu, .inr hp, .inr (.inr ⟨ws, hpos⟩)⟩
  | eraseIdle | programIdle _ | readWord _ | jumpMsp | jumpEntry =>
    rw [hpos] at hheld
    exact hheld.elim

theorem cycleStep_keeps (h : Inv s) : Kept s (cycleStep s) := by
  unfold cycleStep
  cases hp : s.phase with
  | idle => exact .inl ⟨_, rfl, receiveLength_keeps h hp⟩
  | lengthReceived => exact .inl ⟨_, rfl, receiveBody_keeps h hp⟩
  | payloadReceived => exact dispatchPacket_keeps h (.inl hp) (h.pos_eq_start hp (by decide))
  | dispatched => exact resumeHandler_keeps h hp
  | responded =>
    exact .inl ⟨_, rfl, h.framed hp (by decide) (by decide) rfl rfl rfl rfl (h.pos_eq_start hp (by decide)) rfl h.buf_cap (nomatch ·)⟩
  | transferred => exact .inl ⟨_, rfl, h⟩

theorem step_keeps (h : Inv s) : Kept s (step s) := step_running h.not_faulted h.cfg_ok ▸ cycleStep_keeps h

/-! ### The FMC's own step -/

theorem fmcComplete_keeps (h : Inv s) (ho : s.fmc.op ≠ .noOp) (d : Word) : Inv (fmcComplete d s) := by
  have hfr := fmcComplete_framed s d
  have hfmc := fmcComplete_fmc d s
  have hpos : (fmcComplete d s).pos = s.pos := (congrArg State.pos (completeOp_frame (d &&& errMask == 0#32) s.fmc.op s) :)
  have hflags : (d &&& errMask) &&& ~~~errMask = 0#32 := by rw [BitVec.and_assoc, BitVec.and_not_self]; exact BitVec.and_zero
  have hheld := h.held
  refine ⟨?_, ?_, ?_, ?_, ⟨?_, ?_⟩, ?_, ?_, ?_, ?_⟩
  · rw [hfr.cfg]; exact h.cfg_ok
  · rw [hfr.faulted]; exact h.not_faulted
  · rw [hfr.cfg]; exact completeOp_wf _ _ h.mem_wf
  · rw [hfr.cfg, hfr.buf]; exact h.buf_cap
  · rw [hfmc]
    show (s.fmc.sr ||| (d &&& errMask)) &&& ~~~errMask = 0#32
    rw [BitVec.and_or_distrib_right, h.reserved.1, hflags, BitVec.or_zero]
  · rw [hfmc]; exact h.reserved.2
  · rw [hfr.cfg, hpos, hfmc]
    cases hp : s.pos with
    | start => rw [hp] at hheld; exact absurd hheld.1 ho
    | eraseDone => rw [hp] at hheld; exact ⟨.inl rfl, hheld.2⟩
    | programDone ws => rw [hp] at hheld; exact ⟨.inl rfl, hheld.2⟩
    | eraseIdle | programIdle _ | readWord _ | jumpMsp | jumpEntry =>
      rw [hp] at hheld
      exact hheld.elim
  · rw [hfr.phase, hpos]; exact h.pos_start
  · rw [hfr.phase, hfr.cfg, hfr.dp]; exact h.fits
  · rw [hfr.phase, hfr.periph]; exact h.periph_on

/-! ### Power cycles -/

/-- The FMC after reset (R52). -/
abbrev resetFmc : Fmc := { lockst := .lockedK1, op := .noOp, sr := 0#32, cr := 0#32 }

theorem resetFmc_reads : resetFmc.readSr = 0#32 ∧ resetFmc.readCr = 0x80000000#32 := by decide

/-- The values of the reset table meet the invariant, whatever stands in flash, the port and the environment (R52). -/
theorem reset_inv {cfg : Cfg} {flash : Memory} (hc : cfgWf cfg = true) (hm : Memory.wf cfg flash) (host : HostPort) (env : Env)
    (epoch : Nat) : Inv { State.resetWith cfg flash with host := host, env := env, epoch := epoch } where
  cfg_ok := hc
  not_faulted := rfl
  mem_wf := hm
  buf_cap := List.length_replicate
  reserved := by show FmcReservedZero resetFmc; decide
  held := by show FmcAtRest resetFmc; decide
  pos_start := fun _ => rfl
  fits := (nomatch ·)
  periph_on := fun _ => rfl

theorem powerCycle_inv (h : Cyclable s) : Inv (powerCycle s) :=
  reset_inv h.1 (Memory.drop_wf _ (completeOp_wf _ _ h.2)) _ _ _

/-- Wherever power fails inside a step, memory is in its canonical form: the cut is the step of a state that meets the invariant, under
ABORT, or the state of its fault. -/
theorem stepToSend_cyclable (h : Inv s) (ds : List SendDraw) (j m : Nat) : Cyclable (stepToSend ds j m s) := by
  unfold stepToSend
  dsimp only
  rcases cycleStep_keeps (h.setPolicy .abort _) with ⟨t, ht, hinv⟩ | ⟨f, hf, ⟨u, rfl, hu⟩, -⟩
  · rw [ht]
    exact hinv.cyclable.setPolicy _ _ _ _
  · rw [hf]
    exact Cyclable.setPolicy hu _ _ _ _

theorem powerCycleInside_inv (h : Inv s) (ds : List SendDraw) (j m : Nat) (early : Bool) : Inv (powerCycleInside ds j m early s) := by
  have hcut : Cyclable (if s.faulted then s else stepToSend ds j m s) := by
    split
    · exact h.cyclable
    · exact stepToSend_cyclable h ds j m
  refine powerCycle_inv ?_
  split
  · exact hcut
  · exact hcut

/-! ### The obligations -/

/-- Settles O58: the one answer of a step that is a next state keeps the invariant. -/
theorem everyStepKeepsTheInvariant : Obligations.EveryStepKeepsTheInvariant := by
  intro s t h ht
  rcases step_keeps h with ⟨u, hu, hinv⟩ | ⟨f, hf, -⟩
  · obtain rfl : u = t := Host.Outcome.next.inj (hu.symm.trans ht)
    exact hinv
  · cases hf.symm.trans ht

/-- Settles O59: the invariant does not speak of the port and the draws, which the host and a listed completion change; the FMC's completion
leaves a held wait as its position says; and a power cycle needs the configuration and memory alone. -/
theorem everyMoveKeepsTheInvariant : Obligations.EveryMoveKeepsTheInvariant := by
  intro s t h hmove
  cases hmove with
  | step hl ht => exact everyStepKeepsTheInvariant s t h ht
  | hostSends hl bs => exact ⟨h.1, h.2, h.3, h.4, h.5, h.6, h.7, h.8, h.9⟩
  | hostChoosesRecv hl d => exact ⟨h.1, h.2, h.3, h.4, h.5, h.6, h.7, h.8, h.9⟩
  | hostChoosesSend hl d => exact ⟨h.1, h.2, h.3, h.4, h.5, h.6, h.7, h.8, h.9⟩
  | fmcWillComplete hl d => exact ⟨h.1, h.2, h.3, h.4, h.5, h.6, h.7, h.8, h.9⟩
  | fmcCompletes hl ho d => exact fmcComplete_keeps h ho d
  | powerCycle => exact powerCycle_inv h.cyclable
  | powerCycleInside hl ds j m early => exact powerCycleInside_inv h ds j m early

/-- Settles O60: the one other answer of a step is the fault of a READ or a WRITE. -/
theorem onlyReadAndWriteCanFault : Obligations.OnlyReadAndWriteCanFault := by
  intro s h
  rcases step_keeps h with ⟨t, ht, -⟩ | ⟨f, hf, ⟨u, rfl, -⟩, hrange⟩
  · exact .inl ⟨t, ht⟩
  · exact .inr ⟨⟨u, hf⟩, hrange⟩

/-- Settles O57: `reset_inv`, with the values of the reset table. -/
theorem invariantHoldsAtReset : Obligations.InvariantHoldsAtReset :=
  fun _ _ hc hm => ⟨reset_inv hc hm _ _ _, rfl, rfl, rfl, rfl, rfl, rfl, rfl, rfl, resetFmc_reads.1, resetFmc_reads.2⟩

end Sys2Proof.Machine
end

section
/-! PROOFS. The Checksum Engine (spec 40_checksum.md): an input byte's 32 rounds as four input bytes of 8 rounds (R135), and the one byte of a
packet that a flipped bit changes (R136). -/

namespace Sys2Proof.Machine

/-! ### The 8-round CRC (R135) -/

/-- The standard CRC's input byte: XORed into the high lane, then 8 rounds. -/
def crcFeed (r : Word) (b : Byte) : Word := crcRounds 8 (crcInput .high r b)

/-- A zero byte is 8 rounds and nothing else. -/
theorem crcFeed_zero (r : Word) : crcFeed r 0#8 = crcRounds 8 r := by
  have h : (0#8).setWidth 32 <<< 24 = 0#32 := by decide
  rw [crcFeed, crcInput, h, BitVec.xor_zero]

/-- One byte of R131 is that byte and three zero bytes of the standard CRC. -/
theorem crcByte_eq_feeds (r : Word) (b : Byte) : crcByte .high r b = [b, 0#8, 0#8, 0#8].foldl crcFeed r := by
  simp only [List.foldl_cons, List.foldl_nil, crcFeed_zero]
  rw [crcByte, crcFeed, ← crcRounds_add, ← crcRounds_add, ← crcRounds_add]

theorem foldl_crcByte_eq_feeds (bs : List Byte) (r : Word) :
    bs.foldl (crcByte .high) r = (bs.flatMap fun b => [b, 0#8, 0#8, 0#8]).foldl crcFeed r := by
  induction bs generalizing r with
  | nil => rfl
  | cons b bs ih => rw [List.foldl_cons, ih, List.flatMap_cons, List.foldl_append, crcByte_eq_feeds]

/-- The round of R131 looks at bit 31. -/
theorem crcRound_eq (r : Word) : crcRound r = if r.getLsbD 31 = true then (r <<< 1) ^^^ 0x04C11DB7#32 else r <<< 1 := by
  rw [crcRound, BitVec.msb_eq_getLsbD_last]

/-! ### One byte of a packet (R103, R134, R136) -/

section Packet

variable {cfg : Cfg} {n k : Nat} {buf : List Byte} {b : Byte}

theorem coveredBytes_length : (coveredBytes cfg n buf).length = n - 3 := by simp [coveredBytes]

theorem coveredBytes_getElem {j : Nat} (h : j < (coveredBytes cfg n buf).length) :
    (coveredBytes cfg n buf)[j] = bufByte cfg buf j := by simp [coveredBytes]

/-- A byte of the buffer changed is that byte of the covered ones changed, where it is one of them. -/
theorem coveredBytes_set (hk : k < buf.length) : coveredBytes cfg n (buf.set k b) = (coveredBytes cfg n buf).set k b := by
  apply List.ext_getElem
  · simp [coveredBytes_length]
  · intro j hj _
    rw [coveredBytes_getElem, List.getElem_set, coveredBytes_getElem, bufByte_set hk]
    simp only [eq_comm]

/-- The checksum's four bytes stand behind the covered ones. -/
theorem receivedChecksum_set_of_covered (hk : k < buf.length) (h : k < n - 3) :
    receivedChecksum cfg n (buf.set k b) = receivedChecksum cfg n buf := by
  simp only [receivedChecksum, bufWord, bufByte_set hk]
  rw [if_neg (by omega), if_neg (by omega), if_neg (by omega), if_neg (by omega)]

/-- A changed byte of the four changes the received checksum. -/
theorem receivedChecksum_set_ne (hk : k < buf.length) (h : n - 3 ≤ k) (h' : k ≤ n) (hn : 3 ≤ n) (hb : b ≠ bufByte cfg buf k) :
    receivedChecksum cfg n (buf.set k b) ≠ receivedChecksum cfg n buf := by
  intro he
  have hj : ∀ j, j = n - 3 ∨ j = n - 3 + 1 ∨ j = n - 3 + 2 ∨ j = n - 3 + 3 → bufByte cfg (buf.set k b) j = bufByte cfg buf j := by
    obtain ⟨h0, h1, h2, h3⟩ := be32_inj he
    rintro j (rfl | rfl | rfl | rfl) <;> assumption
  apply hb
  have := hj k (by omega)
  rwa [bufByte_set hk, if_pos rfl] at this

/-- A changed byte of the covered ones changes the computed checksum. -/
theorem packetChecksum_set_ne (hk : k < buf.length) (h : k < n - 3) {m : Byte} (hm : m ≠ 0#8) :
    packetChecksum cfg n (buf.set k (bufByte cfg buf k ^^^ m)) ≠ packetChecksum cfg n buf := by
  have hlt : k < (coveredBytes cfg n buf).length := by rw [coveredBytes_length]; exact h
  have hself : coveredBytes cfg n buf =
      (coveredBytes cfg n buf).take k ++ bufByte cfg buf k :: (coveredBytes cfg n buf).drop (k + 1) := by
    rw [← coveredBytes_getElem hlt, List.cons_getElem_drop_succ, List.take_append_drop]
  unfold packetChecksum
  rw [coveredBytes_set hk, List.set_eq_take_append_cons_drop, if_pos hlt]
  conv_rhs => rw [hself]
  exact checksum_byte_changed _ _ _ _ hm

end Packet

/-! ### The obligations -/

/-- Settles O6: each byte's 32 rounds are those of the byte and three zero bytes, 8 each. -/
theorem checksumIsMpeg2OfStuffedBytes : Obligations.ChecksumIsMpeg2OfStuffedBytes := by
  unfold Obligations.ChecksumIsMpeg2OfStuffedBytes
  intro round feed bs
  have hround : round = crcRound := funext fun r => (crcRound_eq r).symm
  have hfeed : feed = crcFeed := funext fun r => funext fun b => by
    simp only [feed, hround, crcFeed, crcRounds_succ]
    rfl
  rw [hfeed]
  exact foldl_crcByte_eq_feeds bs crcSeed

/-- Settles O7: the flipped bit is in a covered byte, and the computed checksum changes, or in one of the checksum's own, and the received one
changes; the other stays. -/
theorem singleBitErrorsAreDetected : Obligations.SingleBitErrorsAreDetected := by
  intro s k j hok hlow hcap _ hkn hj
  have hk : k < s.buf.length := by omega
  have hm : (1#8 <<< j : Byte) ≠ 0#8 := by interval_cases j <;> decide
  rw [State.checksumOk, beq_iff_eq] at hok
  rw [State.checksumOk, beq_eq_false_iff_ne]
  by_cases hcov : k < s.dp.n.toNat - 3
  · rw [receivedChecksum_set_of_covered hk hcov, ← hok]
    exact packetChecksum_set_ne hk hcov hm
  · have hsame : packetChecksum s.cfg s.dp.n.toNat (s.buf.set k (bufByte s.cfg s.buf k ^^^ 1#8 <<< j)) =
        packetChecksum s.cfg s.dp.n.toNat s.buf := by
      rw [packetChecksum, coveredBytes_set hk, List.set_eq_of_length_le (by rw [coveredBytes_length]; omega)]
      rfl
    rw [hsame, hok]
    exact (receivedChecksum_set_ne hk (by omega) hkn (by omega) (xor_ne_self hm)).symm

end Sys2Proof.Machine
end

section
/-! PROOFS. The framer and the dispatcher (spec 41_framer_dispatch.md R150 to R164; 70_reset_and_hazards.md R352): a packet from `host.in` to its
handler, the undersize packet, the hold in IDLE, and the two states in which no agent moves. -/

namespace Sys2Proof.Machine

open Sys2Proof.Safety

section Steps

variable {s : State} {i : Instr}

/-- A packet that decodes is run in the dispatched state (R156). -/
theorem dispatchPacket_ok (h : decodeBuf s.cfg s.dp.n s.buf = .ok i) : dispatchPacket s = exec i (dispatched s) := by
  simp only [dispatchPacket, h]

/-- In TRANSFERRED the step leaves the state as it is (R203). -/
theorem step_transferred (hf : s.faulted = false) (hc : cfgWf s.cfg = true) (hp : s.phase = .transferred) : step s = .next s := by
  rw [step_running hf hc, cycleStep, hp]

theorem step_faulted (hf : s.faulted = true) : step s = .fault (.halted s) := by
  rw [step, if_pos hf]

/-- Behind the length byte of a well-formed command's nominal packet its opcode stands in the buffer (R104). -/
theorem bufByte_sealed_opcode {cfg : Cfg} {n op : Byte} {payload : List Byte} :
    bufByte cfg (receivedBuf cfg n (sealedTail cfg op payload)) 1 = op := rfl

/-- The packet in the buffer decodes to its command (R120, R156). -/
theorem decodeBuf_sealed {cfg : Cfg} (hc : cfgWf cfg = true) (hw : i.wf cfg = true) {n : Byte}
    (hn : n = BitVec.ofNat 8 ((payloadOf i).length + 5)) :
    decodeBuf cfg n (receivedBuf cfg n (sealedTail cfg (opcodeOf cfg i) (payloadOf i))) = .ok i := by
  have hlen : n.toNat = (payloadOf i).length + 5 := hn ▸ nominalN_toNat hw
  obtain ⟨-, hcap⟩ := wf_bounds hw
  rw [decodeBuf_legal (by omega) (by omega), bufByte_sealed_opcode]
  exact decodeOpcode_sealed hc hw hn

end Steps

/-! ### The obligations -/

/-- Settles O9: in PAYLOAD_RECEIVED the step is the dispatch. -/
theorem stepRunsTheDecodedCommand : Obligations.StepRunsTheDecodedCommand :=
  fun _ _ hf hc hp hd => (step_payloadReceived hf hc hp).trans (dispatchPacket_ok hd)

/-- Settles O10: the length byte and then the sealed rest of the packet are delivered, and what stands in the buffer decodes to the command. -/
theorem packetFromTheHostRuns : Obligations.PacketFromTheHostRuns := by
  intro s i rest hf hc hw hp hpos hr hi
  let n : Byte := BitVec.ofNat 8 ((payloadOf i).length + 5)
  let tail := sealedTail s.cfg (opcodeOf s.cfg i) (payloadOf i)
  have hn : n.toNat = (payloadOf i).length + 5 := nominalN_toNat hw
  have hlen : tail.length = n.toNat := by rw [hn]; exact sealedTail_length ..
  obtain ⟨-, hcap⟩ := wf_bounds hw
  let s₁ : State := { s with
    phase := .lengthReceived, buf := n :: List.replicate (s.cfg.rxCap - 1) s.cfg.rxSentinel, dp := { s.dp with n := n },
    host := { s.host with inp := tail ++ rest } }
  let s₂ : State := { s₁ with
    phase := .payloadReceived, buf := receivedBuf s.cfg n tail, host := { s₁.host with inp := rest } }
  have h₁ : step s = .next s₁ := by
    rw [step_idle hf hc hp, receiveLength_pending (n := n) (rest := tail ++ rest) hi hr]
  have h₂ : step s₁ = .next s₂ := by
    rw [step_lengthReceived (s := s₁) hf hc rfl, receiveBody_pending (s := s₁) rfl hlen (by show n.toNat ≠ 0; omega)
      (by show n.toNat < s.cfg.rxCap; omega) hr, storeBody_cleared]
  have hstep : step s₂ = exec i (dispatched s₂) :=
    (step_payloadReceived (s := s₂) hf hc rfl).trans (dispatchPacket_ok (decodeBuf_sealed hc hw rfl))
  refine ⟨s₁, s₂, h₁, h₂, ?_⟩
  have hu : dispatched s₂ = { s with
      phase := .dispatched, buf := receivedBuf s.cfg n tail, dp := { s.dp with n := n, op := opcodeOf s.cfg i },
      host := { s.host with inp := rest } } := by rw [hpos]; rfl
  rw [nominalN_eq]
  exact ⟨hstep.trans (congrArg (exec i) hu), checksumOk_sealed hw rfl rfl⟩

/-- Settles O14: RX_CAP is at least 10, so a length below 5 is undersize and not oversize. -/
theorem undersizePacketAborts : Obligations.UndersizePacketAborts := by
  intro s hf hc hp hn
  have hcap := cfgWf_cap hc
  have hd : decodeBuf s.cfg s.dp.n s.buf = .error (.undersize s.dp.n) := by
    rw [decodeBuf, if_neg (by omega), if_pos hn]
  rw [step_payloadReceived hf hc hp, dispatchPacket, hd]
  rfl

/-- Settles O16: with no byte pending and no failure chosen the `Recv` waits, and clearing a cleared buffer changes nothing. -/
theorem idleWithoutInputHolds : Obligations.IdleWithoutInputHolds := by
  intro s hf hc hp hi hr t
  have hu : s.RecvUnfailed := fun k r h => nomatch hr.symm.trans h
  have hs : step s = .next t := by rw [step_idle hf hc hp, receiveLength_wait hi hu]; rfl
  have ht : step t = .next t := by rw [step_idle (s := t) hf hc hp, receiveLength_wait (s := t) hi hu]; rfl
  exact ⟨hs, ht⟩

/-- Settles O17: every move of an agent asks for a live state; and the cut of a power cycle inside a step asks for one too. -/
theorem endedRunsTakeNoStep : Obligations.EndedRunsTakeNoStep := by
  intro s
  refine ⟨step_faulted, step_transferred, fun hend t hmove => ?_⟩
  have hdead : ¬ Live s := by
    rintro ⟨hf, hp⟩
    rcases hend with h | h
    · cases hf.symm.trans h
    · exact hp h
  cases hmove with
  | powerCycle => rfl
  | step hl | hostSends hl | hostChoosesRecv hl | hostChoosesSend hl | fmcWillComplete hl | fmcCompletes hl
  | powerCycleInside hl => exact absurd hl hdead

end Sys2Proof.Machine
end

section
/-! PROOFS. The other three information commands (spec 42_info_commands.md R182 to R186): the shared reply with the payload of each. -/

namespace Sys2Proof.Machine

/-- The chip identifier's bytes by their values: the low one, and bits 11..8 (R184). -/
theorem chipIdBytes_eq (cfg : Cfg) : ∃ hi : Byte, hi.toNat = cfg.chipId.toNat / 256 % 16 ∧
    chipIdBytes cfg = [BitVec.ofNat 8 cfg.chipId.toNat, hi] := by
  refine ⟨(cfg.chipId.extractLsb' 8 4).setWidth 8, ?_, ?_⟩
  · simp [BitVec.extractLsb'_toNat, Nat.shiftRight_eq_div_pow]
    omega
  · rw [chipIdBytes]
    congr 1

/-! ### The obligations -/

/-- Settles O22: the payload is the list. -/
theorem getHelpReplies : Obligations.GetHelpReplies :=
  fun _ _ hk hs => congrArg Flow.outcome (infoReply_good_eq hk hs)

/-- Settles O23: the payload is the two bytes of `chipIdBytes`. -/
theorem getCidReplies : Obligations.GetCidReplies := by
  intro s ds hk hs
  obtain ⟨hi, hval, hbytes⟩ := chipIdBytes_eq s.cfg
  refine ⟨hi, hval, ?_⟩
  have hreply := infoReply_good_eq (payload := chipIdBytes s.cfg) hk hs
  rw [hbytes] at hreply
  exact (congrArg (fun p => (infoReply p s).outcome) hbytes).trans (congrArg Flow.outcome hreply)

/-- Settles O24: the payload is the one protection byte. -/
theorem getRdpReplies : Obligations.GetRdpReplies :=
  fun _ _ hk hs => congrArg Flow.outcome (infoReply_good_eq hk hs)

end Sys2Proof.Machine
end

section
/-! PROOFS. The flash memory controller (spec 44_flash_controller.md R224 to R242): the three ways of a `CR` write, the start of an erase, the
completions, and the Flash Programmer's `WaitIdle` and `Unlock`. -/

namespace Sys2Proof.Machine

open Sys2Proof.Safety

variable {s : State} {v : Word}

/-! ### Fields of `CR` by their bits (R46) -/

theorem hasBits_crMer (r : Word) : hasBits r crMer = r.getLsbD 2 := hasBits_twoPow r (k := 2) (by decide)
theorem hasBits_crStrt (r : Word) : hasBits r crStrt = r.getLsbD 16 := hasBits_twoPow r (k := 16) (by decide)
theorem hasBits_crLock (r : Word) : hasBits r crLock = r.getLsbD 31 := hasBits_twoPow r (k := 31) (by decide)

/-- A stored bit of `CR` is the bit written. -/
theorem getLsbD_and_crStored {k : Nat} (hk : crStored.getLsbD k = true) (r : Word) : (r &&& crStored).getLsbD k = r.getLsbD k := by
  rw [BitVec.getLsbD_and, hk, Bool.and_true]

/-- SNB is stored whole. -/
theorem snbOf_and_crStored (r : Word) : snbOf (r &&& crStored) = r.toNat / 8 % 16 := by
  have h : (r &&& crStored).extractLsb' 3 4 = r.extractLsb' 3 4 := by
    rw [BitVec.extractLsb'_and, show crStored.extractLsb' 3 4 = BitVec.allOnes 4 by decide, BitVec.and_allOnes]
  rw [snbOf, h, BitVec.extractLsb'_toNat, Nat.shiftRight_eq_div_pow]

/-! ### Writes of `CR` by their three conditions (R224 to R227) -/

theorem writeCr_busy (ho : s.fmc.op ≠ .noOp) : writeCr v s = .fault (s.raise .undefinedFmcAccess) := by
  rw [writeCr, if_pos (Fmc.busy_eq_true.mpr ho)]

theorem writeCr_locked (ho : s.fmc.op = .noOp) (hl : s.fmc.lockst ≠ .unlocked) :
    writeCr v s = .go () (s.setFmc (lockOnly v s.fmc)) := by
  rw [writeCr, if_neg (ne_true_of_eq_false (Fmc.busy_eq_false.mpr ho)), if_pos (Fmc.locked_eq_true.mpr hl)]

theorem writeCr_unlocked (ho : s.fmc.op = .noOp) (hl : s.fmc.lockst = .unlocked) :
    writeCr v s =
      if v.getLsbD 16 then startErase (s.setFmc (storeCr v s.fmc)) else .go () (s.setFmc (storeCr v s.fmc)) := by
  rw [writeCr, if_neg (ne_true_of_eq_false (Fmc.busy_eq_false.mpr ho)), if_neg (ne_true_of_eq_false (Fmc.locked_eq_false.mpr hl)),
    hasBits_crStrt]

/-- What a write stores while unlocked: the fields, and the lock when bit 31 is 1 (R224, R226). -/
theorem storeCr_unlocked {f : Fmc} (hl : f.lockst = .unlocked) :
    storeCr v f = { f with cr := v &&& crStored, lockst := if v.getLsbD 31 = true then .lockedK1 else .unlocked } := by
  rw [storeCr, hasBits_crLock, hl]
  rfl

/-- STRT with SER alone, PG and MER being 0, selects the sector SNB; any other combination is undefined (R227). -/
theorem startErase_of_fields (n : Nat) (hn : snbOf s.fmc.cr = n) :
    startErase s =
      if s.fmc.cr.getLsbD 1 = true ∧ s.fmc.cr.getLsbD 0 = false ∧ s.fmc.cr.getLsbD 2 = false then
        if s.cfg.numSectors ≤ n then .fault (s.raise .undefinedFmcAccess)
        else if n ∈ s.cfg.wrpProtected then .go () (s.setFmc (s.fmc.raiseFlags srWrperr))
        else .go () (s.setFmc { s.fmc with op := .erase n })
      else .fault (s.raise .undefinedFmcAccess) := by
  simp only [startErase, hn, hasBits_crSer, hasBits_crPg, hasBits_crMer, Bool.and_eq_true, Bool.not_eq_true', and_assoc]

/-- An idle FMC reads its stored fields back, with LOCK as the lock stands (R231). -/
theorem readCr_stored {l : LockState} {sr : Word} (hl : l = if v.getLsbD 31 = true then .lockedK1 else .unlocked) :
    Fmc.readCr { lockst := l, op := .noOp, sr := sr, cr := v &&& crStored } = v &&& 0x8300037F#32 := by
  have hlock : (if Fmc.locked { lockst := l, op := .noOp, sr := sr, cr := v &&& crStored } then crLock else 0#32) = v &&& crLock := by
    rw [show crLock = BitVec.twoPow 32 31 by decide, BitVec.and_twoPow, hl]
    cases v.getLsbD 31 <;> rfl
  rw [Fmc.readCr_idle rfl, hlock, BitVec.and_assoc, BitVec.and_self, ← BitVec.and_or_distrib_left]
  rfl

/-! ### The obligations -/

/-- Settles O32: while locked the write is `lockOnly`, and LOCK moves LOCKED_K2 alone. -/
theorem crWriteWhileLocked : Obligations.CrWriteWhileLocked := by
  intro s v ho hl
  rw [writeCr_locked ho hl, lockOnly, hasBits_crLock]
  cases hst : s.fmc.lockst with
  | unlocked => exact absurd hst hl
  | lockedK1 | lockedK2 | lockedHard => cases v.getLsbD 31 <;> rfl

/-- Settles O33: without STRT the write is `storeCr`, whose fields read back; while an operation is in flight it is undefined. -/
theorem crWriteWhileUnlocked : Obligations.CrWriteWhileUnlocked := by
  refine fun s v => ⟨fun ho hl hstrt => ?_, writeCr_busy⟩
  refine ⟨storeCr v s.fmc, ?_, ?_⟩
  · rw [writeCr_unlocked ho hl, if_neg (ne_true_of_eq_false hstrt)]
    rfl
  · rw [storeCr_unlocked hl]
    refine ⟨ho, rfl, rfl, ?_⟩
    rw [ho]
    exact readCr_stored rfl

/-- Settles O34: the write stores its fields, and the start looks at them as they were written. -/
theorem strtStartsTheErase : Obligations.StrtStartsTheErase := by
  intro s v ho hl hstrt n f erases
  have hfields : (v &&& crStored).getLsbD 1 = true ∧ (v &&& crStored).getLsbD 0 = false ∧ (v &&& crStored).getLsbD 2 = false ↔ erases := by
    rw [getLsbD_and_crStored (k := 1) (by decide), getLsbD_and_crStored (k := 0) (by decide), getLsbD_and_crStored (k := 2) (by decide)]
  have hwrite : writeCr v s =
      if erases then
        if s.cfg.numSectors ≤ n then .fault (.undefinedFmcAccess { s with fmc := f, faulted := true })
        else if n ∈ s.cfg.wrpProtected then .go () { s with fmc := { f with sr := s.fmc.sr ||| 0x10#32 } }
        else .go () { s with fmc := { f with op := .erase n } }
      else .fault (.undefinedFmcAccess { s with fmc := f, faulted := true }) := by
    rw [writeCr_unlocked ho hl, if_pos hstrt, show storeCr v s.fmc = f from storeCr_unlocked hl,
      startErase_of_fields (s := s.setFmc f) n (snbOf_and_crStored v)]
    simp only [State.setFmc_fmc, f, hfields]
    rfl
  refine ⟨fun he hn hp => ?_, fun he hn hp => ?_, fun h => ?_⟩
  · rw [hwrite, if_pos he, if_neg (Nat.not_le.mpr hn), if_neg hp]
  · rw [hwrite, if_pos he, if_neg (Nat.not_le.mpr hn), if_pos hp]
  · rw [hwrite]
    split
    · next he => rw [if_pos (h.resolve_left (not_not.mpr he))]
    · rfl

/-- Settles O37: on OK the completion is the erase of the sector's range, and else it leaves free words there. -/
theorem completedErase : Obligations.CompletedErase := by
  intro s d n x hc hop hx t
  have hbytes : ∀ a, t.byteAt a = (completeErase (d &&& errMask == 0#32) n s).byteAt a := by
    intro a
    show (completeOp _ s.fmc.op s).byteAt a = _
    rw [hop]
    rfl
  refine ⟨fun hd a h1 h2 => ?_, fun a ha => ?_, fmcComplete_fmc d s⟩
  · rw [hbytes, beq_iff_eq.mpr hd]
    exact completeErase_inside hc hx h1 h2
  · rw [hbytes]
    exact completeErase_outside hc hx ha

/-- Settles O38: the completion stores one word at the operation's address. -/
theorem completedProgram : Obligations.CompletedProgram := by
  intro s d a v hop t
  have hbytes : ∀ x, t.byteAt x = (completeProgram (d &&& errMask == 0#32) a v s).byteAt x := by
    intro x
    show (completeOp _ s.fmc.op s).byteAt x = _
    rw [hop]
    rfl
  have hprog : DrawOk d → Programmed s.cfg (s.wordAt a) v (t.wordAt a) := by
    intro hd
    rw [State.wordAt_of_bytes fun k _ => hbytes _]
    exact completeProgram_programmed hd
  refine ⟨fun hd => (hprog hd).1, fun hd => (hprog hd).2, fun x hx => ?_, fmcComplete_fmc d s⟩
  rw [hbytes]
  exact completeProgram_byteAt hx

/-- Settles O39: on an idle FMC the wait is over at once; on a busy one it needs a completion. -/
theorem waitIdleCollectsAndClears : Obligations.WaitIdleCollectsAndClears :=
  fun _ _ => ⟨fun ho => ⟨_, waitIdle_idle ho, rfl⟩, waitIdle_hold⟩

/-- Settles O40: one lemma per lock state. -/
theorem unlockSucceedsOrFails : Obligations.UnlockSucceedsOrFails :=
  fun _ => ⟨unlock_first, unlock_open, unlock_hard⟩

end Sys2Proof.Machine
end

section
/-! PROOFS. Exceptions (spec 60_exceptions.md R303 to R307; 45_memory_commands.md R285): a failed ACK under ABORT, and the commands whose address
fails its check. -/

namespace Sys2Proof.Machine

open Sys2Proof.Safety

variable {s t : State}

/-! ### Up to the ACK (R159, R307) -/

/-- A command that reaches its ACK is the prologue, registers of its own, the ACK, and a rest (R159). -/
theorem exec_eq_ack_bind (i : Instr) (hk : s.checksumOk = true) (hr : reachesAck s.cfg i) :
    ∃ (a : Word) (c : Byte) (k : Unit → State → Flow Unit),
      exec i s = ((sendAck (ackLength s.cfg i) ((s.ranChecksum.setAddr a).setCount c)).bind k).outcome := by
  have hstart : ∀ {nack : Bool} (k : Unit → State → Flow Unit), (checksumPrologue nack s).bind k = k () s.ranChecksum := fun k => by
    rw [checksumPrologue_ok hk, Flow.bind_go]
  cases i with
  | getVersion | getHelp | getCid | getRdp | jumpApp | jumpAddr _ | erase =>
    exact ⟨s.dp.addr, s.dp.count, _, congrArg Flow.outcome (hstart _)⟩
  | write a data =>
    have hgood : ¬ badRangeAddr s.cfg a = true := ne_true_of_eq_false (badRangeAddr_eq_false hr.1 hr.2)
    exact ⟨a, s.dp.count, _, congrArg Flow.outcome ((hstart _).trans (if_neg hgood))⟩
  | read a c =>
    have hgood : ¬ badRangeAddr s.cfg a = true := ne_true_of_eq_false (badRangeAddr_eq_false hr.1 hr.2)
    exact ⟨a, c, _, congrArg Flow.outcome ((hstart _).trans (if_neg hgood))⟩

/-! ### What no send and no register write changes (R285) -/

/-- The configuration, memory and the FMC are the same in both. -/
abbrev SameHardware (s t : State) : Prop := t.cfg = s.cfg ∧ t.mem = s.mem ∧ t.fmc = s.fmc

/-- A flow that leaves memory and the FMC as they are in `s`, wherever it ends without a fault. -/
abbrev Flow.KeepsHardware {α : Type} (s : State) (x : Flow α) : Prop :=
  x.Meets (fun _ => SameHardware s) (SameHardware s) fun _ => True

theorem send_keepsHardware (bs : List Byte) (h : SameHardware s t) : (send bs t).KeepsHardware s := by
  have hsent : SameHardware s (t.sendDrawn.recordSend t.sendChoice bs) := by simpa [SameHardware] using h
  rcases send_cases bs t with e | ⟨-, -, e⟩ <;> rw [e]
  · exact hsent
  · exact hsent

theorem checksumPrologue_keepsHardware (nack : Bool) (s : State) : (checksumPrologue nack s).KeepsHardware s := by
  have hran : SameHardware s s.ranChecksum := ⟨rfl, rfl, rfl⟩
  unfold checksumPrologue
  split
  · exact hran
  · split
    · exact (send_keepsHardware _ hran).bind fun _ _ h => h
    · exact hran

theorem hardware_of_next {x : Flow Unit} (h : x.KeepsHardware s) (hx : x.outcome = .next t) : t.mem = s.mem ∧ t.fmc = s.fmc := by
  rcases h.outcome (fun _ h => h) (fun _ h => h) with ⟨u, hu, -, hsame⟩ | ⟨f, hf, -⟩
  · obtain rfl : u = t := Host.Outcome.next.inj (hu.symm.trans hx)
    exact hsame
  · cases hf.symm.trans hx

/-! ### The obligations -/

/-- Settles O20: the ACK is the first send of every command that reaches it, and it ends the cycle. -/
theorem failedSendUnderAbortEndsTheCycle : Obligations.FailedSendUnderAbortEndsTheCycle := by
  intro i s k ds hp hk hr hs ack
  obtain ⟨a, c, rest, he⟩ := exec_eq_ack_bind i hk hr
  rw [sendAck, send_failure (s := (s.ranChecksum.setAddr a).setCount c) hp hs, Flow.bind_stop, Flow.outcome_stop] at he
  exact ⟨_, he, rfl⟩

/-- Settles O30: behind the prologue each of the three sends, writes registers, and aborts. -/
theorem invalidAddressTouchesNoHardware : Obligations.InvalidAddressTouchesNoHardware := by
  rintro i s t (⟨a, rfl, ha⟩ | ⟨a, ⟨c, rfl⟩ | ⟨data, rfl⟩, hbad⟩) ht
  · refine hardware_of_next ((checksumPrologue_keepsHardware _ s).bind fun _ u h => (send_keepsHardware _ h).bind fun _ v h => ?_) ht
    rw [if_pos (by rw [h.1]; exact ha)]
    exact h
  · refine hardware_of_next ((checksumPrologue_keepsHardware _ s).bind fun _ u h => ?_) ht
    have h' : SameHardware s ((u.setAddr a).setCount c) := h
    dsimp only
    rw [if_pos (by rw [h'.1]; exact badRangeAddr_iff.mpr hbad)]
    exact (send_keepsHardware _ h').bind fun _ _ h => h
  · refine hardware_of_next ((checksumPrologue_keepsHardware _ s).bind fun _ u h => ?_) ht
    have h' : SameHardware s (u.setAddr a) := h
    dsimp only
    rw [if_pos (by rw [h'.1]; exact badRangeAddr_iff.mpr hbad)]
    exact (send_keepsHardware _ h').bind fun _ _ h => h

end Sys2Proof.Machine
end

section
/-! PROOFS. ERASE (spec 45_memory_commands.md R262 to R268, R284): the handler behind its ACK ends the cycle with the status of `EraseAppSector`,
whose outcomes the laws of the erase give. -/

namespace Sys2Proof.Machine

open Sys2Proof.Safety

/-! ### The end of a cycle by its status (R268, R270) -/

/-- The end of a cycle that a flash sequence decides (R160, R268, R271). -/
def endOf (st : Status) : Event := if st = .ok then .cycleEnd .ok .none else .cycleEnd .notOk (.hardwareOperationFailure st)

theorem endOf_ok : endOf .ok = .cycleEnd .ok .none := rfl

theorem endOf_fail (kind : FailKind) (flags : Word) :
    endOf (.fail kind flags) = .cycleEnd .notOk (.hardwareOperationFailure (.fail kind flags)) := rfl

theorem statusOf_ok {d : Word} (h : DrawOk d) : statusOf (d &&& errMask) = .ok := if_pos h

theorem statusOf_fail {d : Word} (h : ¬ DrawOk d) : statusOf (d &&& errMask) = .fail .hwError (d &&& errMask) := if_neg h

/-- ERASE after its sequence: the status and the end of the cycle, nothing sent (R268). -/
theorem eraseTail_eq (st : Status) (s : State) :
    eraseTail st s = .go () { s with
      phase := .idle, pos := .start, dp := { s.dp with st := st }, events := s.events ++ [endOf st] } := by
  unfold eraseTail endOf
  split <;> rfl

section Handler

variable {s : State} {ds : List SendDraw}

/-- The state in which ERASE begins its sequence. -/
def State.eraseAcked (s : State) (ds : List SendDraw) : State := s.ranChecksum.sent [byteAck, 0#8] ds

/-- ERASE as a whole, by what its sequence comes to. -/
theorem execErase_ended (hk : s.checksumOk = true) (hs : s.env.sends = .success :: ds) {st : Status} {t : State}
    (he : eraseAppSector (s.eraseAcked ds) = .go st t) :
    exec .erase s = .next { t with
      phase := .idle, pos := .start, dp := { t.dp with st := st }, events := t.events ++ [endOf st] } := by
  refine (execErase_acked hk hs).trans ?_
  rw [show eraseAppSector (s.ranChecksum.sent [byteAck, 0#8] ds) = .go st t from he, Flow.bind_go, eraseTail_eq, Flow.outcome_go]

/-- An erase that starts and completes with the drawn flags `d` (R263). -/
theorem execErase_completes {x : Sector} {d : Word} {cs : List Word} (hc : cfgWf s.cfg = true) (hk : s.checksumOk = true)
    (hf : FmcReady s.fmc) (hx : s.cfg.sectors[s.cfg.appSector]? = some x) (hp : s.cfg.appSector ∉ s.cfg.wrpProtected)
    (hs : s.env.sends = .success :: ds) (hcs : s.env.completions = d :: cs) :
    let st := statusOf (d &&& errMask)
    ∃ t, exec .erase s = .next t ∧
      (DrawOk d → ∀ a : Nat, x.base.toNat ≤ a → a < x.base.toNat + x.size → t.byteAt a = 0xFF#8) ∧
      (∀ a : Nat, a < x.base.toNat ∨ x.base.toNat + x.size ≤ a → t.byteAt a = s.byteAt a) ∧
      (DrawOk d → t.env.drawn = s.env.drawn) ∧
      t = { s with
        phase := .idle, pos := .start, crcReg := packetChecksum s.cfg s.dp.n.toNat s.buf, dp := { s.dp with st := st },
        mem := t.mem, fmc := fmcAfterSequence, host := { s.host with out := s.host.out ++ [0xDD#8, 0x00#8] },
        events := s.events ++ [.sent [0xDD#8, 0x00#8], endOf st],
        env := { s.env with sends := ds, completions := cs, drawn := t.env.drawn } } := by
  obtain ⟨u, he, hu, hdrawn, hin, hout⟩ := eraseAppSector_completes (s := s.eraseAcked ds) hc hf hx hp hcs
  refine ⟨_, execErase_ended hk hs he, hin, hout, hdrawn, ?_⟩
  rw [hu]
  simp [State.eraseAcked, State.sent, State.ranChecksum]

end Handler

/-! ### The obligations -/

/-- Settles O41: the completion is OK, so no free word is drawn and the cycle ends well. -/
theorem eraseClearsTheSector : Obligations.EraseClearsTheSector := by
  intro s x d ds cs hc hk hf hx hp hs hcs hd
  obtain ⟨t, he, hin, hout, hdrawn, ht⟩ := execErase_completes hc hk hf hx hp hs hcs
  rw [statusOf_ok hd, endOf_ok, hdrawn hd] at ht
  exact ⟨t, he, hin hd, hout, ht⟩

/-- Settles O42: each of the three ends the sequence before an operation starts, with its own status. -/
theorem eraseFailsBeforeStarting : Obligations.EraseFailsBeforeStarting := by
  intro s ds hc hk hs failed
  have hfailed : ∀ (kind : FailKind) (flags : Word) (f : Fmc),
      eraseAppSector (s.eraseAcked ds) = .go (.fail kind flags) ((s.eraseAcked ds).setFmc f) →
      exec .erase s = failed (.fail kind flags) f := by
    intro kind flags f he
    rw [execErase_ended hk hs he, endOf_fail]
    simp [failed, State.eraseAcked, State.sent, State.ranChecksum, State.setFmc]
  refine ⟨fun hn => hfailed _ _ _ (eraseAppSector_range (s := s.eraseAcked ds) hn), fun hn hf hl => ?_, fun hn hf hp => ?_⟩
  · exact hfailed _ _ _ (eraseAppSector_hard (s := s.eraseAcked ds) hn hf hl)
  · exact hfailed _ _ _ (eraseAppSector_protected (s := s.eraseAcked ds) hc hn hf hp)

/-- Settles O43: the completion's flags are the status. -/
theorem eraseFailsAtCompletion : Obligations.EraseFailsAtCompletion := by
  intro s x d ds cs hc hk hf hx hp hs hcs hd
  obtain ⟨t, he, -, hout, -, ht⟩ := execErase_completes hc hk hf hx hp hs hcs
  rw [statusOf_fail hd, endOf_fail] at ht
  exact ⟨t, he, hout, ht⟩

/-- Settles O45: the first ERASE leaves the packet, the configuration and a ready FMC, which is all the second needs. -/
theorem eraseTwiceLeavesTheSectorErased : Obligations.EraseTwiceLeavesTheSectorErased := by
  intro s x d₁ d₂ ds cs hc hk hf hx hp hs hcs hd₁ hd₂
  obtain ⟨t, het, hint, -, ht⟩ := eraseClearsTheSector s x d₁ (.success :: ds) (d₂ :: cs) hc hk hf hx hp hs hcs hd₁
  have hcfg : t.cfg = s.cfg := by rw [ht]
  have hkt : t.checksumOk = true := by rw [ht]; exact hk
  have hft : FmcReady t.fmc := by rw [show t.fmc = fmcAfterSequence by rw [ht]]; decide
  obtain ⟨u, heu, hinu, -, hu⟩ := eraseClearsTheSector t x d₂ ds cs (hcfg ▸ hc) hkt hft (by rw [hcfg]; exact hx) (by rw [hcfg]; exact hp)
    (by rw [ht]) (by rw [ht]) hd₂
  exact ⟨t, u, het, heu, fun a h1 h2 => ⟨hint a h1 h2, hinu a h1 h2⟩, by rw [ht], by rw [hu]⟩

end Sys2Proof.Machine
end

section
/-! PROOFS. WRITE (spec 45_memory_commands.md R266 to R275): the handler behind its ACK sends the status byte of `ProgramRange` and ends the cycle,
or faults with the store that leaves the windows. -/

namespace Sys2Proof.Machine

open Sys2Proof.Safety

/-! ### The end of a WRITE by its status (R270, R271) -/

/-- The status byte of WRITE (R270, R271). -/
def statusByte (st : Status) : Byte := if st = .ok then byteO else byteE

theorem statusByte_ok : statusByte .ok = 0x4F#8 := rfl

theorem statusByte_fail (kind : FailKind) (flags : Word) : statusByte (.fail kind flags) = 0x45#8 := rfl

/-- WRITE after its sequence, when its status byte is sent. -/
theorem writeTail_eq (st : Status) {s : State} {ds : List SendDraw} (hs : s.env.sends = .success :: ds) :
    writeTail st s = .go () { s with
      phase := .idle, pos := .start, dp := { s.dp with st := st },
      host := { s.host with out := s.host.out ++ [statusByte st] },
      events := s.events ++ [.sent [statusByte st], endOf st], env := { s.env with sends := ds } } := by
  cases st with
  | ok =>
    rw [writeTail_ok hs, State.finish_eq, statusByte_ok, endOf_ok]
    simp [State.sent, State.setStatus]
  | fail kind flags =>
    rw [writeTail_fail (by simp) hs, State.abort_eq, statusByte_fail, endOf_fail]
    simp [State.sent, State.setStatus]

section Handler

variable {s : State} {a : Word} {data : List Byte} {ds : List SendDraw}

/-- The state in which WRITE begins its sequence. -/
def State.writeAcked (s : State) (a : Word) (data : List Byte) (ds : List SendDraw) : State :=
  { s with
    crcReg := packetChecksum s.cfg s.dp.n.toNat s.buf, dp := { s.dp with addr := a, dlen := data.length },
    host := { s.host with out := s.host.out ++ [byteAck, 1#8] }, events := s.events ++ [.sent [byteAck, 1#8]],
    env := { s.env with sends := ds } }

section Acked

variable (s a data ds)

theorem State.writeAcked_eq : ((s.ranChecksum.setAddr a).sent [byteAck, 1#8] ds).setDlen data.length = s.writeAcked a data ds := by
  simp only [State.writeAcked, State.sent, State.setAddr, State.setDlen, State.ranChecksum]

@[simp] theorem State.writeAcked_cfg : (s.writeAcked a data ds).cfg = s.cfg := rfl
@[simp] theorem State.writeAcked_fmc : (s.writeAcked a data ds).fmc = s.fmc := rfl
@[simp] theorem State.writeAcked_addr : (s.writeAcked a data ds).dp.addr = a := rfl
@[simp] theorem State.writeAcked_completions : (s.writeAcked a data ds).env.completions = s.env.completions := rfl
@[simp] theorem State.writeAcked_out : (s.writeAcked a data ds).host.out = s.host.out ++ [byteAck, 1#8] := rfl
@[simp] theorem State.writeAcked_byteAt (x : Nat) : (s.writeAcked a data ds).byteAt x = s.byteAt x := State.byteAt_congr rfl rfl rfl x
@[simp] theorem State.writeAcked_wordAt (x : Word) : (s.writeAcked a data ds).wordAt x = s.wordAt x := State.wordAt_congr rfl rfl rfl x

end Acked

/-- A WRITE with a passing checksum, a good address and an ACK that is sent. -/
structure WriteBegins (s : State) (a : Word) (ds : List SendDraw) : Prop where
  passes  : s.checksumOk = true
  aligned : a.toNat % 4 = 0
  inside  : classify s.cfg a ≠ .invalid
  acked   : s.env.sends = .success :: ds

variable (hb : WriteBegins s a ds)

include hb

/-- WRITE is its sequence and its end, behind the ACK (R270). -/
theorem WriteBegins.exec_eq :
    exec (.write a data) s = ((programRange (dataWords data) (s.writeAcked a data ds)).bind writeTail).outcome := by
  rw [exec, execWrite_acked hb.passes hb.acked hb.inside hb.aligned, State.writeAcked_eq]

/-- WRITE as a whole, by what its sequence comes to. -/
theorem WriteBegins.ended {st : Status} {t : State} {ds' : List SendDraw}
    (he : programRange (dataWords data) (s.writeAcked a data ds) = .go st t) (hs : t.env.sends = .success :: ds') :
    exec (.write a data) s = .next { t with
      phase := .idle, pos := .start, dp := { t.dp with st := st },
      host := { t.host with out := t.host.out ++ [statusByte st] },
      events := t.events ++ [.sent [statusByte st], endOf st], env := { t.env with sends := ds' } } := by
  rw [hb.exec_eq, he, Flow.bind_go, writeTail_eq st hs, Flow.outcome_go]

omit hb

/-- What `ProgramRange` leaves of a state: all but memory, the FMC, `dp.i`, `dp.w` and the draws, of which the completions `cs` are left. -/
abbrev RangeFrame (s : State) (cs : List Word) (u : State) : Prop :=
  u = { s with
    mem := u.mem, fmc := u.fmc, dp := { s.dp with i := u.dp.i, w := u.dp.w },
    env := { s.env with completions := cs, drawn := u.env.drawn } }

/-- A WRITE that ends with the status `st`, with the completions `cs` left: the FMC is ready again, the status byte is sent, and nothing is
changed but what the cycle leaves, memory, and the count of free values. -/
def WriteEnds (s : State) (a : Word) (data : List Byte) (ds : List SendDraw) (cs : List Word) (st : Status) (t : State) : Prop :=
  exec (.write a data) s = .next t ∧ FmcReady t.fmc ∧
  t = { s with
    phase := .idle, pos := .start, crcReg := packetChecksum s.cfg s.dp.n.toNat s.buf,
    dp := { s.dp with addr := a, dlen := data.length, i := t.dp.i, w := t.dp.w, st := st },
    mem := t.mem, fmc := t.fmc, host := { s.host with out := s.host.out ++ [0xDD#8, 0x01#8, statusByte st] },
    events := s.events ++ [.sent [0xDD#8, 0x01#8], .sent [statusByte st], endOf st],
    env := { s.env with sends := ds, completions := cs, drawn := t.env.drawn } }

/-- A sequence that ends, ends the WRITE; memory is as the sequence leaves it. -/
theorem WriteBegins.ends (hb : WriteBegins s a (.success :: ds)) {st : Status} {cs : List Word} {u : State}
    (he : programRange (dataWords data) (s.writeAcked a data (.success :: ds)) = .go st u) (hf : FmcReady u.fmc)
    (hu : RangeFrame (s.writeAcked a data (.success :: ds)) cs u) :
    ∃ t, WriteEnds s a data ds cs st t ∧ (∀ x, t.byteAt x = u.byteAt x) ∧ (∀ x, t.wordAt x = u.wordAt x) ∧
      t.env.drawn = u.env.drawn := by
  have hsends : u.env.sends = .success :: ds := by rw [hu]; rfl
  refine ⟨_, ⟨hb.ended he hsends, hf, ?_⟩, fun _ => rfl, fun _ => rfl, rfl⟩
  rw [hu]
  simp [State.writeAcked]

/-- The end of a range of whole words, in the terms of its words. -/
theorem wordsEnd_le {hi : Nat} (h : a.toNat + 4 * (data.length / 4) ≤ hi) :
    a.toNat + 4 * (dataWords data).length ≤ hi := by rwa [dataWords_length]

/-- The words of a range that ends in the flash window lie in it (R71). -/
theorem classify_wordAddr_flash {cfg : Cfg} (hc : cfgWf cfg = true) (hcl : classify cfg a = .flashValid) {n i : Nat}
    (hend : a.toNat + 4 * n ≤ cfg.flashEnd.toNat) (hi : i < n) : classify cfg (wordAddr a i) = .flashValid := by
  have hlow := (flash_of_classify hcl).1
  have hlt := cfg.flashEnd.isLt
  have haddr : (wordAddr a i).toNat = a.toNat + 4 * i := wordAddr_toNat (by omega)
  exact classify_flash hc (by omega) (by omega)

/-- None of the words of an unprotected range lies in a protected sector (R228). -/
theorem sectorOf_wordAddr {cfg : Cfg} (hc : cfgWf cfg = true) (hcl : classify cfg a = .flashValid) {n i : Nat}
    (hend : a.toNat + 4 * n ≤ cfg.flashEnd.toNat) (hi : i < n) (hp : Unprotected cfg (wordAddr a i)) :
    sectorOf cfg (wordAddr a i) ∉ cfg.wrpProtected :=
  sectorOf_not_protected hc hp (classify_wordAddr_flash hc hcl hend hi)

/-- A WRITE into RAM (R270, R277). -/
theorem write_ram (hb : WriteBegins s a (.success :: ds)) (hf : FmcReady s.fmc) (hcl : classify s.cfg a = .ramValid)
    (hend : a.toNat + 4 * (data.length / 4) ≤ s.cfg.ramEnd.toNat) :
    ∃ t, WriteEnds s a data ds s.env.completions .ok t ∧
      (∀ i w, (dataWords data)[i]? = some w → t.wordAt (wordAddr a i) = w) ∧
      (∀ x : Nat, x < a.toNat ∨ a.toNat + 4 * (data.length / 4) ≤ x → t.byteAt x = s.byteAt x) ∧
      t.env.drawn = s.env.drawn := by
  obtain ⟨u, he, hfu, hu, hwords, hout⟩ :=
    programRange_ram (ws := dataWords data) (s := s.writeAcked a data (.success :: ds)) hf hcl (wordsEnd_le hend)
  simp only [dataWords_length, State.writeAcked_addr, State.writeAcked_byteAt] at hwords hout
  have hdrawn : u.env.drawn = s.env.drawn := by rw [hu]; rfl
  have hframe : RangeFrame (s.writeAcked a data (.success :: ds)) s.env.completions u := by
    rw [RangeFrame, hdrawn]
    exact hu
  obtain ⟨t, ht, hbytes, hword, hd⟩ := hb.ends he hfu hframe
  exact ⟨t, ht, fun i w hi => (hword _).trans (hwords i w hi), fun x hx => (hbytes x).trans (hout x hx), hd.trans hdrawn⟩

/-- A WRITE into flash whose operations all complete with OK (R266, R270). -/
theorem write_flash {oks cs : List Word} (hc : cfgWf s.cfg = true) (hb : WriteBegins s a (.success :: ds)) (hf : FmcReady s.fmc)
    (hcl : classify s.cfg a = .flashValid) (hend : a.toNat + 4 * (data.length / 4) ≤ s.cfg.flashEnd.toNat)
    (hp : ∀ i, i < data.length / 4 → Unprotected s.cfg (wordAddr a i)) (hcs : s.env.completions = oks ++ cs)
    (hl : oks.length = data.length / 4) (hd : ∀ d ∈ oks, DrawOk d) :
    ∃ t, WriteEnds s a data ds cs .ok t ∧
      (∀ i w, (dataWords data)[i]? = some w → Programmed s.cfg (s.wordAt (wordAddr a i)) w (t.wordAt (wordAddr a i))) ∧
      (∀ x : Nat, x < a.toNat ∨ a.toNat + 4 * (data.length / 4) ≤ x → t.byteAt x = s.byteAt x) := by
  obtain ⟨u, he, hfu, hu, hwords, hout⟩ := programRange_flash (ws := dataWords data) (s := s.writeAcked a data (.success :: ds))
    hc hf hcl (wordsEnd_le hend)
    (fun i hi => by
      rw [dataWords_length] at hi
      simpa using sectorOf_wordAddr hc hcl hend hi (hp i hi))
    hcs (by rwa [dataWords_length]) hd
  simp only [dataWords_length, State.writeAcked_addr, State.writeAcked_cfg, State.writeAcked_byteAt, State.writeAcked_wordAt] at hwords hout
  obtain ⟨t, ht, hbytes, hword, -⟩ := hb.ends he hfu hu
  refine ⟨t, ht, fun i w hi => ?_, fun x hx => (hbytes x).trans (hout x hx)⟩
  rw [hword]
  exact hwords i w hi

end Handler

/-! ### The obligations -/

/-- Settles O47: a store in RAM starts no operation, so no completion and no free word is used. -/
theorem writeToRamStoresTheWords : Obligations.WriteToRamStoresTheWords := by
  intro s a data ds _ hk hf ha hcl hend hs
  obtain ⟨t, ⟨he, hft, ht⟩, hwords, hout, hdrawn⟩ := write_ram ⟨hk, ha, by simp [hcl], hs⟩ hf hcl hend
  rw [hdrawn] at ht
  exact ⟨t, he, hwords, hout, hft, ht⟩

/-- Settles O48: one listed completion for each word. -/
theorem writeToFlashProgramsTheWords : Obligations.WriteToFlashProgramsTheWords := by
  intro s a data ds oks cs hc hk hf ha hcl hend hp hs hcs hl hd
  obtain ⟨t, ⟨he, hft, ht⟩, hwords, hout⟩ := write_flash hc ⟨hk, ha, by simp [hcl], hs⟩ hf hcl hend hp hcs hl hd
  exact ⟨t, he, hwords, hout, hft, ht⟩

end Sys2Proof.Machine
end

section
/-! PROOFS. WRITE that stops (spec 45_memory_commands.md R266, R275; 20_memory.md R73, R77): at the first word that fails, and at the first word
outside the windows. -/

namespace Sys2Proof.Machine

open Sys2Proof.Safety

section Handler

variable {s : State} {a : Word} {data : List Byte} {ds : List SendDraw}

/-- A word outside both windows: the store faults, with the word's fields set (R77, R244). -/
theorem programWord_invalid {w : Word} {ws : List Word} {i : Nat} (h : FmcOpen s.fmc)
    (ha : classify s.cfg (wordAddr s.dp.addr i) = .invalid) :
    programWord w ws i s =
      .fault (State.raise (((s.setIndex i).setDataWord w).setFmc { s.fmc with cr := crProgramming }) .unmappedAccess) := by
  rw [programWord, programStart_open h, memWrite_invalid _ (by exact ha), Flow.bind_fault]

/-- The words of a RAM range before `RAM_END` are stored, and the first one behind them faults where no window follows (R73, R266). -/
theorem programRange_pastRam {ws : List Word} {k : Nat} (hf : FmcReady s.fmc) (hcl : classify s.cfg s.dp.addr = .ramValid)
    (hk : s.dp.addr.toNat + 4 * k = s.cfg.ramEnd.toNat) (hlen : k < ws.length) (hinv : classify s.cfg s.cfg.ramEnd = .invalid) :
    ∃ t : State, programRange ws s = .fault (.unmappedAccess t) ∧ t.faulted = true ∧ t.host = s.host ∧
      ∀ i w, i < k → ws[i]? = some w → t.wordAt (wordAddr s.dp.addr i) = w := by
  have hlow := (ram_of_classify hcl).1
  have hlt := s.cfg.ramEnd.isLt
  obtain ⟨t, he, ho, ht, hwords, -⟩ := programLoop_ram k ws 0 (s.setFmc { s.fmc with lockst := .unlocked }) hlen.le (FmcReady.opens hf)
    (fun j hj => by
      have haddr : (wordAddr s.dp.addr (0 + j)).toNat = s.dp.addr.toNat + 4 * (0 + j) := wordAddr_toNat (by omega)
      exact classify_ram (cfg := s.cfg) (a := wordAddr s.dp.addr (0 + j)) (by omega) (by omega))
    (by show s.dp.addr.toNat + _ ≤ _; omega)
  have hcfg : t.cfg = s.cfg := by rw [ht]; rfl
  have haddr : t.dp.addr = s.dp.addr := by rw [ht]; rfl
  have hend : wordAddr s.dp.addr k = s.cfg.ramEnd := BitVec.eq_of_toNat_eq ((wordAddr_toNat (by omega)).trans hk)
  have hfault := programWord_invalid (w := ws[k]) (ws := ws.drop (k + 1)) (i := k) ho (by rw [hcfg, haddr, hend, hinv])
  refine ⟨{ ((t.setIndex k).setDataWord ws[k]).setFmc { t.fmc with cr := crProgramming } with faulted := true }, ?_, rfl, ?_,
    fun i w hi hw => ?_⟩
  · rw [programRange_ready hf, he, Nat.zero_add, List.drop_eq_getElem_cons hlen, programLoop_cons, hfault]
    rfl
  · show t.host = s.host
    rw [ht]
    rfl
  · have hword := hwords i w hi hw
    rw [Nat.zero_add] at hword
    exact hword

/-- A sequence that stops at a word ends the WRITE with the flags of that word. -/
theorem WriteBegins.stops (hb : WriteBegins s a (.success :: ds)) {flags : Word} {k touched : Nat} {cs : List Word} {u : State}
    (he : programRange (dataWords data) (s.writeAcked a data (.success :: ds)) = .go (.fail .hwError flags) u) (hf : FmcReady u.fmc)
    (hu : RangeFrame (s.writeAcked a data (.success :: ds)) cs u)
    (hwords : ∀ j w, j < k → (dataWords data)[j]? = some w →
      Programmed s.cfg ((s.writeAcked a data (.success :: ds)).wordAt (wordAddr a j)) w (u.wordAt (wordAddr a j)))
    (hout : ∀ x : Nat, x < a.toNat ∨ a.toNat + 4 * touched ≤ x → u.byteAt x = (s.writeAcked a data (.success :: ds)).byteAt x) :
    ∃ t, WriteEnds s a data ds cs (.fail .hwError flags) t ∧
      (∀ i w, i < k → (dataWords data)[i]? = some w → Programmed s.cfg (s.wordAt (wordAddr a i)) w (t.wordAt (wordAddr a i))) ∧
      (∀ x : Nat, x < a.toNat ∨ a.toNat + 4 * touched ≤ x → t.byteAt x = s.byteAt x) := by
  simp only [State.writeAcked_byteAt, State.writeAcked_wordAt] at hwords hout
  obtain ⟨t, ht, hbytes, hword, -⟩ := hb.ends he hf hu
  refine ⟨t, ht, fun i w hi hw => ?_, fun x hx => (hbytes x).trans (hout x hx)⟩
  rw [hword]
  exact hwords i w hi hw

end Handler

/-! ### The obligations -/

/-- Settles O49: `ProgramRange` ends with the flags of the word's completion, or with WRPERR, and the words before it are programmed. -/
theorem writeStopsAtTheFirstFailure : Obligations.WriteStopsAtTheFirstFailure := by
  intro s a data ds oks cs hc hk hf ha hcl hend hlen hp hs hd stops
  have hb : WriteBegins s a (.success :: ds) := ⟨hk, ha, by simp [hcl], hs⟩
  have hlen' : oks.length < (dataWords data).length := by rwa [dataWords_length]
  have hsector : ∀ j, j < oks.length → sectorOf s.cfg (wordAddr a j) ∉ s.cfg.wrpProtected :=
    fun j hj => sectorOf_wordAddr hc hcl hend (hj.trans hlen) (hp j hj)
  constructor
  · intro f hpf hcs hbad
    have hsector' : ∀ j, j ≤ oks.length → sectorOf s.cfg (wordAddr a j) ∉ s.cfg.wrpProtected := fun j hj =>
      (Nat.lt_or_eq_of_le hj).elim (hsector j) fun h => h ▸ sectorOf_wordAddr hc hcl hend hlen hpf
    obtain ⟨u, he, hfu, hu, hwords, hout⟩ := programRange_stops (ws := dataWords data) (s := s.writeAcked a data (.success :: ds))
      hc hf hcl (wordsEnd_le hend) hsector' hcs hlen' hd hbad
    obtain ⟨t, ⟨het, hft, ht⟩, hwords, hout⟩ := hb.stops he hfu hu hwords hout
    exact ⟨t, het, hwords, hout, hft, ht⟩
  · intro n x hx hx1 hx2 hn hcs
    have haddr : (wordAddr a oks.length).toNat = a.toNat + 4 * oks.length := by
      have hlt := s.cfg.flashEnd.isLt
      exact wordAddr_toNat (by omega)
    have hprotected : sectorOf s.cfg (wordAddr a oks.length) ∈ s.cfg.wrpProtected := by
      rw [sectorOf_eq hc hx (by omega) (by omega)]
      exact hn
    obtain ⟨u, he, hfu, hu, hwords, hout⟩ := programRange_protected (ws := dataWords data)
      (s := s.writeAcked a data (.success :: ds)) hc hf hcl (wordsEnd_le hend) hsector hprotected hcs hlen' hd
    obtain ⟨t, ⟨het, hft, ht⟩, hwords, hout⟩ := hb.stops he hfu hu hwords hout
    exact ⟨t, het, hwords, hout, hft, ht⟩

/-- Settles O51: both bounds are multiples of 4, so the word at RAM_END is a word of the range, and it lies in no window. -/
theorem writePastTheEndOfRamFaults : Obligations.WritePastTheEndOfRamFaults := by
  intro s a data ds hc hk hf ha hcl hend hinv hs
  have hb : WriteBegins s a ds := ⟨hk, ha, by simp [hcl], hs⟩
  obtain ⟨hlow, hhigh⟩ := ram_of_classify hcl
  have halign : s.cfg.ramEnd.toNat % 4 = 0 := by
    obtain ⟨-, -, hbounds, -⟩ := cfgWf_parts hc
    simp only [boundsWf, Bool.and_eq_true] at hbounds
    exact aligned_iff.mp hbounds.1.1.2
  let k := (s.cfg.ramEnd.toNat - a.toNat) / 4
  have hlen : k < (dataWords data).length := by rw [dataWords_length]; omega
  obtain ⟨t, he, hfaulted, hhost, hwords⟩ := programRange_pastRam (ws := dataWords data) (s := s.writeAcked a data ds) (k := k)
    hf hcl (by show a.toNat + 4 * k = s.cfg.ramEnd.toNat; omega) hlen hinv
  refine ⟨t, ?_, hfaulted, by rw [hhost]; rfl, fun i w hi hw => hwords i w (by omega) hi⟩
  rw [hb.exec_eq, he]
  rfl

end Sys2Proof.Machine
end

section
/-! PROOFS. READ behind the words it can send (spec 45_memory_commands.md R267, R283): the fault of the first word outside the windows, and the
round trip of a WRITE and a READ. -/

namespace Sys2Proof.Machine

open Sys2Proof.Safety

/-- The state in which READ begins to send its words. -/
def State.readAcked (s : State) (a : Word) (count : Byte) (ds : List SendDraw) : State :=
  { s with
    crcReg := packetChecksum s.cfg s.dp.n.toNat s.buf, dp := { s.dp with addr := a, count := count },
    host := { s.host with out := s.host.out ++ [byteAck, count] }, events := s.events ++ [.sent [byteAck, count]],
    env := { s.env with sends := ds } }

section Acked

variable (s : State) (a : Word) (count : Byte) (ds : List SendDraw)

theorem State.readAcked_eq : ((s.ranChecksum.setAddr a).setCount count).sent [byteAck, count] ds = s.readAcked a count ds := by
  simp only [State.readAcked, State.sent, State.setAddr, State.setCount, State.ranChecksum]

@[simp] theorem State.readAcked_cfg : (s.readAcked a count ds).cfg = s.cfg := rfl
@[simp] theorem State.readAcked_addr : (s.readAcked a count ds).dp.addr = a := rfl
@[simp] theorem State.readAcked_mem : (s.readAcked a count ds).mem = s.mem := rfl
@[simp] theorem State.readAcked_out : (s.readAcked a count ds).host.out = s.host.out ++ [byteAck, count] := rfl
@[simp] theorem State.readAcked_wordAt (x : Word) : (s.readAcked a count ds).wordAt x = s.wordAt x := State.wordAt_congr rfl rfl rfl x

end Acked

section Loop

variable {s : State}

/-- The loop at a word outside both windows faults, `dp.i` being set (R77, R267). -/
theorem readLoop_invalid {left i : Nat} (h : classify s.cfg (wordAddr s.dp.addr i) = .invalid) :
    readLoop (left + 1) i s = .fault ((s.setIndex i).raise .unmappedAccess) := by
  rw [readLoop, memRead_invalid _ (by exact h), Flow.bind_fault]

/-- The loop whose word `j` is the first outside the windows sends the words before it and faults (R73, R267). -/
theorem readLoop_past {k j : Nat} {ds : List SendDraw} (hj : j < k) (ho : s.fmc.op = .noOp)
    (hw : ∀ i, i < j → classify s.cfg (wordAddr s.dp.addr i) ≠ .invalid) (hinv : classify s.cfg (wordAddr s.dp.addr j) = .invalid)
    (hs : s.env.sends = goodSends (4 * j) ++ ds) :
    ∃ t : State, readLoop k 0 s = .fault (.unmappedAccess t) ∧ t.faulted = true ∧ t.mem = s.mem ∧
      t.host.out = s.host.out ++ (List.range j).flatMap fun i => bytesBE (s.wordAt (wordAddr s.dp.addr i)) := by
  obtain ⟨left, rfl⟩ : ∃ left, k = j + (left + 1) := ⟨k - j - 1, by omega⟩
  obtain ⟨t, he, ht⟩ := readLoop_good j (left + 1) 0 s ds ho (by simpa using hw) hs
  simp only [Nat.zero_add] at he ht
  have hcfg : t.cfg = s.cfg := by rw [ht]
  have haddr : t.dp.addr = s.dp.addr := by rw [ht]
  refine ⟨{ t.setIndex j with faulted := true }, ?_, rfl, ?_, ?_⟩
  · rw [he, readLoop_invalid (by rw [hcfg, haddr, hinv])]
    rfl
  · show t.mem = s.mem
    rw [ht]
  · show t.host.out = _
    rw [ht]

end Loop

/-! ### The round trip (R283) -/

section RoundTrip

variable {s : State} {a : Word} {data : List Byte}

/-- Words of memory that are the data words, sent most significant byte first, are the data (R79, R110). -/
theorem flatMap_wordAt (hlen : data.length % 4 = 0) (hw : ∀ i w, (dataWords data)[i]? = some w → s.wordAt (wordAddr a i) = w) :
    ((List.range (data.length / 4)).flatMap fun i => bytesBE (s.wordAt (wordAddr a i))) = data := by
  have hwords : (List.range (data.length / 4)).map (fun i => s.wordAt (wordAddr a i)) = dataWords data := by
    apply List.ext_getElem
    · simp [dataWords_length]
    · intro i _ hi
      rw [List.getElem_map, List.getElem_range]
      exact hw i _ (List.getElem?_eq_getElem hi)
  calc (List.range (data.length / 4)).flatMap (fun i => bytesBE (s.wordAt (wordAddr a i)))
      = ((List.range (data.length / 4)).map fun i => s.wordAt (wordAddr a i)).flatMap bytesBE := (List.flatMap_map ..).symm
    _ = data := by rw [hwords, flatMap_bytesBE_dataWords data hlen]

/-- A READ of words that hold the data answers exactly the data. -/
theorem read_returns {u : State} {es : List SendDraw} (hlen : data.length % 4 = 0) (hmax : data.length / 4 ≤ 255)
    (hk : u.checksumOk = true) (ho : u.fmc.op = .noOp) (ha : a.toNat % 4 = 0) (hcl : classify u.cfg a ≠ .invalid)
    (hin : ∀ i, i < data.length / 4 → classify u.cfg (wordAddr a i) ≠ .invalid)
    (hw : ∀ i w, (dataWords data)[i]? = some w → u.wordAt (wordAddr a i) = w)
    (hs : u.env.sends = List.replicate (1 + data.length) .success ++ es) :
    ∃ v, exec (.read a (BitVec.ofNat 8 (data.length / 4))) u = .next v ∧
      v.host.out = u.host.out ++ [0xDD#8, BitVec.ofNat 8 (data.length / 4)] ++ data := by
  have hcount : (BitVec.ofNat 8 (data.length / 4)).toNat = data.length / 4 := by rw [BitVec.toNat_ofNat]; omega
  have hbytes : 4 * (data.length / 4) = data.length := by omega
  obtain ⟨v, he, hv⟩ := readSendsTheWords u a (BitVec.ofNat 8 (data.length / 4)) es hk ho ha hcl (by rwa [hcount])
    (by rw [hcount, hbytes]; exact hs)
  refine ⟨v, he, ?_⟩
  rw [hv, hcount, flatMap_wordAt hlen hw]

/-- The words of a range that ends in the RAM window lie in it (R71). -/
theorem classify_wordAddr_ram {cfg : Cfg} (hcl : classify cfg a = .ramValid) {n i : Nat}
    (hend : a.toNat + 4 * n ≤ cfg.ramEnd.toNat) (hi : i < n) : classify cfg (wordAddr a i) = .ramValid := by
  have hlow := (ram_of_classify hcl).1
  have hlt := cfg.ramEnd.isLt
  have haddr : (wordAddr a i).toNat = a.toNat + 4 * i := wordAddr_toNat (by omega)
  exact classify_ram (by omega) (by omega)

end RoundTrip

/-! ### The obligations -/

/-- Settles O54: the loop's word `j` is the first that faults. -/
theorem readPastTheWindowsFaults : Obligations.ReadPastTheWindowsFaults := by
  intro s a count ds j hk ho ha hj hpos hw hinv hs
  have hs' : s.env.sends = .success :: (goodSends (4 * j) ++ ds) := by
    rw [hs, Nat.add_comm, List.replicate_succ, List.cons_append]
  have hcl : classify s.cfg a ≠ .invalid := by simpa using hw 0 hpos
  have hloop := readLoop_past (s := s.readAcked a count (goodSends (4 * j) ++ ds)) (ds := ds) hj ho
  simp only [State.readAcked_cfg, State.readAcked_addr, State.readAcked_mem, State.readAcked_out, State.readAcked_wordAt] at hloop
  obtain ⟨t, he, hfaulted, hmem, hout⟩ := hloop hw hinv rfl
  refine ⟨t, ?_, hfaulted, hmem, hout⟩
  rw [exec, execRead_acked hk hs' hcl ha, State.readAcked_eq, he]
  rfl

/-- Settles O55: behind the WRITE every word of the range holds its data word, in RAM and in erased flash alike, and a READ with that memory
sends them. -/
theorem writeThenReadReturnsTheBytes : Obligations.WriteThenReadReturnsTheBytes := by
  intro s a data ds oks cs hc hk hf ha hlen hmax hregion hs hcs
  have hbytes : 4 * (data.length / 4) = data.length := by omega
  have hwrite : classify s.cfg a ≠ .invalid ∧ (∀ i, i < data.length / 4 → classify s.cfg (wordAddr a i) ≠ .invalid) ∧
      ∃ t st cs', WriteEnds s a data ds cs' st t ∧ ∀ i w, (dataWords data)[i]? = some w → t.wordAt (wordAddr a i) = w := by
    rcases hregion with ⟨hcl, hend, -⟩ | ⟨hcl, hend, hl, hd, herased⟩
    · have hend' : a.toNat + 4 * (data.length / 4) ≤ s.cfg.ramEnd.toNat := by rwa [hbytes]
      have hin : classify s.cfg a ≠ .invalid := by rw [hcl]; decide
      obtain ⟨t, ht, hwords, -⟩ := write_ram (data := data) ⟨hk, ha, hin, hs⟩ hf hcl hend'
      refine ⟨hin, fun i hi => ?_, t, _, _, ht, hwords⟩
      rw [classify_wordAddr_ram hcl hend' hi]
      decide
    · have hend' : a.toNat + 4 * (data.length / 4) ≤ s.cfg.flashEnd.toNat := by rwa [hbytes]
      have hin : classify s.cfg a ≠ .invalid := by rw [hcl]; decide
      obtain ⟨t, ht, hwords, -⟩ :=
        write_flash (data := data) hc ⟨hk, ha, hin, hs⟩ hf hcl hend' (fun i hi => (herased i hi).2) hcs hl hd
      refine ⟨hin, fun i hi => ?_, t, _, _, ht, fun i w hi => ?_⟩
      · rw [classify_wordAddr_flash hc hcl hend' hi]
        decide
      have hlt : i < data.length / 4 := by
        rw [← dataWords_length]
        exact (List.getElem?_eq_some_iff.mp hi).1
      exact (hwords i w hi).2 (herased i hlt).1
  obtain ⟨hcl, hin, t, st, cs', ⟨he, -, ht⟩, hwords⟩ := hwrite
  refine ⟨t, he, fun u es hcfg hmem hepoch ho hku hsu => ?_⟩
  have hcfg' : u.cfg = s.cfg := hcfg.trans (by rw [ht])
  exact read_returns hlen hmax hku ho ha (by rwa [hcfg']) (by rwa [hcfg'])
    (fun i w hi => (State.wordAt_congr hcfg hmem hepoch _).trans (hwords i w hi)) hsu

end Sys2Proof.Machine
end

section
/-! PROOFS. The power cycle (spec 70_reset_and_hazards.md R330 to R332): flash keeps what the interrupted operation leaves. -/

namespace Sys2Proof.Machine

open Sys2Proof.Safety

variable {s : State}

/-- A power cycle drops RAM and keeps every byte of flash. -/
theorem powerCycle_byteAt {a : Nat} (ha : inFlash s.cfg a = true) : (powerCycle s).byteAt a = (interruptOp s).byteAt a := by
  have hcfg : (interruptOp s).cfg = s.cfg := by rw [interruptOp, completeOp_frame]
  have hlisted : ∀ m : Memory, Memory.get s.cfg m a = some ((Memory.find m a).getD 0xFF#8) := by
    intro m
    unfold Memory.get Memory.unlisted
    cases Memory.find m a <;> simp [ha]
  show (Memory.get s.cfg (Memory.drop (interruptOp s).mem fun x => !inFlash s.cfg x) a).getD _ =
    (Memory.get (interruptOp s).cfg (interruptOp s).mem a).getD _
  rw [hcfg, hlisted, hlisted, Memory.find_drop, ha]
  rfl

/-- Settles O56: the reset table gives every value but flash; the interrupted operation is a failed completion, which touches no byte outside its
target. -/
theorem powerCycleResetsAllButFlash : Obligations.PowerCycleResetsAllButFlash := by
  intro s hc
  refine ⟨rfl, rfl, rfl, rfl, rfl, rfl, rfl, rfl, ?sr, ?cr, fun a ha ho => ?idle, fun a ha b v ho hout => ?program,
    fun a ha n x ho hx hout => ?erase⟩
  case sr => show Fmc.readSr resetFmc = _; decide
  case cr => show Fmc.readCr resetFmc = _; decide
  case idle => rw [powerCycle_byteAt ha, interruptOp, ho, completeOp]
  case program =>
    rw [powerCycle_byteAt ha, interruptOp, ho, completeOp]
    exact completeProgram_byteAt hout
  case erase =>
    rw [powerCycle_byteAt ha, interruptOp, ho, completeOp]
    exact completeErase_outside hc hx hout

end Sys2Proof.Machine
end

section
/-! PROOFS. Sends under IGNORE (spec 41_framer_dispatch.md R162): what the host does with a send is seen in `host.out`, the choices left and the
`SentFailed` marks alone, and no handler reads these. -/

namespace Sys2Proof.Machine

open Sys2Proof.Safety

/-- Two states under IGNORE that differ in the wire alone: what the host received, whether an event records a send as failed, and which choices
are left, of which there are as many in both. -/
structure Wired (s t : State) : Prop where
  ignores : s.cfg.sendFailPolicy = .ignore
  rewired : ∃ out es ds, t = s.rewire out es ds ∧ es.map asSent = s.events.map asSent ∧ ds.length = s.env.sends.length

variable {s t : State}

theorem Wired.sameButWire (h : Wired s t) : SameButWire s t := by
  obtain ⟨-, out, es, ds, rfl, he, -⟩ := h
  exact ⟨rfl, he⟩

theorem Wired.cfg (h : Wired s t) : t.cfg = s.cfg := by
  obtain ⟨-, out, es, ds, rfl, -, -⟩ := h
  rfl

theorem Wired.dp (h : Wired s t) : t.dp = s.dp := by
  obtain ⟨-, out, es, ds, rfl, -, -⟩ := h
  rfl

theorem Wired.checksumOk (h : Wired s t) : t.checksumOk = s.checksumOk := by
  obtain ⟨-, out, es, ds, rfl, -, -⟩ := h
  rfl

/-! ### Changes of the state that leave the wire -/

theorem Wired.ranChecksum (h : Wired s t) : Wired s.ranChecksum t.ranChecksum := by
  obtain ⟨hp, out, es, ds, rfl, he, hl⟩ := h
  exact ⟨hp, out, es, ds, rfl, he, hl⟩

theorem Wired.setDp (h : Wired s t) (g : Datapath → Datapath) : Wired { s with dp := g s.dp } { t with dp := g t.dp } := by
  obtain ⟨hp, out, es, ds, rfl, he, hl⟩ := h
  exact ⟨hp, out, es, ds, rfl, he, hl⟩

theorem Wired.setAddr (h : Wired s t) (a : Word) : Wired (s.setAddr a) (t.setAddr a) := h.setDp fun d => { d with addr := a }
theorem Wired.setCount (h : Wired s t) (c : Byte) : Wired (s.setCount c) (t.setCount c) := h.setDp fun d => { d with count := c }
theorem Wired.setDlen (h : Wired s t) (n : Nat) : Wired (s.setDlen n) (t.setDlen n) := h.setDp fun d => { d with dlen := n }
theorem Wired.setIndex (h : Wired s t) (i : Nat) : Wired (s.setIndex i) (t.setIndex i) := h.setDp fun d => { d with i := i }
theorem Wired.setDataWord (h : Wired s t) (w : Word) : Wired (s.setDataWord w) (t.setDataWord w) := h.setDp fun d => { d with w := w }
theorem Wired.setMsp (h : Wired s t) (w : Word) : Wired (s.setMsp w) (t.setMsp w) := h.setDp fun d => { d with msp := w }
theorem Wired.setStatus (h : Wired s t) (st : Status) : Wired (s.setStatus st) (t.setStatus st) := h.setDp fun d => { d with st := st }

/-- A change that records the events `l` and does not look at the wire. -/
theorem Wired.records {g : State → State} (h : Wired s t) (l : List Event) (hev : (g s).events = s.events ++ l)
    (hg : ∀ out es ds, g (s.rewire out es ds) = (g s).rewire out (es ++ l) ds) (hcfg : (g s).cfg = s.cfg)
    (hsends : (g s).env.sends = s.env.sends) : Wired (g s) (g t) := by
  obtain ⟨hp, out, es, ds, rfl, he, hl⟩ := h
  exact ⟨by rw [hcfg, hp], out, es ++ l, ds, hg out es ds, by rw [hev, List.map_append, List.map_append, he], by rw [hl, hsends]⟩

theorem Wired.abort (h : Wired s t) (c : Cause) : Wired (s.abort c) (t.abort c) :=
  h.records (g := fun s => s.abort c) [.cycleEnd .notOk c] rfl (fun _ _ _ => rfl) rfl rfl

theorem Wired.finish (h : Wired s t) : Wired s.finish t.finish :=
  h.records (g := State.finish) [.cycleEnd .ok .none] rfl (fun _ _ _ => rfl) rfl rfl

theorem Wired.transfer (h : Wired s t) (msp : Option Word) (w : Word) : Wired (transfer msp w s) (transfer msp w t) :=
  h.records (g := Machine.transfer msp w) [.transfer msp w] rfl (fun _ _ _ => rfl) rfl rfl

theorem Wired.debugNote (h : Wired s t) : Wired (debugNote s) (debugNote t) :=
  h.records (g := Machine.debugNote) [.debugOut (Config.freeNote s.env.drawn)] rfl (fun _ _ _ => rfl) rfl rfl

theorem Wired.deinitialise (h : Wired s t) : Wired (deinitialise s) (deinitialise t) :=
  h.records (g := Machine.deinitialise) [.deinit .clocks, .deinit .transport, .deinit .checksum] (by simp)
    (fun _ _ _ => by simp [Machine.deinitialise, State.rewire]) rfl rfl

/-! ### Parts of a handler -/

section Handler

variable {α : Type}

/-- What the FMC does is the same on both wires. -/
theorem Wired.fmc {x : State → Flow α} (h : Wired s t) (hx : ∀ φ, Inert φ → x (φ s) = (x s).map φ)
    (hf : (x s).Framed (fun _ => True) s) : Flow.Agrees Wired Wired (x s) (x t) := by
  obtain ⟨hp, out, es, ds, rfl, he, hl⟩ := h
  have hwired : ∀ u, FmcFrame s u → Wired u (u.rewire out es ds) := fun u fr =>
    ⟨by rw [fr.cfg, hp], out, es, ds, rfl, by rw [fr.events, he], by rw [fr.sends, hl]⟩
  exact Flow.Agrees.of_map (hx _ (inert_rewire out es ds)) hf hwired fun u fr _ => hwired u fr

/-- A failed send is recorded as a send of the same bytes, but for its mark. -/
theorem asSent_sentEvent (d : SendDraw) (bs : List Byte) : asSent (sentEvent d bs) = .sent bs := by cases d <;> rfl

/-- A choice is drawn from both lists, or a free one from both. -/
theorem Wired.sendDrawn (h : Wired s t) : Wired s.sendDrawn t.sendDrawn := by
  obtain ⟨hp, out, es, ds, rfl, he, hl⟩ := h
  cases hs : s.env.sends with
  | nil =>
    obtain rfl : ds = [] := List.length_eq_zero_iff.mp (by rw [hl, hs, List.length_nil])
    exact ⟨by simpa using hp, out, es, [], by simp [State.sendDrawn, State.rewire, hs], by simpa using he, by simp [State.sendDrawn, hs]⟩
  | cons d rest =>
    obtain ⟨d', ds', rfl⟩ := List.exists_cons_of_length_pos (l := ds) (by rw [hl, hs]; exact Nat.succ_pos _)
    have hl' : ds'.length = rest.length := by simpa [hs] using hl
    exact ⟨by simpa using hp, out, es, ds', by simp [State.sendDrawn, State.rewire, hs], by simpa using he,
      by simpa [State.sendDrawn, hs] using hl'⟩

/-- Under IGNORE a `Send` goes on whatever the host chose. -/
theorem Wired.send (h : Wired s t) (bs : List Byte) : Flow.Agrees Wired Wired (send bs s) (send bs t) := by
  rw [send_ignore h.ignores, send_ignore (by rw [h.cfg]; exact h.ignores)]
  generalize t.sendChoice = d
  obtain ⟨hp, out, es, ds, ht, he, hl⟩ := h.sendDrawn
  rw [ht]
  exact ⟨rfl, hp, out ++ sentBytes d bs, es ++ [sentEvent d bs], ds, rfl, by simp [he, asSent_sentEvent], hl⟩

theorem Wired.sendEach (bs : List Byte) : ∀ {s t : State}, Wired s t → Flow.Agrees Wired Wired (sendEach bs s) (sendEach bs t) := by
  induction bs with
  | nil => exact fun h => ⟨rfl, h⟩
  | cons b bs ih => exact fun h => (h.send [b]).bind fun _ _ _ h => ih h

theorem Wired.checksumPrologue (nack : Bool) (h : Wired s t) :
    Flow.Agrees Wired Wired (checksumPrologue nack s) (checksumPrologue nack t) := by
  unfold Machine.checksumPrologue
  rw [h.checksumOk]
  split_ifs
  · exact ⟨rfl, h.ranChecksum⟩
  · exact (h.ranChecksum.send _).bind fun _ _ _ h => h.abort _
  · exact h.ranChecksum.abort _

theorem Wired.programStart (h : Wired s t) (w : Word) (ws : List Word) (i : Nat) :
    Flow.Agrees Wired Wired (programStart w ws i s) (programStart w ws i t) := by
  refine Flow.Agrees.bind (((h.setIndex i).setDataWord w).fmc (fun _ hi => hi.waitIdle _ _) (waitIdle_framed _ trivial))
    fun _ _ _ h => ?_
  refine (h.fmc (fun _ hi => hi.modifyCr _ programFields) (modifyCr_framed _ _)).bind fun _ u v h => ?_
  rw [h.dp]
  exact h.fmc (fun _ hi => hi.memWrite _ _ w) (memWrite_framed _ _ _)

theorem Wired.lockAfter (h : Wired s t) (st : Status) : Flow.Agrees Wired Wired (lockAfter st s) (lockAfter st t) :=
  h.fmc (fun _ hi => hi.lockAfter _ st) (lockAfter_framed _ st)

theorem Wired.programLoop : ∀ (ws : List Word) (i : Nat) {s t : State}, Wired s t →
    Flow.Agrees Wired Wired (programLoop ws i s) (programLoop ws i t)
  | [], _, _, _, h => ⟨rfl, h⟩
  | w :: ws, i, _, _, h => by
    refine (h.programStart w ws i).bind fun _ _ _ h => ?_
    refine (h.fmc (fun _ hi => hi.programFinish _ ws) (programFinish_framed _ trivial)).bind fun st _ _ h => ?_
    split
    · exact Wired.programLoop ws (i + 1) h
    · exact ⟨rfl, h⟩

theorem Wired.programRange (h : Wired s t) (ws : List Word) : Flow.Agrees Wired Wired (programRange ws s) (programRange ws t) := by
  refine (h.fmc (fun _ hi => hi.unlock _) (unlock_framed _)).bind fun st _ _ h => ?_
  split
  · exact (h.programLoop ws 0).bind fun st _ _ h => h.lockAfter st
  · exact h.lockAfter st

theorem Wired.readLoop : ∀ (left i : Nat) {s t : State}, Wired s t → Flow.Agrees Wired Wired (readLoop left i s) (readLoop left i t)
  | 0, _, _, _, h => ⟨rfl, h⟩
  | left + 1, i, _, _, h => by
    unfold Machine.readLoop
    rw [h.dp]
    refine ((h.setIndex i).fmc (fun _ hi => hi.memRead _ _ _) (memRead_framed _ trivial _)).bind fun w _ _ h => ?_
    exact ((h.setDataWord w).sendEach _).bind fun _ _ _ h => Wired.readLoop left (i + 1) h

theorem Wired.eraseTail (h : Wired s t) (st : Status) : Flow.Agrees Wired Wired (eraseTail st s) (eraseTail st t) := by
  unfold Machine.eraseTail
  split
  · exact ⟨rfl, (h.setStatus st).finish⟩
  · exact ⟨rfl, (h.setStatus st).abort _⟩

theorem Wired.writeTail (h : Wired s t) (st : Status) : Flow.Agrees Wired Wired (writeTail st s) (writeTail st t) := by
  unfold Machine.writeTail
  split
  · exact ((h.setStatus st).send _).bind fun _ _ _ h => ⟨rfl, h.finish⟩
  · exact ((h.setStatus st).send _).bind fun _ _ _ h => ⟨rfl, h.abort _⟩

theorem Wired.jumpAppMsp (h : Wired s t) : Flow.Agrees Wired Wired (jumpAppMsp s) (jumpAppMsp t) := by
  unfold Machine.jumpAppMsp Machine.jumpAppEntry
  rw [h.cfg]
  refine (h.fmc (fun _ hi => hi.memRead _ _ _) (memRead_framed _ trivial _)).bind fun msp u v h => ?_
  rw [(h.setMsp msp).cfg]
  refine ((h.setMsp msp).fmc (fun _ hi => hi.memRead _ _ _) (memRead_framed _ trivial _)).bind fun w _ _ h => ⟨rfl, ?_⟩
  rw [h.dp]
  exact (h.setDataWord w).deinitialise.transfer _ w

end Handler

/-! ### Commands -/

/-- Five commands begin with the prologue and the ACK (R158, R159). -/
theorem Wired.acked (h : Wired s t) (len : Byte) {k : State → Flow Unit}
    (hk : ∀ {u v : State}, Wired u v → Flow.Agrees Wired Wired (k u) (k v)) :
    Flow.Agrees Wired Wired ((Machine.checksumPrologue false s).bind fun _ s => (sendAck len s).bind fun _ s => k s)
      ((Machine.checksumPrologue false t).bind fun _ s => (sendAck len s).bind fun _ s => k s) :=
  (h.checksumPrologue false).bind fun _ _ _ h => (h.send _).bind fun _ _ _ h => hk h

/-- Flows that agree up to the wire have outcomes that do. -/
theorem outcome_sameButWire {x y : Flow Unit} (h : Flow.Agrees Wired Wired x y) : OutcomesAgree SameButWire x.outcome y.outcome := by
  cases x with
  | go _ u =>
    cases y with
    | go _ v => exact h.2.sameButWire
    | stop _ | fault _ => exact h.elim
  | stop u =>
    cases y with
    | stop v => exact Wired.sameButWire h
    | go _ _ | fault _ => exact h.elim
  | fault f =>
    cases y with
    | fault g => exact h
    | go _ _ | stop _ => exact h.elim

theorem Wired.infoReply (h : Wired s t) (payload : Cfg → List Byte) :
    OutcomesAgree SameButWire (infoReply (payload s.cfg) s).outcome (infoReply (payload t.cfg) t).outcome := by
  rw [h.cfg]
  exact outcome_sameButWire (h.acked _ fun h => (h.send _).bind fun _ _ _ h => ⟨rfl, h.finish⟩)

theorem Wired.execJumpAddr (h : Wired s t) (a : Word) : OutcomesAgree SameButWire (execJumpAddr a s) (execJumpAddr a t) := by
  refine outcome_sameButWire (h.acked _ fun h => ?_)
  rw [h.cfg]
  split
  · exact ⟨rfl, (h.setAddr a).abort _⟩
  · exact ⟨rfl, (h.setAddr a).transfer _ _⟩

theorem Wired.execErase (h : Wired s t) : OutcomesAgree SameButWire (execErase s) (execErase t) :=
  outcome_sameButWire (h.acked _ fun h =>
    (h.fmc (fun _ hi => hi.eraseAppSector _) (eraseAppSector_framed _ trivial trivial)).bind fun st _ _ h => h.eraseTail st)

theorem Wired.execWrite (h : Wired s t) (a : Word) (data : List Byte) :
    OutcomesAgree SameButWire (execWrite a data s) (execWrite a data t) := by
  refine outcome_sameButWire ((h.checksumPrologue true).bind fun _ _ _ h => ?_)
  dsimp only
  rw [(h.setAddr a).cfg]
  split
  · exact ((h.setAddr a).send _).bind fun _ _ _ h => ⟨rfl, h.abort _⟩
  · exact ((h.setAddr a).send _).bind fun _ _ _ h =>
      ((h.setDlen data.length).programRange _).bind fun st _ _ h => h.writeTail st

theorem Wired.execRead (h : Wired s t) (a : Word) (c : Byte) : OutcomesAgree SameButWire (execRead a c s) (execRead a c t) := by
  refine outcome_sameButWire ((h.checksumPrologue true).bind fun _ _ _ h => ?_)
  dsimp only
  rw [((h.setAddr a).setCount c).cfg]
  split
  · exact (((h.setAddr a).setCount c).send _).bind fun _ _ _ h => ⟨rfl, h.debugNote.abort _⟩
  · exact (((h.setAddr a).setCount c).send _).bind fun _ _ _ h => (h.readLoop c.toNat 0).bind fun _ _ _ h => ⟨rfl, h.finish⟩

/-- Settles O19: the two states differ in the wire alone, and so do the outcomes of every command. -/
theorem failedSendsChangeNoPath : Obligations.FailedSendsChangeNoPath := by
  intro i s ds hp hl
  have h : Wired s { s with env := { s.env with sends := ds } } := ⟨hp, s.host.out, s.events, ds, rfl, rfl, hl⟩
  cases i with
  | getVersion => exact h.infoReply versionBytes
  | getHelp => exact h.infoReply Cfg.helpList
  | getCid => exact h.infoReply chipIdBytes
  | getRdp => exact h.infoReply fun cfg => [cfg.rdpByte]
  | jumpApp => exact outcome_sameButWire (h.acked _ Wired.jumpAppMsp)
  | jumpAddr a => exact h.execJumpAddr a
  | erase => exact h.execErase
  | write a data => exact h.execWrite a data
  | read a c => exact h.execRead a c

end Sys2Proof.Machine
end

section
/-! PROOFS. Held handlers (spec 44_flash_controller.md R236 to R240): ERASE and WRITE that stop in a wait have done all but what the wait and the
lines behind it do, and these look at the position no more. -/

namespace Sys2Proof.Machine

open Sys2Proof.Safety

/-! ### Completions listed later -/

section Fields

variable (s : State) (cs : List Word)

@[simp] theorem State.withCompletions_cfg : (s.withCompletions cs).cfg = s.cfg := rfl
@[simp] theorem State.withCompletions_fmc : (s.withCompletions cs).fmc = s.fmc := rfl
@[simp] theorem State.withCompletions_dp : (s.withCompletions cs).dp = s.dp := rfl
@[simp] theorem State.withCompletions_phase : (s.withCompletions cs).phase = s.phase := rfl
@[simp] theorem State.withCompletions_faulted : (s.withCompletions cs).faulted = s.faulted := rfl
@[simp] theorem State.withCompletions_completions : (s.withCompletions cs).env.completions = cs := rfl

end Fields

section Later

variable {s : State}

theorem State.withCompletions_of_eq {cs : List Word} (h : s.env.completions = cs) : s.withCompletions cs = s := by
  subst h
  rfl

/-- One more completion is listed behind those there (R236). -/
theorem fmcWillComplete_eq {d : Word} {cs : List Word} (h : s.env.completions = cs) :
    fmcWillComplete d s = s.withCompletions (cs ++ [d]) := by
  subst h
  rfl

end Later

/-! ### Nothing behind a wait looks at the position -/

section Position

variable {s : State} {p : Pos}

theorem completeOp_setPos (ok : Bool) (op : FmcOp) : completeOp ok op (s.setPos p) = (completeOp ok op s).setPos p := by
  cases op with
  | noOp => rfl
  | program a v => rfl
  | erase n =>
    show completeErase ok n (s.setPos p) = (completeErase ok n s).setPos p
    unfold completeErase
    rw [State.setPos_cfg]
    cases s.cfg.sectors[n]? with
    | none => rfl
    | some x => cases ok <;> rfl

theorem eraseTail_setPos (st : Status) : eraseTail st (s.setPos p) = eraseTail st s := by
  rw [eraseTail_eq, eraseTail_eq]
  rfl

/-- What follows a `Send` need not look at the position, for a failed one ends the cycle at the start (R14, R307). -/
theorem send_bind_setPos (bs : List Byte) {k : State → Flow Unit} (hk : ∀ u : State, k (u.setPos p) = k u) :
    (send bs (s.setPos p)).bind (fun _ => k) = (send bs s).bind fun _ => k := by
  have hd : (s.setPos p).sendDrawn = s.sendDrawn.setPos p := by
    unfold State.sendDrawn State.setPos
    cases s.env.sends <;> rfl
  unfold send
  rw [hd, show (s.setPos p).sendChoice = s.sendChoice from rfl, State.setPos_cfg]
  cases s.cfg.sendFailPolicy with
  | ignore => exact hk (s.sendDrawn.recordSend s.sendChoice bs)
  | abort =>
    cases s.sendChoice with
    | success => exact hk (s.sendDrawn.recordSend .success bs)
    | failure n => rfl

/-- The last send may fail, under either policy; the cycle ends at the same position. -/
theorem writeTail_setPos (st : Status) : writeTail st (s.setPos p) = writeTail st s := by
  unfold writeTail
  split
  · exact send_bind_setPos (s := s.setStatus st) _ fun _ => rfl
  · exact send_bind_setPos (s := s.setStatus st) _ fun _ => rfl

theorem eraseTail_next (st : Status) (s : State) : ∃ u, (eraseTail st s).outcome = .next u :=
  ⟨_, by rw [eraseTail_eq, Flow.outcome_go]⟩

/-- A flow behind a `Send` that goes on without a fault, goes on without one with the `Send`. -/
theorem send_bind_next (bs : List Byte) {k : State → State} (s : State) :
    ∃ u, ((send bs s).bind fun _ s => .go () (k s)).outcome = .next u := by
  rcases send_cases bs s with h | ⟨-, -, h⟩
  · exact ⟨_, by rw [h, Flow.bind_go, Flow.outcome_go]⟩
  · exact ⟨_, by rw [h]; rfl⟩

theorem writeTail_next (st : Status) (s : State) : ∃ u, (writeTail st s).outcome = .next u := by
  unfold writeTail
  split
  · exact send_bind_next _ _
  · exact send_bind_next _ _

end Position

/-! ### A handler that comes to a wait -/

/-- The command `i` from `s`, with the completions `oks` listed, comes to the state `p`, in which an operation is in flight; `rest` is what is
left of its handler from the wait on, and `q` the position at which the wait holds. -/
structure ComesToWait (i : Instr) (s : State) (oks : List Word) (p : State) (q : Pos)
    (rest : State → Host.Outcome State Fault Refusal) : Prop where
  runs     : ∀ cs, exec i (s.withCompletions (oks ++ cs)) = rest (p.withCompletions cs)
  resumes  : ∀ u : State, u.pos = q → resumeHandler u = rest u
  holds    : ∀ u : State, u.fmc.op ≠ .noOp → u.env.completions = [] → rest u = .next (u.setPos q)
  inFlight : p.fmc.op ≠ .noOp
  running  : p.faulted = false ∧ cfgWf p.cfg = true ∧ p.phase = .dispatched
  position : q = .eraseDone ∨ ∃ ws, q = .programDone ws

/-- It holds there, and goes on with one more completion as if that had been listed from the start, for `rest` does not look at the
position (R240). -/
theorem ComesToWait.goesOn {i : Instr} {s p : State} {oks : List Word} {q : Pos} {d : Word}
    {rest : State → Host.Outcome State Fault Refusal} (h : ComesToWait i s oks p q rest) (hcs : s.env.completions = oks)
    (hany : ∃ u, ∀ r, rest ((p.withCompletions [d]).setPos r) = .next u) :
    let t := (p.withCompletions []).setPos q
    exec i s = .next t ∧ step t = .next t ∧ ∃ u, exec i (fmcWillComplete d s) = .next u ∧ step (fmcWillComplete d t) = .next u ∧
      step (fmcComplete d t) = .next u := by
  intro t
  obtain ⟨hfaulted, hwf, hphase⟩ := h.running
  obtain ⟨u, hu⟩ := hany
  have hstep : ∀ cs, step (t.withCompletions cs) = rest (t.withCompletions cs) := fun cs =>
    (step_dispatched (s := t.withCompletions cs) hfaulted hwf hphase).trans (h.resumes _ rfl)
  have hlater : step (fmcWillComplete d t) = .next u := (hstep [d]).trans (hu q)
  refine ⟨?_, (hstep []).trans (h.holds t h.inFlight rfl), u, ?_, hlater, ?_⟩
  · rw [← State.withCompletions_of_eq hcs, ← List.append_nil oks, h.runs]
    exact h.holds _ h.inFlight rfl
  · rw [fmcWillComplete_eq hcs, h.runs]
    exact hu p.pos
  · rw [← step_fmcComplete (s := t) hfaulted hwf hphase h.position h.inFlight rfl, hlater]

/-! ### ERASE held in its second wait (R240, R263) -/

section Erase

variable {s : State}

/-- The end of ERASE behind its wait, at whatever position it was held. -/
theorem eraseFinish_anyPos {d : Word} {ds : List Word} (h : FmcErasing s.fmc) (ho : s.fmc.op ≠ .noOp) (hs : s.fmc.sr = 0#32)
    (hc : s.env.completions = d :: ds) : ∃ u, ∀ p, ((eraseFinish (s.setPos p)).bind eraseTail).outcome = .next u := by
  let r := (completeOp (d &&& errMask == 0#32) s.fmc.op (s.withCompletions ds)).setFmc s.fmc.endErase
  obtain ⟨u, hu⟩ := eraseTail_next (statusOf (d &&& errMask)) r
  refine ⟨u, fun p => ?_⟩
  have hend : eraseFinish (s.setPos p) = .go (statusOf (d &&& errMask)) (r.setPos p) := by
    rw [eraseFinish_done (s := s.setPos p) h ho hs hc,
      show (s.setPos p).withCompletions ds = (s.withCompletions ds).setPos p from rfl, completeOp_setPos]
    rfl
  rw [hend, Flow.bind_go, eraseTail_setPos, hu]

/-- ERASE with its erase in flight (R227, R263). -/
def State.erasing (s : State) (ds : List SendDraw) : State :=
  { s with
    crcReg := packetChecksum s.cfg s.dp.n.toNat s.buf,
    fmc := { s.fmc with lockst := .unlocked, op := .erase s.cfg.appSector, cr := crErase s.cfg.appSector },
    host := { s.host with out := s.host.out ++ [byteAck, 0#8] }, events := s.events ++ [.sent [byteAck, 0#8]],
    env := { s.env with sends := ds } }

/-- ERASE comes to its second wait. -/
theorem execErase_comesToWait {ds : List SendDraw} (hc : cfgWf s.cfg = true) (hk : s.checksumOk = true) (hf : FmcReady s.fmc)
    (hs : s.env.sends = .success :: ds) (hn : s.cfg.appSector < s.cfg.numSectors) (hp : s.cfg.appSector ∉ s.cfg.wrpProtected)
    (hfaulted : s.faulted = false) (hphase : s.phase = .dispatched) :
    ComesToWait .erase s [] (s.erasing ds) .eraseDone fun u => ((eraseFinish u).bind eraseTail).outcome where
  runs cs := by
    refine (execErase_acked (s := s.withCompletions cs) hk hs).trans ?_
    rw [eraseAppSector_started (s := (s.withCompletions cs).ranChecksum.sent [byteAck, 0#8] ds) hc hn hf hp]
    rfl
  resumes u hu := by rw [resumeHandler, hu]
  holds u ho hcs := by rw [eraseFinish_hold ho hcs]; rfl
  inFlight := FmcOp.noConfusion
  running := ⟨hfaulted, hc, hphase⟩
  position := .inl rfl

end Erase

/-! ### WRITE held in the second wait of a word (R244, R266) -/

section Write

variable {s : State}

/-- The word `w` at index `i`, with its program in flight (R228, R244). -/
def State.programming (s : State) (i : Nat) (w : Word) : State :=
  ((s.setIndex i).setDataWord w).setFmc { s.fmc with op := .program (wordAddr s.dp.addr i) w, cr := crProgramming }

section Frame

variable (s) (ok : Bool) (a w : Word) (i : Nat)

@[simp] theorem completeProgram_cfg : (completeProgram ok a w s).cfg = s.cfg := rfl
@[simp] theorem completeProgram_fmc : (completeProgram ok a w s).fmc = s.fmc := rfl
@[simp] theorem completeProgram_dp : (completeProgram ok a w s).dp = s.dp := rfl
@[simp] theorem completeProgram_completions : (completeProgram ok a w s).env.completions = s.env.completions := rfl
@[simp] theorem State.afterWord_cfg : (s.afterWord i w).cfg = s.cfg := rfl
@[simp] theorem State.afterWord_fmc : (s.afterWord i w).fmc = fmcAfterWord := rfl
@[simp] theorem State.afterWord_dp : (s.afterWord i w).dp = { s.dp with i := i, w := w } := rfl

end Frame

/-- One word in flash that completes with OK, whatever completions are listed behind its own (R238, R244). -/
theorem programWord_ok {w : Word} {ws : List Word} {i : Nat} {d : Word} (h : FmcOpen s.fmc)
    (ha : classify s.cfg (wordAddr s.dp.addr i) = .flashValid) (hp : sectorOf s.cfg (wordAddr s.dp.addr i) ∉ s.cfg.wrpProtected)
    (hd : DrawOk d) :
    ∃ t : State, FmcOpen t.fmc ∧ RangeFrame s s.env.completions t ∧
      ∀ cs, programWord w ws i (s.withCompletions (d :: cs)) = .go .ok (t.withCompletions cs) := by
  refine ⟨completeProgram (d &&& errMask == 0#32) (wordAddr s.dp.addr i) w (s.afterWord i w),
    by rw [completeProgram_fmc]; exact fmcAfterWord_open, rfl, fun cs => ?_⟩
  rw [programWord_flash (s := s.withCompletions (d :: cs)) h ha hp rfl, statusOf_ok hd]
  rfl

/-- The first `oks.length` words of a run in flash are programmed alike, whatever completions are listed behind `oks`. -/
theorem programLoop_words (oks : List Word) : ∀ (ws : List Word) (i : Nat) (s : State), oks.length ≤ ws.length →
    FmcOpen s.fmc → (∀ j, j < oks.length → classify s.cfg (wordAddr s.dp.addr (i + j)) = .flashValid) →
    (∀ j, j < oks.length → sectorOf s.cfg (wordAddr s.dp.addr (i + j)) ∉ s.cfg.wrpProtected) → (∀ d ∈ oks, DrawOk d) →
    ∃ v : State, FmcOpen v.fmc ∧ RangeFrame s s.env.completions v ∧
      ∀ cs, programLoop ws i (s.withCompletions (oks ++ cs)) =
        programLoop (ws.drop oks.length) (i + oks.length) (v.withCompletions cs) := by
  induction oks with
  | nil => exact fun ws i s _ h _ _ _ => ⟨s, h, rfl, fun cs => rfl⟩
  | cons d oks ih =>
    intro ws i s hlen h ha hp hd
    obtain ⟨w, ws, rfl⟩ := List.exists_cons_of_length_pos (Nat.lt_of_lt_of_le (Nat.succ_pos _) hlen)
    simp only [List.length_cons, Nat.add_le_add_iff_right] at hlen ha hp
    have hshift : ∀ j, i + 1 + j = i + (j + 1) := fun j => by omega
    obtain ⟨t, ht, hframe, hword⟩ := programWord_ok (w := w) (ws := ws) (i := i) h (ha 0 (Nat.succ_pos _)) (hp 0 (Nat.succ_pos _))
      (hd d List.mem_cons_self)
    have hcfg : t.cfg = s.cfg := by rw [hframe]
    have haddr : t.dp.addr = s.dp.addr := by rw [hframe]
    have hcs : t.env.completions = s.env.completions := by rw [hframe]
    obtain ⟨v, hv, hframe', hloop⟩ := ih ws (i + 1) t hlen ht
      (fun j hj => by rw [hcfg, haddr, hshift]; exact ha (j + 1) (by omega))
      (fun j hj => by rw [hcfg, haddr, hshift]; exact hp (j + 1) (by omega))
      fun e he => hd e (List.mem_cons_of_mem _ he)
    rw [hcs] at hframe'
    refine ⟨v, hv, hframe'.trans (by rw [hframe]), fun cs => ?_⟩
    rw [programLoop_cons, List.cons_append, hword, Flow.bind_go, if_pos rfl, hloop, List.length_cons, List.drop_succ_cons, hshift]

/-- So are they in `ProgramRange`, from a ready FMC (R266). -/
theorem programRange_words {oks ws : List Word} (hf : FmcReady s.fmc) (hlen : oks.length ≤ ws.length)
    (ha : ∀ j, j < oks.length → classify s.cfg (wordAddr s.dp.addr j) = .flashValid)
    (hp : ∀ j, j < oks.length → sectorOf s.cfg (wordAddr s.dp.addr j) ∉ s.cfg.wrpProtected) (hd : ∀ d ∈ oks, DrawOk d) :
    ∃ v : State, FmcOpen v.fmc ∧ RangeFrame s s.env.completions v ∧
      ∀ cs, programRange ws (s.withCompletions (oks ++ cs)) =
        (programLoop (ws.drop oks.length) oks.length (v.withCompletions cs)).bind lockAfter := by
  obtain ⟨v, hv, hframe, hloop⟩ := programLoop_words oks ws 0 (s.setFmc { s.fmc with lockst := .unlocked }) hlen (FmcReady.opens hf)
    (fun j hj => by rw [Nat.zero_add]; exact ha j hj) (fun j hj => by rw [Nat.zero_add]; exact hp j hj) hd
  refine ⟨v, hv, hframe.trans rfl, fun cs => ?_⟩
  rw [Nat.zero_add] at hloop
  rw [programRange_ready (s := s.withCompletions (oks ++ cs)) hf]
  exact congrArg (Flow.bind · lockAfter) (hloop cs)

theorem State.writeAcked_withCompletions (a : Word) (data : List Byte) (ds : List SendDraw) (cs : List Word) :
    (s.withCompletions cs).writeAcked a data ds = (s.writeAcked a data ds).withCompletions cs := rfl

/-- The end of a word and of the whole range, in the states that differ in the position. -/
theorem lockedTail_anyPos {st : Status} (h : FmcOpen s.fmc) :
    ∃ u, ∀ p, (((Flow.go st (s.setPos p)).bind lockAfter).bind writeTail).outcome = .next u := by
  obtain ⟨u, hu⟩ := writeTail_next st (s.setFmc { s.fmc with lockst := .lockedK1 })
  refine ⟨u, fun p => ?_⟩
  rw [Flow.bind_go, lockAfter_open (s := s.setPos p) h, Flow.bind_go]
  exact (congrArg Flow.outcome (writeTail_setPos (s := s.setFmc { s.fmc with lockst := .lockedK1 }) st)).trans hu

/-- The word in flight completes with the flags `d` alike at every position. -/
theorem programFinish_anyPos {w d : Word} {ws : List Word} {i : Nat} (h : FmcOpen s.fmc) :
    ∃ r : State, FmcOpen r.fmc ∧ r.cfg = s.cfg ∧ r.dp.addr = s.dp.addr ∧ r.env.completions = [] ∧
      ∀ p, programFinish ws (((s.programming i w).withCompletions [d]).setPos p) = .go (statusOf (d &&& errMask)) (r.setPos p) := by
  refine ⟨completeProgram (d &&& errMask == 0#32) (wordAddr s.dp.addr i) w ((s.afterWord i w).withCompletions []),
    by rw [completeProgram_fmc]; exact fmcAfterWord_open, by simp, by simp, by simp, fun p => ?_⟩
  have hsr : s.fmc = { s.fmc with sr := 0#32 } := by rw [← h.2.2.1]
  have hprog : FmcProgramming (s.programming i w).fmc := by
    show FmcProgramming { s.fmc with op := _, cr := _ }
    rw [hsr]
    exact programming_of_open h _ 0#32 (by decide)
  have hend : (s.programming i w).fmc.endProgram = fmcAfterWord := by
    show Fmc.endProgram { s.fmc with op := _, cr := _ } = _
    rw [hsr]
    exact endProgram_of_open h _ _
  have hop : (s.programming i w).fmc.op ≠ .noOp := FmcOp.noConfusion
  rw [programFinish_done (s := ((s.programming i w).withCompletions [d]).setPos p) hprog hop h.2.2.1 rfl,
    show (((s.programming i w).withCompletions [d]).setPos p).fmc.endProgram = fmcAfterWord from hend]
  rfl

/-- A WRITE held in the second wait of word `i` goes on alike at every position: to the end of the cycle, or to the hold in the next word. -/
theorem programResume_anyPos {w d : Word} {ws : List Word} {i : Nat} (h : FmcOpen s.fmc)
    (hnext : ws ≠ [] → classify s.cfg (wordAddr s.dp.addr (i + 1)) = .flashValid ∧
      sectorOf s.cfg (wordAddr s.dp.addr (i + 1)) ∉ s.cfg.wrpProtected) :
    ∃ u, ∀ p, ((programResume ws (((s.programming i w).withCompletions [d]).setPos p)).bind writeTail).outcome = .next u := by
  obtain ⟨r, hr, hcfg, haddr, hcs, hfinish⟩ := programFinish_anyPos (w := w) (d := d) (ws := ws) (i := i) h
  have hresume : ∀ p, programResume ws (((s.programming i w).withCompletions [d]).setPos p) =
      (if statusOf (d &&& errMask) = .ok then programLoop ws (i + 1) (r.setPos p)
        else .go (statusOf (d &&& errMask)) (r.setPos p)).bind lockAfter := by
    intro p
    unfold programResume
    rw [hfinish, Flow.bind_go]
    rfl
  simp only [hresume]
  by_cases hok : statusOf (d &&& errMask) = .ok
  · simp only [if_pos hok]
    cases ws with
    | nil => exact lockedTail_anyPos hr
    | cons w' ws =>
      obtain ⟨ha, hp⟩ := hnext (List.cons_ne_nil _ _)
      refine ⟨(r.programming (i + 1) w').setPos (.programDone ws), fun p => ?_⟩
      rw [programLoop_cons, programWord_hold (s := r.setPos p) hr (by rw [State.setPos_cfg, State.setPos_dp, hcfg, haddr, ha])
        (by rw [State.setPos_cfg, State.setPos_dp, hcfg, haddr]; exact hp) hcs]
      rfl
  · simp only [if_neg hok]
    exact lockedTail_anyPos hr

/-- WRITE comes to the second wait of its word `oks.length`. -/
theorem execWrite_comesToWait {a w : Word} {data : List Byte} {ds : List SendDraw} {oks ws : List Word} (hc : cfgWf s.cfg = true)
    (hb : WriteBegins s a ds) (hf : FmcReady s.fmc) (hw : (dataWords data).drop oks.length = w :: ws)
    (hflash : ∀ j, j ≤ oks.length → classify s.cfg (wordAddr a j) = .flashValid)
    (hsector : ∀ j, j ≤ oks.length → sectorOf s.cfg (wordAddr a j) ∉ s.cfg.wrpProtected) (hd : ∀ e ∈ oks, DrawOk e)
    (hfaulted : s.faulted = false) (hphase : s.phase = .dispatched) :
    ∃ v : State, FmcOpen v.fmc ∧ v.cfg = s.cfg ∧ v.dp.addr = a ∧
      ComesToWait (.write a data) s oks (v.programming oks.length w) (.programDone ws) fun u =>
        ((programResume ws u).bind writeTail).outcome := by
  have hlen : oks.length ≤ (dataWords data).length := by
    by_contra hlt
    rw [List.drop_of_length_le (by omega)] at hw
    exact List.cons_ne_nil _ _ hw.symm
  obtain ⟨v, hv, hframe, hrange⟩ := programRange_words (s := s.writeAcked a data ds) hf hlen (fun j hj => hflash j hj.le)
    (fun j hj => hsector j hj.le) hd
  have hcfg : v.cfg = s.cfg := by rw [hframe]; rfl
  have haddr : v.dp.addr = a := by rw [hframe]; rfl
  have hstart : ∀ cs, programStart w ws oks.length (v.withCompletions cs) = .go () ((v.programming oks.length w).withCompletions cs) := by
    intro cs
    rw [programStart_flash (s := v.withCompletions cs) hv
      (by rw [State.withCompletions_cfg, State.withCompletions_dp, hcfg, haddr, hflash _ le_rfl])
      (by rw [State.withCompletions_cfg, State.withCompletions_dp, hcfg, haddr]; exact hsector _ le_rfl)]
    rfl
  refine ⟨v, hv, hcfg, haddr, ?_⟩
  constructor
  case runs =>
    intro cs
    rw [WriteBegins.exec_eq (s := s.withCompletions (oks ++ cs)) ⟨hb.passes, hb.aligned, hb.inside, hb.acked⟩,
      State.writeAcked_withCompletions, hrange, hw, programLoop, hstart, Flow.bind_go]
    rfl
  case resumes => exact fun u hu => by rw [resumeHandler, hu]
  case holds =>
    intro u ho hcs
    rw [programResume, programFinish_hold ho hcs]
    rfl
  case inFlight => exact FmcOp.noConfusion
  case running =>
    refine ⟨?_, (congrArg cfgWf hcfg).trans hc, ?_⟩
    · show v.faulted = false
      rw [hframe]
      exact hfaulted
    · show v.phase = .dispatched
      rw [hframe]
      exact hphase
  case position => exact .inr ⟨ws, rfl⟩

end Write

/-! ### The obligation -/

/-- Settles O44: both commands come to a wait, and what is left of them from there on does not look at the position. -/
theorem heldHandlersGoOnWhereTheyStopped : Obligations.HeldHandlersGoOnWhereTheyStopped := by
  intro s d ds hc hfaulted hphase hk hf hs
  constructor
  · intro hn hp hcs
    have hwait := execErase_comesToWait hc hk hf hs hn hp hfaulted hphase
    obtain ⟨he, hstep, hlater⟩ := hwait.goesOn (d := d) hcs
      (eraseFinish_anyPos (s := (s.erasing ds).withCompletions [d]) (erasing_inFlight hc hn hf) hwait.inFlight (fmcReady_sr (f := s.fmc) hf) rfl)
    exact ⟨_, he, rfl, rfl, hstep, hlater⟩
  · intro a data oks ha hcl hend hp hcs hlen hd
    have hlen' : oks.length < (dataWords data).length := by rwa [dataWords_length]
    have hflash : ∀ j, j < data.length / 4 → classify s.cfg (wordAddr a j) = .flashValid := fun j hj =>
      classify_wordAddr_flash hc hcl hend hj
    have hsector : ∀ j, j < data.length / 4 → sectorOf s.cfg (wordAddr a j) ∉ s.cfg.wrpProtected := fun j hj =>
      sectorOf_wordAddr hc hcl hend hj (hp j hj)
    obtain ⟨v, hv, hcfg, haddr, hwait⟩ := execWrite_comesToWait hc ⟨hk, ha, by rw [hcl]; decide, hs⟩ hf
      (List.drop_eq_getElem_cons hlen') (fun j hj => hflash j (by omega)) (fun j hj => hsector j (by omega)) hd hfaulted hphase
    have hnext : (dataWords data).drop (oks.length + 1) ≠ [] → oks.length + 1 < data.length / 4 := by
      rw [← dataWords_length]
      intro hne
      by_contra hge
      exact hne (List.drop_of_length_le (by omega))
    obtain ⟨he, hstep, hlater⟩ := hwait.goesOn (d := d) hcs (programResume_anyPos hv fun hne => by
      rw [hcfg, haddr]
      exact ⟨hflash _ (hnext hne), hsector _ (hnext hne)⟩)
    refine ⟨_, _, he, List.getElem?_eq_getElem hlen', ?_, hstep, hlater⟩
    show FmcOp.program (wordAddr v.dp.addr oks.length) _ = _
    rw [haddr]

end Sys2Proof.Machine
end
